-- ==== Sys2Proof/Word.lean ====
section
/-! DEFINITION. The word types of the decoder block: bytes, byte sequences and LZW code values (spec/00_scope.md R10, R11). -/

namespace Sys2Proof

/-- A byte, an integer 0 to 255 (R10). Every quantity of the block is unsigned (R11). -/
abbrev Byte := BitVec 8

/-- A finite sequence of bytes (R10). -/
abbrev Bytes := List Byte

/-- An LZW code value: 0 to 4095, the range of the widest code (R8 row P1, R101). A narrower code is
held with zero bits in front, "used as is" (R79). -/
abbrev Code := BitVec 12

end Sys2Proof
end

