-- ==== Sys2Proof/Config.lean ====
section
/-! DEFINITION. What the spec fixes as constants (R8), what it leaves to the implementation (R9) and the free values
(spec/93_implementation_defined.md). The whitespace set WS is a parameter that a run must be able to vary: it stands in
State (State.ws); its default is here. -/

namespace Sys2Proof

/-- `DICT_SIZE`: the number of LZW codes (R8 row P1). -/
abbrev Config.dictSize : Nat := 4096
/-- The clear-table code (R8 row P4). -/
abbrev Config.clearCode : Nat := 256
/-- The end-of-data code (R8 row P4). -/
abbrev Config.eodCode : Nat := 257
/-- `FIRST_FREE`: the code of the first learned entry (R8 row P4). -/
abbrev Config.firstFree : Nat := 258

/-- The default of the parameter `WS` (R9 row P9, D3). -/
def Config.defaultWs : Bytes := [0x09#8, 0x0A#8, 0x0B#8, 0x0C#8, 0x0D#8, 0x20#8]

/-- What a byte of `IN`, `OUT` or `NAME[i]` that nothing has written reads as (U1: the spec gives none).
DESIGN CHOICE, unsafe, log entry 2. -/
def Config.unwrittenByte : Byte := 0#8

/-- The parameter `INFLATE` (R9 row P12, R271, D20): a total deterministic function from bytes to `Ok(bytes)`
(`some`) or `Fail` (`none`). It has no body: every theorem holds for every such function. Log entry 6. -/
opaque Config.inflate : Bytes → Option Bytes

/-- FREE VALUE: the byte that the `k`-th draw of a run gives (U1, U2). No body. Log entry 7. -/
opaque Config.freeByte : Nat → Byte

/-- FREE VALUE: the number that the `k`-th draw of a run gives (U1, U10). No body. Log entry 7. -/
opaque Config.freeNat : Nat → Nat

end Sys2Proof
end

