-- ==== Sys2Proof/Syntax.lean ====
section
/-! DEFINITION. The instructions: one constructor of `Instr` for each row of spec/opcode_table.json, and `Ctx`, which
says where an instruction's bits are read (R7: the host's command, a filter name, an in-band unit of one of the four
stream formats). -/

namespace Sys2Proof

/-- Filter ids (R31, R91). -/
inductive FilterId where
  | identity | ahx | a85 | lzw | flate | rl | ccf | jbig2 | dct | jpx | crypt | unknown
deriving DecidableEq, Repr

/-- The four values of `L_WIDTH`, the width in bits of the next LZW code (R38). -/
inductive LzwWidth where
  | w9 | w10 | w11 | w12
deriving DecidableEq, Repr

/-- Where an instruction's bits stand, with exactly the machine state its class test looks at.
* `cmd`, `op`: a value written by the host to `CMD` or to `OP` (R21, R90);
* `name`: the name of the stage that is dispatched (R91);
* `ahx`: an ASCIIHex stream, under the whitespace parameter (R94);
* `a85`: an ASCII85 stream, with `A_TILDE` (R97);
* `lzw`: an LZW stream, the code starting `off` bits into the first byte, with `L_WIDTH`, `L_NEXT` and whether
  `L_PREV` holds a code (R101, R103);
* `rl`: a RunLength stream (R106). -/
inductive Ctx where
  | cmd
  | op
  | name
  | ahx (ws : Bytes)
  | a85 (ws : Bytes) (tilde : Bool)
  | lzw (off : Nat) (width : LzwWidth) (next : Nat) (prev : Bool)
  | rl
deriving DecidableEq, Repr

/-- The instructions, in the order of spec/opcode_table.json. Operands: a stream byte `c`, a literal byte `b`, a code
value `v`, the low seven bits `n` of a RunLength control byte, the bytes of an unrecognised name. -/
inductive Instr where
  | start
  | decode
  | decodeAll
  | nameIdentity
  | nameAhx
  | nameA85
  | nameLzw
  | nameFlate
  | nameRl
  | nameStubCcf
  | nameStubJbig2
  | nameStubDct
  | nameStubJpx
  | nameStubCrypt
  | nameUnknown (name : Bytes)
  | ahxWs (c : Byte)
  | ahxEod
  | ahxDigit (c : Byte)
  | ahxInvalid (c : Byte)
  | a85Ws (c : Byte)
  | a85Eod
  | a85Tilde
  | a85Z
  | a85Digit (c : Byte)
  | a85Invalid (c : Byte)
  | lzwClear
  | lzwEod
  | lzwFirst (b : Byte)
  | lzwFirstUndef (v : Code)
  | lzwLit (b : Byte)
  | lzwRef (v : Code)
  | lzwKwkwk (v : Code)
  | lzwBeyond (v : Code)
  | rlLit (n : BitVec 7)
  | rlEod
  | rlRep (n : BitVec 7)
deriving DecidableEq, Repr

end Sys2Proof
end

