-- ==== Sys2Proof/Decode.lean ====
section
/-! DEFINITION. The decoder, total on any bytes and rejecting by name, the encoder written from the same tables
(spec/30_encoding.md), and the host's numbering of a table word. -/

namespace Sys2Proof

/-- Why some bytes are no instruction.
* `noCommand`: a value other than `START` written to `CMD` (R21: "one command"); the write has no effect, log entry 9;
* `noInput`: fewer bits than one unit; the units never fetch then (R67), so only a state no run reaches gets it. -/
inductive DecodeError where
  | noCommand
  | noInput
deriving DecidableEq, Repr

/-! ## Bit fields -/

/-- Stream bit `k` of a byte sequence: bit `7 - (k mod 8)` of byte `k div 8` (R12). Beyond the end: 0, never read. -/
def streamBit (s : Bytes) (k : Nat) : Nat :=
  ((s.getD (k / 8) 0#8).toNat / 2 ^ (7 - k % 8)) % 2

/-- The `w`-bit field at stream bit `p`, the first bit read the most significant (R12, R62). -/
def readBits (s : Bytes) (p : Nat) : Nat → Nat
  | 0 => 0
  | w + 1 => 2 * readBits s p w + streamBit s (p + w)

/-- The number of bits `L_WIDTH` stands for (R38). -/
def LzwWidth.bits : LzwWidth → Nat
  | .w9 => 9
  | .w10 => 10
  | .w11 => 11
  | .w12 => 12

/-! ## Character and symbol classes -/

/-- `c` is whitespace under the parameter `WS` (R9 row P9): 0x20 always is, the bytes 33 to 126 never are, and the rest
is as the list says. So every list stands for an admissible set, and every admissible set is some list's. -/
def isWs (ws : Bytes) (c : Byte) : Bool :=
  c == 0x20#8 || (ws.contains c && !(Nat.ble 33 c.toNat && Nat.ble c.toNat 126))

/-- `c` is a hexadecimal digit, either case (R94, D4). -/
def isHexDigit (c : Byte) : Bool :=
  (Nat.ble 0x30 c.toNat && Nat.ble c.toNat 0x39) ||
  (Nat.ble 0x41 c.toNat && Nat.ble c.toNat 0x46) ||
  (Nat.ble 0x61 c.toNat && Nat.ble c.toNat 0x66)

/-- `c` is a base-85 digit, `!` to `u` (R97). -/
def isA85Digit (c : Byte) : Bool :=
  Nat.ble 33 c.toNat && Nat.ble c.toNat 117

/-! ## Filter names -/

/-- The bytes of the recognised names (R91); `unknown` stands for no name. -/
def nameBytes : FilterId → Bytes
  | .identity => []
  | .ahx => [0x41#8, 0x53#8, 0x43#8, 0x49#8, 0x49#8, 0x48#8, 0x65#8, 0x78#8, 0x44#8, 0x65#8, 0x63#8, 0x6F#8, 0x64#8, 0x65#8]
  | .a85 => [0x41#8, 0x53#8, 0x43#8, 0x49#8, 0x49#8, 0x38#8, 0x35#8, 0x44#8, 0x65#8, 0x63#8, 0x6F#8, 0x64#8, 0x65#8]
  | .lzw => [0x4C#8, 0x5A#8, 0x57#8, 0x44#8, 0x65#8, 0x63#8, 0x6F#8, 0x64#8, 0x65#8]
  | .flate => [0x46#8, 0x6C#8, 0x61#8, 0x74#8, 0x65#8, 0x44#8, 0x65#8, 0x63#8, 0x6F#8, 0x64#8, 0x65#8]
  | .rl => [0x52#8, 0x75#8, 0x6E#8, 0x4C#8, 0x65#8, 0x6E#8, 0x67#8, 0x74#8, 0x68#8, 0x44#8, 0x65#8, 0x63#8, 0x6F#8, 0x64#8, 0x65#8]
  | .ccf => [0x43#8, 0x43#8, 0x49#8, 0x54#8, 0x54#8, 0x46#8, 0x61#8, 0x78#8, 0x44#8, 0x65#8, 0x63#8, 0x6F#8, 0x64#8, 0x65#8]
  | .jbig2 => [0x4A#8, 0x42#8, 0x49#8, 0x47#8, 0x32#8, 0x44#8, 0x65#8, 0x63#8, 0x6F#8, 0x64#8, 0x65#8]
  | .dct => [0x44#8, 0x43#8, 0x54#8, 0x44#8, 0x65#8, 0x63#8, 0x6F#8, 0x64#8, 0x65#8]
  | .jpx => [0x4A#8, 0x50#8, 0x58#8, 0x44#8, 0x65#8, 0x63#8, 0x6F#8, 0x64#8, 0x65#8]
  | .crypt => [0x43#8, 0x72#8, 0x79#8, 0x70#8, 0x74#8]
  | .unknown => []

/-- The ids that have a name, in the order of R91. -/
def namedFilters : List FilterId :=
  [.identity, .ahx, .a85, .lzw, .flate, .rl, .ccf, .jbig2, .dct, .jpx, .crypt]

/-- `lookup(name)` (R136, R92): the id of the row whose byte sequence equals the name, `unknown` if none does. -/
def lookup (n : Bytes) : FilterId :=
  (namedFilters.find? fun f => nameBytes f == n).getD .unknown

/-! ## The decoders, one per context -/

/-- A value written to `CMD`: 1 is `START`, the only command (R21, R90). -/
def decodeCmd (v : BitVec 1) : Except DecodeError Instr :=
  if v = 1#1 then .ok .start else .error .noCommand

/-- A value written to `OP`: 0 selects `DECODE`, 1 selects `DECODE_ALL` (R21, R90). -/
def decodeOp (v : BitVec 1) : Instr :=
  if v = 0#1 then .decode else .decodeAll

/-- A filter name (R91, R136). -/
def decodeName (n : Bytes) : Instr :=
  match lookup n with
  | .identity => .nameIdentity
  | .ahx => .nameAhx
  | .a85 => .nameA85
  | .lzw => .nameLzw
  | .flate => .nameFlate
  | .rl => .nameRl
  | .ccf => .nameStubCcf
  | .jbig2 => .nameStubJbig2
  | .dct => .nameStubDct
  | .jpx => .nameStubJpx
  | .crypt => .nameStubCrypt
  | .unknown => .nameUnknown n

/-- An ASCIIHex byte, tested in the order of R94. -/
def decodeAhx (ws : Bytes) (c : Byte) : Instr :=
  if isWs ws c then .ahxWs c
  else if c = 0x3E#8 then .ahxEod
  else if isHexDigit c then .ahxDigit c
  else .ahxInvalid c

/-- An ASCII85 byte, tested in the order of R191 (R97): whitespace, then what may follow a tilde, then tilde, `z`,
digit. -/
def decodeA85 (ws : Bytes) (tilde : Bool) (c : Byte) : Instr :=
  if isWs ws c then .a85Ws c
  else if tilde then (if c = 0x3E#8 then .a85Eod else .a85Invalid c)
  else if c = 0x7E#8 then .a85Tilde
  else if c = 0x7A#8 then .a85Z
  else if isA85Digit c then .a85Digit c
  else .a85Invalid c

/-- An LZW code, tested in the order of R103 and R212; `prev` says whether `L_PREV` holds a code. -/
def decodeLzw (next : Nat) (prev : Bool) (v : Code) : Instr :=
  if v.toNat = Config.clearCode then .lzwClear
  else if v.toNat = Config.eodCode then .lzwEod
  else if !prev then
    (if v.toNat < 256 then .lzwFirst (v.setWidth 8) else .lzwFirstUndef v)
  else if v.toNat < 256 then .lzwLit (v.setWidth 8)
  else if v.toNat < next then .lzwRef v
  else if v.toNat = next then .lzwKwkwk v
  else .lzwBeyond v

/-- A RunLength control byte (R106). Its low seven bits are the length field (R107). -/
def decodeRl (c : Byte) : Instr :=
  if c.toNat < 128 then .rlLit (c.setWidth 7)
  else if c.toNat = 128 then .rlEod
  else .rlRep (c.setWidth 7)

/-- THE DECODER: the instruction at the head of some bytes read in a context. A host register's value stands in bit 0 of
one byte; a name is all of the bytes; a stream unit is the first byte, or the code at bit `off`. -/
def decode (x : Ctx) (bs : Bytes) : Except DecodeError Instr :=
  match x with
  | .cmd => match bs with
    | [] => .error .noInput
    | b :: _ => decodeCmd (b.setWidth 1)
  | .op => match bs with
    | [] => .error .noInput
    | b :: _ => .ok (decodeOp (b.setWidth 1))
  | .name => .ok (decodeName bs)
  | .ahx ws => match bs with
    | [] => .error .noInput
    | c :: _ => .ok (decodeAhx ws c)
  | .a85 ws tilde => match bs with
    | [] => .error .noInput
    | c :: _ => .ok (decodeA85 ws tilde c)
  | .lzw off w next prev =>
    if 8 * bs.length < off + w.bits then .error .noInput
    else .ok (decodeLzw next prev (BitVec.ofNat 12 (readBits bs off w.bits)))
  | .rl => match bs with
    | [] => .error .noInput
    | c :: _ => .ok (decodeRl c)

/-! ## The encoder -/

/-- A code of `w` bits after `off` zero bits, most significant bit first, the last byte filled with zero bits
(R102, R110). -/
def packCode (off w : Nat) (v : Nat) : Bytes :=
  let n := (off + w + 7) / 8
  (List.range n).map fun k => BitVec.ofNat 8 (v * 2 ^ (8 * n - off - w) / 2 ^ (8 * (n - 1 - k)))

/-- A code in an LZW context; in no LZW context a 9-bit code at bit 0. -/
def encodeCode (x : Ctx) (v : Nat) : Bytes :=
  match x with
  | .lzw off w _ _ => packCode off w.bits v
  | _ => packCode 0 9 v

/-- THE ENCODER: the bytes of an instruction in a context, from the tables of spec/30_encoding.md. A RunLength unit's
payload is data that follows the control byte (R106) and no part of the instruction. -/
def encode (x : Ctx) (i : Instr) : Bytes :=
  match i with
  | .start => [1#8]
  | .decode => [0#8]
  | .decodeAll => [1#8]
  | .nameIdentity => nameBytes .identity
  | .nameAhx => nameBytes .ahx
  | .nameA85 => nameBytes .a85
  | .nameLzw => nameBytes .lzw
  | .nameFlate => nameBytes .flate
  | .nameRl => nameBytes .rl
  | .nameStubCcf => nameBytes .ccf
  | .nameStubJbig2 => nameBytes .jbig2
  | .nameStubDct => nameBytes .dct
  | .nameStubJpx => nameBytes .jpx
  | .nameStubCrypt => nameBytes .crypt
  | .nameUnknown n => n
  | .ahxWs c => [c]
  | .ahxEod => [0x3E#8]
  | .ahxDigit c => [c]
  | .ahxInvalid c => [c]
  | .a85Ws c => [c]
  | .a85Eod => [0x3E#8]
  | .a85Tilde => [0x7E#8]
  | .a85Z => [0x7A#8]
  | .a85Digit c => [c]
  | .a85Invalid c => [c]
  | .lzwClear => encodeCode x 256
  | .lzwEod => encodeCode x 257
  | .lzwFirst b => encodeCode x b.toNat
  | .lzwFirstUndef v => encodeCode x v.toNat
  | .lzwLit b => encodeCode x b.toNat
  | .lzwRef v => encodeCode x v.toNat
  | .lzwKwkwk v => encodeCode x v.toNat
  | .lzwBeyond v => encodeCode x v.toNat
  | .rlLit n => [n.setWidth 8]
  | .rlEod => [0x80#8]
  | .rlRep n => [0x80#8 ||| n.setWidth 8]

/-! ## The opcode table's numbering of a word

The table's words are read in contexts of their own and one word can stand in several rows (0x3E is AHX.EOD and
A85.EOD; 0x80 is in the mask of RL.REP and is RL.EOD). A bare word is read in the context of the FIRST row of
spec/opcode_table.json whose fixed bits it has. Log entry 10. -/

/-- The little-endian bytes of a number: bits 7..0 first. -/
def leBytes (w : Nat) : Nat → Bytes
  | 0 => []
  | n + 1 => BitVec.ofNat 8 w :: leBytes (w / 256) n

/-- A name's bytes from its number. The host's numbering puts the first byte in bits 7..0; the table prints a name's
number with the first byte leftmost. The reading that is a recognised name is taken, else the host's. -/
def tableName (nbits w : Nat) : Bytes :=
  let le := leBytes w ((nbits + 7) / 8)
  if lookup le = .unknown ∧ lookup le.reverse ≠ .unknown then le.reverse else le

/-- The narrowest width a code value fits. -/
def tableWidth (nbits w : Nat) : LzwWidth :=
  if nbits = 10 then .w10
  else if nbits = 11 then .w11
  else if nbits = 12 then .w12
  else if w < 512 then .w9
  else if w < 1024 then .w10
  else if w < 2048 then .w11
  else .w12

/-- The context a table word is read in and its bytes as the hardware stores them. One bit: a host register (0 is
DECODE in `OP`, 1 is START in `CMD`). Up to eight bits: a stream byte; 0x3E is ASCIIHex, 0x7E and 0x7A are ASCII85,
every other one a RunLength control byte, followed by the zeros of its payload. Nine to sixteen bits: an LZW code of a unit just
initialised. More, or none: a name. -/
def tableWord (nbits w : Nat) : Ctx × Bytes :=
  if nbits = 0 then (.name, [])
  else if nbits = 1 then
    (if w % 2 = 0 then (.op, [0#8]) else (.cmd, [1#8]))
  else if nbits ≤ 8 then
    (let c := BitVec.ofNat 8 w
     if c = 0x3E#8 then (.ahx Config.defaultWs, [c])
     else if c = 0x7E#8 then (.a85 Config.defaultWs false, [c])
     else if c = 0x7A#8 then (.a85 Config.defaultWs false, [c])
     else (.rl, c :: List.replicate (if c.toNat < 128 then c.toNat + 1 else 1) 0#8))
  else if nbits ≤ 16 then
    (let k := tableWidth nbits (w % 4096)
     (.lzw 0 k Config.firstFree false, packCode 0 k.bits (w % 2 ^ k.bits)))
  else (.name, tableName nbits w)

/-- The instruction the decoder reads from a table word. -/
def decodeTableWord (nbits w : Nat) : Option Instr :=
  match decode (tableWord nbits w).1 (tableWord nbits w).2 with
  | .ok i => some i
  | .error _ => none

end Sys2Proof
end

