-- ==== Sys2Proof/Machine/State.lean ====
section
/-! DEFINITION. The state of the block (spec/10_state.md, R20): the host interface registers, the sequencer, the
registers of the four units and the LZW dictionary; the state after reset; and why a step can stop. -/

namespace Sys2Proof.Machine

/-- A table by number in ONE canonical form: keys strictly rising, and no entry equal to what an unlisted key reads as.
Its operations are in Machine/Ops.lean. -/
abbrev Sparse (α : Type) := List (Nat × α)

/-- A byte buffer by address. -/
abbrev Memory := List Host.Cell

/-- `STATUS` (R25). -/
inductive Status where
  | idle | busy | done | error
deriving DecidableEq, Repr

/-- `ERR_KIND` (R26, R280). The unused codes 5 to 7 "never occur" and have no constructor. -/
inductive ErrKind where
  | none | unknownFilter | invalidEncoding | notImplemented | underlyingCodecError
deriving DecidableEq, Repr

/-- `PHASE` (R30). -/
inductive Phase where
  | dispatch | run
deriving DecidableEq, Repr

/-- `NAME_LEN[i]` and the bytes of `NAME[i]` (R22). -/
structure NameReg where
  /-- `NAME_LEN[i]` -/
  len : Nat
  /-- the bytes the host has written into `NAME[i]` -/
  bytes : Memory
deriving DecidableEq, Repr

/-- What an unwritten `NAME[i]` holds: DESIGN CHOICE, unsafe, log entry 1. -/
abbrev NameReg.unwritten : NameReg := { len := 0, bytes := [] }

/-- The registers only the host writes (R21 to R23). -/
structure HostRegs where
  /-- `OP` (R21): 0 is `DECODE`, 1 is `DECODE_ALL` -/
  op : BitVec 1
  /-- `PLEN` (R22) -/
  plen : Nat
  /-- `NAME[i]`, `NAME_LEN[i]` by `i` (R22) -/
  names : Sparse NameReg
  /-- `IN` (R23) -/
  inBuf : Memory
  /-- `IN_LEN` (R23) -/
  inLen : Nat
deriving DecidableEq, Repr

/-- The registers the engine reports in, read-only for the host (R24 to R27). -/
structure Report where
  /-- `STATUS` (R25) -/
  status : Status
  /-- `OUT` (R24) -/
  out : Memory
  /-- `OUT_LEN` (R24) -/
  outLen : Nat
  /-- `ERR_KIND` (R26) -/
  errKind : ErrKind
  /-- `ERR_STAGE` (R27) -/
  errStage : Nat
  /-- `ERR_FID` (R27) -/
  errFid : FilterId
deriving DecidableEq, Repr

/-- The sequencer registers (R28 to R34): with `BP`, the program counter (R7). `SRC_LEN` and `DST_LEN` are the lengths
of the two sequences. -/
structure Seq where
  /-- `NSTAGES` (R28) -/
  nStages : Nat
  /-- `STAGE` (R29) -/
  stage : Nat
  /-- `PHASE` (R30) -/
  phase : Phase
  /-- `FID` (R31) -/
  fid : FilterId
  /-- `SRC[0:SRC_LEN]` (R32) -/
  src : Bytes
  /-- `DST[0:DST_LEN]` (R33) -/
  dst : Bytes
  /-- `RP` (R34) -/
  rp : Nat
deriving DecidableEq, Repr

/-- The ASCIIHex unit (R35). `HX_HAVE` is folded into `HX_HI`, as R43 asks: a value is there exactly when
`HX_HAVE = 1`. -/
structure AhxRegs where
  /-- `HX_HI` with `HX_HAVE` (R35, R43) -/
  hi : Option (BitVec 4)
  /-- `HX_EOD` (R35) -/
  eod : Bool
deriving DecidableEq, Repr

/-- The ASCII85 unit (R36). -/
structure A85Regs where
  /-- `A_TUPLE` (R36), arithmetic modulo 2^32 (R186) -/
  tuple : BitVec 32
  /-- `A_POS` (R36): a 3-bit register with the values 0 to 4 -/
  pos : Fin 5
  /-- `A_TILDE` (R36) -/
  tilde : Bool
  /-- `A_EOD` (R36) -/
  eod : Bool
deriving DecidableEq, Repr

/-- The RunLength unit (R37): one flag beside `RP`. -/
structure RlRegs where
  /-- `RL_EOD` (R37) -/
  eod : Bool
deriving DecidableEq, Repr

/-- The LZW unit (R38 to R41, R44, R45). -/
structure LzwRegs where
  /-- `BP` (R44) -/
  bp : Nat
  /-- `L_WIDTH` (R38) -/
  width : LzwWidth
  /-- `L_NEXT` (R39) -/
  next : Nat
  /-- `L_PREV` (R40): `none` is `NONE` -/
  prev : Option Code
  /-- `L_EOD` (R41) -/
  eod : Bool
  /-- the learned entries of `DICT` by code (R45); an unlisted code has no entry, which is the empty sequence here -/
  dict : Sparse Bytes
deriving DecidableEq, Repr

/-- What the host writes, one register or one byte at a time (R323, R330). `CMD` takes a 1-bit value
(spec/opcode_table.json, row START: "1-bit command value; 1 = START, the only command"), `OP` one bit (R21). -/
inductive HostWrite where
  | cmd (v : BitVec 1)
  | op (v : BitVec 1)
  | plen (n : Nat)
  | nameByte (i j : Nat) (b : Byte)
  | nameLen (i n : Nat)
  | inByte (a : Nat) (b : Byte)
  | inLen (n : Nat)
deriving DecidableEq, Repr

/-- What the host reads (R21 to R27). The sequencer and the units are not readable (R300). -/
inductive HostReg where
  | cmd
  | op
  | plen
  | nameByte (i j : Nat)
  | nameLen (i : Nat)
  | inByte (a : Nat)
  | inLen
  | outByte (a : Nat)
  | outLen
  | status
  | errKind
  | errStage
  | errFid
deriving DecidableEq, Repr

/-- Who moves in a step (R19: the engine and the host; R320: the reset input). -/
inductive Turn where
  | engine
  | write (w : HostWrite)
  | read (r : HostReg)
  | reset
deriving DecidableEq, Repr

/-- The state. The last three fields are the MODEL's own, not the spec's: `ws` is the parameter `WS` of the realisation,
which no step changes (R9 row P9, log entry 5); `agenda` lists who moves next and, once it is empty, the engine always
does (log entry 8); `draws` counts the free values drawn (log entry 7). -/
structure State where
  host : HostRegs
  rep : Report
  seq : Seq
  ahx : AhxRegs
  a85 : A85Regs
  rl : RlRegs
  lzw : LzwRegs
  ws : Bytes
  agenda : List Turn
  draws : Nat
deriving DecidableEq, Repr

/-- Why the machine stops. The block has no such stop (R15, R280: every failure is one of the four error kinds, and the
run goes on to `STATUS = ERROR`); each one here stands for a register combination that no run reaches and to which the
spec gives no step. All are safe. -/
inductive Fault where
  /-- Raised by the fetch: a unit is not finished and yet no whole unit of the stream is left at its cursor, so the
  cursor is beyond `SRC_LEN` (R16, R34). Safe. -/
  | srcOutOfRange
  /-- Raised by the fetch: `PHASE = RUN` while `FID` names none of the four units (R137, R138). Safe. -/
  | noActiveUnit
  /-- Raised by the fetch: `STAGE > NSTAGES` (R29). Safe. -/
  | stageOutOfRange
  /-- Raised by LZW.LIT, LZW.REF, LZW.KWKWK and LZW.BEYOND: the step would read the entry `c`, which is undefined
  (R47: "No rule reads an undefined entry"). Safe. -/
  | undefinedEntry (c : Nat)
  /-- Raised by LZW.LIT, LZW.REF, LZW.KWKWK and LZW.BEYOND: `L_PREV = NONE`, where the code would be of another class
  (R103). Safe. -/
  | noPreviousCode
deriving DecidableEq, Repr

/-- Why an instruction is not run. -/
inductive Refusal where
  /-- Raised by an arm of `exec` that has no meaning yet. No arm is one. Safe. -/
  | notModelled (mnemonic : String)
deriving DecidableEq, Repr

/-- The state after reset (R54, R320). `STATUS`, `OP`, `PLEN`, `IN_LEN`, `OUT_LEN`, `ERR_KIND`, `ERR_STAGE`, `ERR_FID`
are the spec's; the spec leaves everything else unspecified, and the values here are DESIGN CHOICES: log entries 1 to 4.
`ws` is the default of the parameter; `agenda` is empty and `draws` is 0. -/
def State.reset : State where
  host := { op := 0#1, plen := 0, names := [], inBuf := [], inLen := 0 }
  rep := { status := .idle, out := [], outLen := 0, errKind := .none, errStage := 0, errFid := .identity }
  seq := { nStages := 0, stage := 0, phase := .dispatch, fid := .identity, src := [], dst := [], rp := 0 }
  ahx := { hi := none, eod := false }
  a85 := { tuple := 0#32, pos := 0, tilde := false, eod := false }
  rl := { eod := false }
  lzw := { bp := 0, width := .w9, next := 258, prev := none, eod := false, dict := [] }
  ws := Config.defaultWs
  agenda := []
  draws := 0

end Sys2Proof.Machine
end

