-- ==== Sys2Proof/Machine/Ops.lean ====
section
/-! DEFINITION. The named operations over buffers and registers (spec/20_memory.md, spec/00_scope.md R16, R17), taking
an error (spec/60_exceptions.md R290) and leaving it again (R292, R135). -/

namespace Sys2Proof.Machine

/-- The answer of a step (Host/Core.lean). -/
abbrev Answer := Host.Outcome State Fault Refusal

/-! ## Tables in canonical form -/

/-- The entry at a key; `d` where none is listed. -/
def Sparse.get {α : Type} (d : α) : Sparse α → Nat → α
  | [], _ => d
  | (k', v) :: m, k => if k < k' then d else if k = k' then v else Sparse.get d m k

/-- The table with an entry written; writing `d` removes the entry. -/
def Sparse.set {α : Type} [DecidableEq α] (d : α) : Sparse α → Nat → α → Sparse α
  | [], k, v => if v = d then [] else [(k, v)]
  | (k', v') :: m, k, v =>
    if k < k' then (if v = d then (k', v') :: m else (k, v) :: (k', v') :: m)
    else if k = k' then (if v = d then m else (k, v) :: m)
    else (k', v') :: Sparse.set d m k v

/-- The canonical form: keys strictly rising, no entry equal to `d`. -/
abbrev Sparse.wf {α : Type} [DecidableEq α] (d : α) (m : Sparse α) : Prop :=
  m.Pairwise (fun a b => a.1 < b.1) ∧ ∀ e ∈ m, e.2 ≠ d

/-! ## Byte buffers -/

/-- One byte of a buffer. -/
def Memory.read (m : Memory) (a : Nat) : Byte := Sparse.get Config.unwrittenByte m a

/-- A buffer with one byte written. -/
def Memory.write (m : Memory) (a : Nat) (b : Byte) : Memory := Sparse.set Config.unwrittenByte m a b

/-- A buffer with a byte sequence written from address `a` on. -/
def Memory.writeAll (m : Memory) (a : Nat) : Bytes → Memory
  | [] => m
  | b :: bs => Memory.writeAll (Memory.write m a b) (a + 1) bs

/-- The bytes `0` to `n - 1` of a buffer. -/
def Memory.bytes (m : Memory) (n : Nat) : Bytes := (List.range n).map (Memory.read m)

/-- The canonical form of a buffer. -/
abbrev Memory.wf (m : Memory) : Prop := Sparse.wf Config.unwrittenByte m

/-! ## The registers seen by the engine -/

/-- `NAME[i]` with `NAME_LEN[i]`, as registers. -/
def State.nameReg (s : State) (i : Nat) : NameReg := Sparse.get NameReg.unwritten s.host.names i

/-- The name of stage `i`: the first `NAME_LEN[i]` bytes of `NAME[i]` (R22). -/
def State.name (s : State) (i : Nat) : Bytes := (s.nameReg i).bytes.bytes (s.nameReg i).len

/-- `IN[0:IN_LEN]` (R23). -/
def State.input (s : State) : Bytes := s.host.inBuf.bytes s.host.inLen

/-- `OUT[0:OUT_LEN]` (R24). -/
def State.output (s : State) : Bytes := s.rep.out.bytes s.rep.outLen

/-- `HX_HAVE` (R35, R43). -/
def State.hxHave (s : State) : Bool := s.ahx.hi.isSome

/-- The byte spaces of R52. -/
inductive Space where
  | input
  | src
  | dst
  | output
  | name (i : Nat)
deriving DecidableEq, Repr

/-- One byte of a space. `SRC` and `DST` have no byte at or beyond their length (R16, R52). -/
def State.readByte (s : State) (sp : Space) (a : Nat) : Option Byte :=
  match sp with
  | .input => some (s.host.inBuf.read a)
  | .src => s.seq.src[a]?
  | .dst => s.seq.dst[a]?
  | .output => some (s.rep.out.read a)
  | .name i => some ((s.nameReg i).bytes.read a)

/-! ## Reading the stage's input, writing its output -/

/-- `MemRead(a, 1)` (R16): the byte `SRC[a]`, none at or beyond `SRC_LEN`. -/
def State.memRead (s : State) (a : Nat) : Option Byte := s.seq.src[a]?

/-- The bytes `SRC[a : a + k]`, read one at a time (R254, R79). -/
def State.memReads (s : State) (a k : Nat) : Bytes := (s.seq.src.drop a).take k

/-- `RP <- RP + n` (R79). -/
def State.advance (s : State) (n : Nat) : State :=
  { s with seq := { s.seq with rp := s.seq.rp + n } }

/-- `Emit(bs)` (R17, R80): the bytes are appended to `DST` in order. -/
def State.emit (s : State) (bs : Bytes) : State :=
  { s with seq := { s.seq with dst := s.seq.dst ++ bs } }

/-- `BP <- BP + L_WIDTH` (R211, R79). -/
def State.advanceBits (s : State) : State :=
  { s with lzw := { s.lzw with bp := s.lzw.bp + s.lzw.width.bits } }

/-! ## Taking an error, and leaving it -/

/-- The state an abort leaves (R290). The working state, which the spec makes unspecified and no rule reads before it is
written again, is left as the run left it (U3; log entry 4). -/
def State.aborted (s : State) (k : ErrKind) (f : FilterId) : State :=
  { s with rep := { s.rep with status := .error, outLen := 0, errKind := k, errStage := s.seq.stage, errFid := f } }

/-- TAKING AN ERROR (R290): the whole effect of a step that raises kind `k`, with the id resolved for the stage's name.
There is no handler and no saved address; the engine stops in `STATUS = ERROR`. -/
def raise (k : ErrKind) (f : FilterId) (s : State) : Answer := .next (s.aborted k f)

/-- The state `START` leaves (R135, R53). It is also the only way out of `ERROR` and `DONE` other than reset: there is no
return and no acknowledge (R292). -/
def State.started (s : State) : State :=
  { s with
    rep := { s.rep with status := .busy, outLen := 0, errKind := .none, errStage := 0, errFid := .identity }
    seq := { s.seq with
      nStages := if s.host.op = 0#1 then 1 else s.host.plen
      stage := 0
      phase := .dispatch
      src := s.input } }

/-! ## The sequencer's registers -/

/-- `STAGE <- STAGE + 1` with `SRC` left as it is (R137, the identity case). -/
def State.skipStage (s : State) (f : FilterId) : State :=
  { s with seq := { s.seq with fid := f, stage := s.seq.stage + 1 } }

/-- `STAGE <- STAGE + 1` with `SRC` replaced (R137, the inflate port). -/
def State.passStage (s : State) (f : FilterId) (b : Bytes) : State :=
  { s with seq := { s.seq with fid := f, stage := s.seq.stage + 1, src := b } }

/-- What dispatch writes for every unit (R137, R53): `FID`, `RP <- 0`, `DST_LEN <- 0`, `PHASE <- RUN`. -/
def State.enterUnit (s : State) (f : FilterId) : State :=
  { s with seq := { s.seq with fid := f, rp := 0, dst := [], phase := .run } }

/-- The stage-end step's effect after the unit's finish rule (R138). -/
def State.stageDone (s : State) : State :=
  { s with seq := { s.seq with src := s.seq.dst, stage := s.seq.stage + 1, phase := .dispatch } }

/-- The finishing step's effect (R139). -/
def State.finished (s : State) : State :=
  { s with rep := { s.rep with
      out := s.rep.out.writeAll 0 s.seq.src
      outLen := s.seq.src.length
      status := .done } }

/-- The state after the head of the agenda has been taken off. -/
def State.popTurn (s : State) : State := { s with agenda := s.agenda.tail }

/-- The reset input (R320, R321): every register of the block as after reset. The parameter, what the environment does
next and the count of draws are not registers of the block. -/
def State.resetInput (s : State) : State :=
  { State.reset with ws := s.ws, agenda := s.agenda, draws := s.draws }

/-! ## The LZW dictionary -/

/-- `DICT[c]` (R45), the empty sequence where undefined: the literals are fixed, 256 and 257 have no entry, and a
learned entry is defined below `L_NEXT` only (R46). -/
def LzwRegs.entry (z : LzwRegs) (c : Nat) : Bytes :=
  if c < 256 then [BitVec.ofNat 8 c]
  else if c < Config.firstFree then []
  else if c < z.next then Sparse.get [] z.dict c
  else []

/-- The width after `L_NEXT` has become `n` (R218, R104): it changes at 511, 1023 and 2047 and nowhere else. -/
def widen (w : LzwWidth) (n : Nat) : LzwWidth :=
  if n = 511 then .w10 else if n = 1023 then .w11 else if n = 2047 then .w12 else w

/-- `Append(e)` (R218), which does nothing once the dictionary is full (R220). -/
def State.append (s : State) (e : Bytes) : State :=
  if s.lzw.next < Config.dictSize then
    { s with lzw := { s.lzw with
        dict := Sparse.set [] s.lzw.dict s.lzw.next e
        next := s.lzw.next + 1
        width := widen s.lzw.width (s.lzw.next + 1) } }
  else s

/-- `L_PREV <- c`. -/
def State.setPrev (s : State) (c : Code) : State :=
  { s with lzw := { s.lzw with prev := some c } }

end Sys2Proof.Machine
end

