-- ==== Sys2Proof/Machine/Operands.lean ====
section
/-! DEFINITION. The operand forms: digit values and weights, length fields, and the numbers the host reads. -/

namespace Sys2Proof.Machine

/-- `hexval(c)` (R95) as the four bits it fills; of a byte that is no digit, a value that is never used. -/
def hexval (c : Byte) : BitVec 4 :=
  BitVec.ofNat 4
    (if c.toNat ≤ 0x39 then c.toNat - 0x30
     else if c.toNat ≤ 0x46 then c.toNat - 0x37
     else c.toNat - 0x57)

/-- A pair of hexadecimal digits, the first the high nibble (R63, R96). -/
def hexPair (hi lo : BitVec 4) : Byte := hi ++ lo

/-- The weight `85^(4 - p)` of the digit at group position `p` (R98). -/
def a85Weight (p : Nat) : Nat := 85 ^ (4 - p)

/-- The accumulator after the digit `c` at position `p`, modulo 2^32 (R195, R186). -/
def a85Add (t : BitVec 32) (p : Nat) (c : Byte) : BitVec 32 :=
  t + BitVec.ofNat 32 ((c.toNat - 33) * a85Weight p)

/-- The four big-endian bytes of a tuple (R61). -/
def a85Bytes (t : BitVec 32) : Bytes :=
  [t.extractLsb' 24 8, t.extractLsb' 16 8, t.extractLsb' 8 8, t.extractLsb' 0 8]

/-- The bytes of a final group of `n` digits, `2 <= n <= 4` (R189): `85^(5 - n)` is added and the top `n - 1` bytes are
taken. -/
def a85Tail (t : BitVec 32) (n : Nat) : Bytes :=
  (a85Bytes (t + BitVec.ofNat 32 (85 ^ (5 - n)))).take (n - 1)

/-- The number of payload bytes of a literal run, 1 to 128 (R107). -/
def rlLitLen (n : BitVec 7) : Nat := n.toNat + 1

/-- The number of copies of a repeat run: `257 - c = 129 - n`, 128 down to 2 (R107). -/
def rlRepCount (n : BitVec 7) : Nat := 129 - n.toNat

/-- The number in `STATUS` (R25). -/
def Status.code : Status → Nat
  | .idle => 0 | .busy => 1 | .done => 2 | .error => 3

/-- The number in `ERR_KIND` (R26, R280). -/
def ErrKind.code : ErrKind → Nat
  | .none => 0 | .unknownFilter => 1 | .invalidEncoding => 2 | .notImplemented => 3 | .underlyingCodecError => 4

end Sys2Proof.Machine

namespace Sys2Proof

/-- The filter id as the number in `ERR_FID` (R31). -/
def FilterId.code : FilterId → Nat
  | .identity => 0 | .ahx => 1 | .a85 => 2 | .lzw => 3 | .flate => 4 | .rl => 5
  | .ccf => 6 | .jbig2 => 7 | .dct => 8 | .jpx => 9 | .crypt => 10 | .unknown => 15

end Sys2Proof
end

