-- ==== Sys2Proof/Machine/Flags.lean ====
section
/-! DEFINITION. The flags (R49): each unit's finished test, which reads its end-of-data flag, and the unit initialisation
that clears the flags (R53). The block has no arithmetic condition codes. -/

namespace Sys2Proof.Machine

/-- R171: `HX_EOD = 1` or `RP = SRC_LEN`. -/
def ahxFinished (s : State) : Bool := s.ahx.eod || s.seq.rp == s.seq.src.length

/-- R198: `A_EOD = 1` or `RP = SRC_LEN`. -/
def a85Finished (s : State) : Bool := s.a85.eod || s.seq.rp == s.seq.src.length

/-- R251: `RL_EOD = 1` or `RP = SRC_LEN`. -/
def rlFinished (s : State) : Bool := s.rl.eod || s.seq.rp == s.seq.src.length

/-- R221: `L_EOD = 1` or `8 * SRC_LEN - BP < L_WIDTH`. -/
def lzwFinished (s : State) : Bool :=
  s.lzw.eod || decide (8 * s.seq.src.length - s.lzw.bp < s.lzw.width.bits)

/-- R53 for the ASCIIHex unit: `HX_HAVE <- 0`, `HX_EOD <- 0`. -/
def State.initAhx (s : State) : State := { s with ahx := { hi := none, eod := false } }

/-- R53 for the ASCII85 unit. -/
def State.initA85 (s : State) : State :=
  { s with a85 := { tuple := 0#32, pos := 0, tilde := false, eod := false } }

/-- R53 for the RunLength unit. -/
def State.initRl (s : State) : State := { s with rl := { eod := false } }

/-- R53 for the LZW unit: all learned entries become undefined. -/
def State.initLzw (s : State) : State :=
  { s with lzw := { bp := 0, width := .w9, next := Config.firstFree, prev := none, eod := false, dict := [] } }

end Sys2Proof.Machine
end

