-- ==== Sys2Proof/Machine/Ascii85.lean ====
section
/-! DEFINITION. The ASCII85 unit, one input byte a step (spec/42_ascii85.md R191 to R198). -/

namespace Sys2Proof.Machine

/-- `A85.WS` (R192): nothing but `RP` changes. -/
def execA85Ws (_c : Byte) (s : State) : Answer := .next (s.advance 1)

/-- `A85.EOD` (R194): `>` after a tilde completes the end marker. -/
def execA85Eod (s : State) : Answer :=
  .next ({ s with a85 := { s.a85 with eod := true } }.advance 1)

/-- `A85.TILDE` (R193): the tilde is held back. -/
def execA85Tilde (s : State) : Answer :=
  .next ({ s with a85 := { s.a85 with tilde := true } }.advance 1)

/-- `A85.Z` (R196): four zero bytes at group position 0, an error at any other. -/
def execA85Z (s : State) : Answer :=
  if s.a85.pos = 0 then .next ((s.emit [0#8, 0#8, 0#8, 0#8]).advance 1)
  else raise .invalidEncoding s.seq.fid s

/-- `A85.DIGIT` (R195): the fifth digit of a group emits the group and clears the accumulator. -/
def execA85Digit (c : Byte) (s : State) : Answer :=
  let t := a85Add s.a85.tuple s.a85.pos.val c
  if s.a85.pos = 4 then
    .next (({ s with a85 := { s.a85 with tuple := 0#32, pos := 0 } }.emit (a85Bytes t)).advance 1)
  else
    .next ({ s with a85 := { s.a85 with tuple := t, pos := s.a85.pos + 1 } }.advance 1)

/-- `A85.INVALID` (R197; after a tilde, R194). -/
def execA85Invalid (_c : Byte) (s : State) : Answer := raise .invalidEncoding s.seq.fid s

/-- The finish rule (R198): a held tilde raises, a single pending digit raises, two to four give one byte less than
their number. -/
def a85Finish (s : State) : Except ErrKind State :=
  if s.a85.tilde ∧ s.a85.eod = false then .error .invalidEncoding
  else if s.a85.pos = 1 then .error .invalidEncoding
  else if 2 ≤ s.a85.pos.val then .ok (s.emit (a85Tail s.a85.tuple s.a85.pos.val))
  else .ok s

end Sys2Proof.Machine
end

