-- ==== Sys2Proof/Machine/AsciiHex.lean ====
section
/-! DEFINITION. The ASCIIHex unit, one input byte a step (spec/41_asciihex.md R166 to R171). -/

namespace Sys2Proof.Machine

/-- `AHX.WS` (R167): nothing but `RP` changes. -/
def execAhxWs (_c : Byte) (s : State) : Answer := .next (s.advance 1)

/-- `AHX.EOD` (R168). -/
def execAhxEod (s : State) : Answer :=
  .next ({ s with ahx := { s.ahx with eod := true } }.advance 1)

/-- `AHX.DIGIT` (R169): the first digit of a pair is held, the second completes a byte. -/
def execAhxDigit (c : Byte) (s : State) : Answer :=
  match s.ahx.hi with
  | none => .next ({ s with ahx := { s.ahx with hi := some (hexval c) } }.advance 1)
  | some h => .next (({ s with ahx := { s.ahx with hi := none } }.emit [hexPair h (hexval c)]).advance 1)

/-- `AHX.INVALID` (R170). -/
def execAhxInvalid (_c : Byte) (s : State) : Answer := raise .invalidEncoding s.seq.fid s

/-- The finish rule (R171): a missing `>` raises, and an unpaired last digit is a byte of its own with high nibble 0
(R165, `HEX_ODD_MODE = LOW`). -/
def ahxFinish (s : State) : Except ErrKind State :=
  if s.ahx.eod then
    match s.ahx.hi with
    | some h => .ok (s.emit [hexPair 0#4 h])
    | none => .ok s
  else .error .invalidEncoding

end Sys2Proof.Machine
end

