-- ==== Sys2Proof/Machine/Control.lean ====
section
/-! DEFINITION. The host's side: the command `START` and the operation select (spec/40_dispatcher.md R135, R90), the
other writes under the `BUSY` lock (spec/70_reset_and_hazards.md R330) and the reads (R332). -/

namespace Sys2Proof.Machine

/-- The `BUSY` lock (R330, R331): a host write takes effect only while `STATUS` is not `BUSY`; else it is ignored. -/
def State.unlessBusy (s t : State) : State := if s.rep.status = .busy then s else t

/-- `START` (R135). -/
def execStart (s : State) : Answer := .next (s.unlessBusy s.started)

/-- `OP <- v` under the lock (R21, R330). -/
def writeOp (v : BitVec 1) (s : State) : State :=
  s.unlessBusy { s with host := { s.host with op := v } }

/-- `DECODE` (R90, R132): `OP <- 0`, which makes the next `START` run `NAME[0]` alone (R28). -/
def execDecode (s : State) : Answer := .next (writeOp 0#1 s)

/-- `DECODE_ALL` (R90, R131): `OP <- 1`, which makes the next `START` run the `PLEN` names (R28). -/
def execDecodeAll (s : State) : Answer := .next (writeOp 1#1 s)

/-- `NAME[i]` replaced. -/
def State.setName (s : State) (i : Nat) (r : NameReg) : State :=
  { s with host := { s.host with names := Sparse.set NameReg.unwritten s.host.names i r } }

/-- A host write other than a command or an operation select (R323), under the lock (R330). -/
def hostStore (w : HostWrite) (s : State) : State :=
  match w with
  | .cmd _ => s
  | .op v => writeOp v s
  | .plen n => s.unlessBusy { s with host := { s.host with plen := n } }
  | .nameByte i j b => s.unlessBusy (s.setName i { s.nameReg i with bytes := (s.nameReg i).bytes.write j b })
  | .nameLen i n => s.unlessBusy (s.setName i { s.nameReg i with len := n })
  | .inByte a b => s.unlessBusy { s with host := { s.host with inBuf := s.host.inBuf.write a b } }
  | .inLen n => s.unlessBusy { s with host := { s.host with inLen := n } }

/-- The spec states no value for this read now, so it draws one: `OUT` outside a result (R332, U2), and the operands
while `BUSY`, where "no other register is meaningful" (U10; log entry 7). -/
def readDraws (r : HostReg) (s : State) : Bool :=
  match r with
  | .outByte a => !(s.rep.status == .done && decide (a < s.rep.outLen))
  | .plen => s.rep.status == .busy
  | .nameByte _ _ => s.rep.status == .busy
  | .nameLen _ => s.rep.status == .busy
  | .inByte _ => s.rep.status == .busy
  | .inLen => s.rep.status == .busy
  | .cmd => false
  | .op => false
  | .outLen => false
  | .status => false
  | .errKind => false
  | .errStage => false
  | .errFid => false

/-- The number a host read gives. "Reading `CMD` returns 0" (R21). -/
def hostRead (r : HostReg) (s : State) : Nat :=
  match r with
  | .cmd => 0
  | .op => s.host.op.toNat
  | .plen => if readDraws r s then Config.freeNat s.draws else s.host.plen
  | .nameByte i j =>
    if readDraws r s then (Config.freeByte s.draws).toNat else ((s.nameReg i).bytes.read j).toNat
  | .nameLen i => if readDraws r s then Config.freeNat s.draws else (s.nameReg i).len
  | .inByte a => if readDraws r s then (Config.freeByte s.draws).toNat else (s.host.inBuf.read a).toNat
  | .inLen => if readDraws r s then Config.freeNat s.draws else s.host.inLen
  | .outByte a => if readDraws r s then (Config.freeByte s.draws).toNat else (s.rep.out.read a).toNat
  | .outLen => s.rep.outLen
  | .status => s.rep.status.code
  | .errKind => s.rep.errKind.code
  | .errStage => s.rep.errStage
  | .errFid => s.rep.errFid.code

/-- A host read changes no register (R70); it uses up the value it drew. -/
def hostLoad (r : HostReg) (s : State) : State :=
  if readDraws r s then { s with draws := s.draws + 1 } else s

end Sys2Proof.Machine
end

