-- ==== Sys2Proof/Machine/Lzw.lean ====
section
/-! DEFINITION. The LZW unit, one code a step (spec/43_lzw.md R211 to R220). Every step moves `BP` by the width the code
was read at, before a change of width takes effect (R211). -/

namespace Sys2Proof.Machine

/-- `LZW.CLEAR` (R214). -/
def execLzwClear (s : State) : Answer :=
  .next { s with lzw := { s.advanceBits.lzw with next := Config.firstFree, width := .w9, prev := none, dict := [] } }

/-- `LZW.EOD` (R215). -/
def execLzwEod (s : State) : Answer :=
  .next { s with lzw := { s.advanceBits.lzw with eod := true } }

/-- `LZW.FIRST` (R213): the literal is emitted and nothing is appended. -/
def execLzwFirst (b : Byte) (s : State) : Answer :=
  .next ((s.advanceBits.emit [b]).setPrev (b.setWidth 12))

/-- `LZW.FIRST_UNDEF` (R219): the code is ignored. -/
def execLzwFirstUndef (_v : Code) (s : State) : Answer := .next s.advanceBits

/-- Step `KNOWN` (R216), shared by the literals and the learned entries: the entry is emitted, and the previous entry
with the first byte of this one is appended. -/
def lzwKnown (c : Code) (s : State) : Answer :=
  match s.lzw.prev with
  | none => .fault .noPreviousCode
  | some p =>
    match s.lzw.entry c.toNat, s.lzw.entry p.toNat with
    | [], _ => .fault (.undefinedEntry c.toNat)
    | _ :: _, [] => .fault (.undefinedEntry p.toNat)
    | b :: e, q => .next (((s.advanceBits.emit (b :: e)).append (q ++ [b])).setPrev c)

/-- Step `UNDEF` (R217), shared by the code equal to `L_NEXT` and the codes beyond it: the previous entry with its own
first byte is emitted and appended at `L_NEXT`, whose old value becomes the previous code. -/
def lzwUndef (s : State) : Answer :=
  match s.lzw.prev with
  | none => .fault .noPreviousCode
  | some p =>
    match s.lzw.entry p.toNat with
    | [] => .fault (.undefinedEntry p.toNat)
    | b :: e =>
      .next (((s.advanceBits.emit (b :: e ++ [b])).append (b :: e ++ [b])).setPrev (BitVec.ofNat 12 s.lzw.next))

/-- `LZW.LIT` (R216). -/
def execLzwLit (b : Byte) (s : State) : Answer := lzwKnown (b.setWidth 12) s

/-- `LZW.REF` (R216). -/
def execLzwRef (v : Code) (s : State) : Answer := lzwKnown v s

/-- `LZW.KWKWK` (R217). -/
def execLzwKwkwk (_v : Code) (s : State) : Answer := lzwUndef s

/-- `LZW.BEYOND` (R217, D15): as `LZW.KWKWK`. -/
def execLzwBeyond (_v : Code) (s : State) : Answer := lzwUndef s

end Sys2Proof.Machine
end

