-- ==== Sys2Proof/Machine/Names.lean ====
section
/-! DEFINITION. The filter names: the dispatch step, one meaning for each row (spec/40_dispatcher.md R137,
spec/45_flate_unsupported.md). The precondition `STATUS = BUSY`, `PHASE = DISPATCH`, `STAGE < NSTAGES` is the fetch's. -/

namespace Sys2Proof.Machine

/-- The empty name (R134, R137): the stage's output is its input. -/
def execNameIdentity (s : State) : Answer := .next (s.skipStage .identity)

/-- `ASCIIHexDecode` (R137): the unit is initialised and runs. -/
def execNameAhx (s : State) : Answer := .next (s.initAhx.enterUnit .ahx)

/-- `ASCII85Decode` (R137). -/
def execNameA85 (s : State) : Answer := .next (s.initA85.enterUnit .a85)

/-- `LZWDecode` (R137). -/
def execNameLzw (s : State) : Answer := .next (s.initLzw.enterUnit .lzw)

/-- `RunLengthDecode` (R137). -/
def execNameRl (s : State) : Answer := .next (s.initRl.enterUnit .rl)

/-- `FlateDecode` (R137, R270): the whole of `SRC` goes to `INFLATE`, which answers at once. -/
def execNameFlate (s : State) : Answer :=
  match Config.inflate s.seq.src with
  | none => raise .underlyingCodecError .flate s
  | some b => .next (s.passStage .flate b)

/-- A stub name (R272): NotImplemented whatever the input, naming the filter by its id. -/
def raiseStub (f : FilterId) (s : State) : Answer := raise .notImplemented f s

/-- `CCITTFaxDecode` (R272). -/
def execNameStubCcf (s : State) : Answer := raiseStub .ccf s

/-- `JBIG2Decode` (R272). -/
def execNameStubJbig2 (s : State) : Answer := raiseStub .jbig2 s

/-- `DCTDecode` (R272). -/
def execNameStubDct (s : State) : Answer := raiseStub .dct s

/-- `JPXDecode` (R272). -/
def execNameStubJpx (s : State) : Answer := raiseStub .jpx s

/-- `Crypt` (R272). -/
def execNameStubCrypt (s : State) : Answer := raiseStub .crypt s

/-- Any other name (R282): UnknownFilter; the offending name stays readable as `NAME[ERR_STAGE]`. -/
def execNameUnknown (_name : Bytes) (s : State) : Answer := raise .unknownFilter .unknown s

end Sys2Proof.Machine
end

