-- ==== Sys2Proof/Machine/RunLength.lean ====
section
/-! DEFINITION. The RunLength unit, one control byte with its payload a step (spec/44_runlength.md R252 to R255). -/

namespace Sys2Proof.Machine

/-- `RL.LIT` (R254): the payload is copied; a payload cut short raises. -/
def execRlLit (n : BitVec 7) (s : State) : Answer :=
  if s.seq.rp + 1 + rlLitLen n > s.seq.src.length then raise .invalidEncoding s.seq.fid s
  else .next ((s.emit (s.memReads (s.seq.rp + 1) (rlLitLen n))).advance (1 + rlLitLen n))

/-- `RL.EOD` (R253). -/
def execRlEod (s : State) : Answer := .next ({ s with rl := { eod := true } }.advance 1)

/-- `RL.REP` (R255): the byte after the control byte is repeated; if there is none, the step raises. -/
def execRlRep (n : BitVec 7) (s : State) : Answer :=
  match s.memRead (s.seq.rp + 1) with
  | none => raise .invalidEncoding s.seq.fid s
  | some b => .next ((s.emit (List.replicate (rlRepCount n) b)).advance 2)

end Sys2Proof.Machine
end

