-- ==== Sys2Proof/Machine/Dispatch.lean ====
section
/-! DEFINITION. What each instruction does: one arm per constructor of Instr. -/

namespace Sys2Proof.Machine

def exec (i : Instr) (s : State) : Host.Outcome State Fault Refusal :=
  match i with
  | .start => Sys2Proof.Machine.execStart s
  | .decode => Sys2Proof.Machine.execDecode s
  | .decodeAll => Sys2Proof.Machine.execDecodeAll s
  | .nameIdentity => Sys2Proof.Machine.execNameIdentity s
  | .nameAhx => Sys2Proof.Machine.execNameAhx s
  | .nameA85 => Sys2Proof.Machine.execNameA85 s
  | .nameLzw => Sys2Proof.Machine.execNameLzw s
  | .nameFlate => Sys2Proof.Machine.execNameFlate s
  | .nameRl => Sys2Proof.Machine.execNameRl s
  | .nameStubCcf => Sys2Proof.Machine.execNameStubCcf s
  | .nameStubJbig2 => Sys2Proof.Machine.execNameStubJbig2 s
  | .nameStubDct => Sys2Proof.Machine.execNameStubDct s
  | .nameStubJpx => Sys2Proof.Machine.execNameStubJpx s
  | .nameStubCrypt => Sys2Proof.Machine.execNameStubCrypt s
  | .nameUnknown name => Sys2Proof.Machine.execNameUnknown name s
  | .ahxWs c => Sys2Proof.Machine.execAhxWs c s
  | .ahxEod => Sys2Proof.Machine.execAhxEod s
  | .ahxDigit c => Sys2Proof.Machine.execAhxDigit c s
  | .ahxInvalid c => Sys2Proof.Machine.execAhxInvalid c s
  | .a85Ws c => Sys2Proof.Machine.execA85Ws c s
  | .a85Eod => Sys2Proof.Machine.execA85Eod s
  | .a85Tilde => Sys2Proof.Machine.execA85Tilde s
  | .a85Z => Sys2Proof.Machine.execA85Z s
  | .a85Digit c => Sys2Proof.Machine.execA85Digit c s
  | .a85Invalid c => Sys2Proof.Machine.execA85Invalid c s
  | .lzwClear => Sys2Proof.Machine.execLzwClear s
  | .lzwEod => Sys2Proof.Machine.execLzwEod s
  | .lzwFirst b => Sys2Proof.Machine.execLzwFirst b s
  | .lzwFirstUndef v => Sys2Proof.Machine.execLzwFirstUndef v s
  | .lzwLit b => Sys2Proof.Machine.execLzwLit b s
  | .lzwRef v => Sys2Proof.Machine.execLzwRef v s
  | .lzwKwkwk v => Sys2Proof.Machine.execLzwKwkwk v s
  | .lzwBeyond v => Sys2Proof.Machine.execLzwBeyond v s
  | .rlLit n => Sys2Proof.Machine.execRlLit n s
  | .rlEod => Sys2Proof.Machine.execRlEod s
  | .rlRep n => Sys2Proof.Machine.execRlRep n s

end Sys2Proof.Machine
end

