-- ==== Sys2Proof/Machine/Fetch.lean ====
section
/-! DEFINITION. Who moves and what is done next (R19, R135 to R139): the host's turn, the engine's next instruction, or
one of the engine's steps that no bits stand for (the stage end and the finishing step). -/

namespace Sys2Proof.Machine

/-- What one step does. -/
inductive Action where
  /-- run an instruction -/
  | instr (i : Instr)
  /-- the stage-end step (R138) -/
  | stageEnd
  /-- the finishing step (R139) -/
  | finish
  /-- another host write (R323, R330) -/
  | store (w : HostWrite)
  /-- a host read -/
  | load (r : HostReg)
  /-- the reset input (R320) -/
  | reset
  /-- nothing: the engine takes no step unless `STATUS = BUSY` (R301) -/
  | quiet
  /-- a register combination without a step -/
  | stuck (f : Fault)
deriving DecidableEq, Repr

/-- The context and the bytes at the running unit's cursor: `SRC` from `RP` on, or for the LZW unit from the byte that
holds stream bit `BP` (R34, R44). None when `FID` names no unit. -/
def State.window (s : State) : Option (Ctx × Bytes) :=
  match s.seq.fid with
  | .ahx => some (.ahx s.ws, s.seq.src.drop s.seq.rp)
  | .a85 => some (.a85 s.ws s.a85.tilde, s.seq.src.drop s.seq.rp)
  | .lzw => some (.lzw (s.lzw.bp % 8) s.lzw.width s.lzw.next s.lzw.prev.isSome, s.seq.src.drop (s.lzw.bp / 8))
  | .rl => some (.rl, s.seq.src.drop s.seq.rp)
  | _ => none

/-- The running unit's finished test (R138). -/
def State.unitFinished (s : State) : Bool :=
  match s.seq.fid with
  | .ahx => ahxFinished s
  | .a85 => a85Finished s
  | .lzw => lzwFinished s
  | .rl => rlFinished s
  | _ => false

/-- The running unit's finish rule (R138); the LZW and RunLength units have none. -/
def State.unitFinish (s : State) : Except ErrKind State :=
  match s.seq.fid with
  | .ahx => ahxFinish s
  | .a85 => a85Finish s
  | _ => .ok s

/-- The stage-end step (R138): the finish rule, then the stage's output becomes the next input. -/
def stageEnd (s : State) : Answer :=
  match s.unitFinish with
  | .error k => raise k s.seq.fid s
  | .ok t => .next t.stageDone

/-- The engine's next move (R137 to R139, R301). -/
def engineAction (s : State) : Action :=
  match s.rep.status with
  | .busy =>
    match s.seq.phase with
    | .dispatch =>
      if s.seq.stage < s.seq.nStages then .instr (decodeName (s.name s.seq.stage))
      else if s.seq.stage = s.seq.nStages then .finish
      else .stuck .stageOutOfRange
    | .run =>
      match s.window with
      | none => .stuck .noActiveUnit
      | some (x, bs) =>
        if s.unitFinished then .stageEnd
        else
          match decode x bs with
          | .ok i => .instr i
          | .error _ => .stuck .srcOutOfRange
  | _ => .quiet

/-- A host write's move: a command or an operation select is an instruction (R90); a `CMD` value that is no command does
nothing (log entry 9). -/
def hostAction (w : HostWrite) : Action :=
  match w with
  | .cmd v =>
    match decodeCmd v with
    | .ok i => .instr i
    | .error _ => .quiet
  | .op v => .instr (decodeOp v)
  | .plen n => .store (.plen n)
  | .nameByte i j b => .store (.nameByte i j b)
  | .nameLen i n => .store (.nameLen i n)
  | .inByte a b => .store (.inByte a b)
  | .inLen n => .store (.inLen n)

/-- The next move: what the head of the agenda says, and the engine's once the agenda is empty (R340: "the engine is the
only agent that can step while BUSY" and is scheduled). -/
def nextAction (s : State) : Action :=
  match s.agenda with
  | [] => engineAction s
  | .engine :: _ => engineAction s
  | .write w :: _ => hostAction w
  | .read r :: _ => .load r
  | .reset :: _ => .reset

/-- The state in which a stream unit's bytes stand at the cursor of its freshly initialised unit. -/
def State.withUnit (s : State) (f : FilterId) (bs : Bytes) : State :=
  { s with
    rep := { s.rep with status := .busy }
    seq := { s.seq with nStages := s.seq.stage + 1, phase := .run, fid := f, src := bs, rp := 0 }
    agenda := .engine :: s.agenda }

/-- The state that fetches some bytes in a context next: the host's write at the head of the agenda, the name in the
register of the stage that is dispatched, or the bytes at the cursor of the unit, with what its class test looks at. -/
def State.withFetch (s : State) (x : Ctx) (bs : Bytes) : State :=
  match x with
  | .cmd => { s with agenda := .write (.cmd ((bs.getD 0 0#8).setWidth 1)) :: s.agenda }
  | .op => { s with agenda := .write (.op ((bs.getD 0 0#8).setWidth 1)) :: s.agenda }
  | .name =>
    { s with
      host := { s.host with
        names := Sparse.set NameReg.unwritten s.host.names s.seq.stage
          { len := bs.length, bytes := Memory.writeAll [] 0 bs } }
      rep := { s.rep with status := .busy }
      seq := { s.seq with nStages := s.seq.stage + 1, phase := .dispatch }
      agenda := .engine :: s.agenda }
  | .ahx _ => { s.withUnit .ahx bs with ahx := { s.ahx with eod := false } }
  | .a85 _ tilde => { s.withUnit .a85 bs with a85 := { s.a85 with tilde := tilde, eod := false } }
  | .lzw off w next prev =>
    { s.withUnit .lzw bs with
      lzw := { s.lzw with
        bp := off
        width := w
        next := next
        prev := if prev then s.lzw.prev else none
        eod := false } }
  | .rl => { s.withUnit .rl bs with rl := { eod := false } }

end Sys2Proof.Machine
end

