-- ==== Sys2Proof/Machine/Step.lean ====
section
/-! DEFINITION. One step of the machine, and how a table word is put where the next step fetches it. -/

namespace Sys2Proof.Machine

/-- One atomic step (R69, D28). -/
def step (s : State) : Host.Outcome State Fault Refusal :=
  match nextAction s with
  | .instr i => exec i s.popTurn
  | .stageEnd => stageEnd s.popTurn
  | .finish => .next s.popTurn.finished
  | .store w => .next (hostStore w s.popTurn)
  | .load r => .next (hostLoad r s.popTurn)
  | .reset => .next s.popTurn.resetInput
  | .quiet => .next s.popTurn
  | .stuck f => .fault f

/-- A table word stored where the next step fetches (log entry 10). -/
def State.withFetchWord (s : State) (nbits w : Nat) : State :=
  s.withFetch (tableWord nbits w).1 (tableWord nbits w).2

end Sys2Proof.Machine
end

