-- ==== Sys2Proof/Machine/Functions.lean ====
section
/-! DEFINITION. The block as functions of its operands, from the whole-buffer definitions of the spec: `decodeAll` (R131),
`decode` (R132), `AHX` (R160), `A85` (R180), `RL` (R250), `FLATE` (R270) and the decoding loop of `LZW` (R210). They share
no step with the machine; that the machine computes them is stated, not assumed. -/

namespace Sys2Proof.Machine

/-- Digits in pairs from the left, the first the high nibble; a last one alone fills the low nibble (R164, R165). -/
def hexPairs : Bytes → Bytes
  | [] => []
  | [d] => [hexPair 0#4 (hexval d)]
  | d1 :: d2 :: t => hexPair (hexval d1) (hexval d2) :: hexPairs t

/-- The bytes that are not whitespace, in order (R161, R181). -/
def stripWs (ws data : Bytes) : Bytes := data.filter fun c => !isWs ws c

/-- `AHX(data)` (R160). -/
def fnAhx (ws data : Bytes) : Except ErrKind Bytes :=
  let s := stripWs ws data
  if s.contains 0x3E#8 then
    (let t := s.takeWhile fun c => c != 0x3E#8
     if t.all isHexDigit then .ok (hexPairs t) else .error .invalidEncoding)
  else .error .invalidEncoding

/-- The data before the first `~>`, all of it if there is none (R182, R183). -/
def cutMarker : Bytes → Bytes
  | [] => []
  | [c] => [c]
  | c :: d :: t => if c = 0x7E#8 ∧ d = 0x3E#8 then [] else c :: cutMarker (d :: t)

/-- The loop of R180 over the data, from an accumulator, a position and the output so far. -/
def a85Loop : Bytes → BitVec 32 → Nat → Bytes → Except ErrKind Bytes
  | [], tuple, pos, out =>
    if pos = 1 then .error .invalidEncoding
    else if 2 ≤ pos then .ok (out ++ a85Tail tuple pos)
    else .ok out
  | c :: t, tuple, pos, out =>
    if c = 0x7A#8 then
      (if pos = 0 then a85Loop t tuple pos (out ++ [0#8, 0#8, 0#8, 0#8]) else .error .invalidEncoding)
    else if pos + 1 = 5 then a85Loop t 0#32 0 (out ++ a85Bytes (a85Add tuple pos c))
    else a85Loop t (a85Add tuple pos c) (pos + 1) out

/-- `A85(data)` (R180). -/
def fnA85 (ws data : Bytes) : Except ErrKind Bytes :=
  let t := cutMarker (stripWs ws data)
  if t.all fun c => isA85Digit c || c == 0x7A#8 then a85Loop t 0#32 0 [] else .error .invalidEncoding

/-- The loop of R250 at index `i`, with fuel for the control bytes. -/
def rlLoop (data : Bytes) : Nat → Nat → Bytes → Except ErrKind Bytes
  | 0, _, out => .ok out
  | fuel + 1, i, out =>
    match data[i]? with
    | none => .ok out
    | some c =>
      if c.toNat = 128 then .ok out
      else if c.toNat < 128 then
        (if i + 1 + c.toNat + 1 > data.length then .error .invalidEncoding
         else rlLoop data fuel (i + 1 + c.toNat + 1) (out ++ (data.drop (i + 1)).take (c.toNat + 1)))
      else
        (match data[i + 1]? with
         | none => .error .invalidEncoding
         | some b => rlLoop data fuel (i + 2) (out ++ List.replicate (257 - c.toNat) b))

/-- `RL(data)` (R250): each control byte is one byte of the data at least, so the length is fuel enough. -/
def fnRl (data : Bytes) : Except ErrKind Bytes := rlLoop data data.length 0 []

/-- The width schedule as a function of `L_NEXT` (R104). -/
def lzwWidthFor (next : Nat) : LzwWidth :=
  if next ≤ 510 then .w9 else if next ≤ 1022 then .w10 else if next ≤ 2046 then .w11 else .w12

/-- A code's sequence, given the learned ones in the order of their codes (R45). -/
def lzwEntry (learned : List Bytes) (c : Nat) : Bytes :=
  if c < 256 then [BitVec.ofNat 8 c] else learned.getD (c - Config.firstFree) []

/-- The learned sequences with one more, while there is a code for it (R218, R220). -/
def lzwLearn (learned : List Bytes) (e : Bytes) : List Bytes :=
  if Config.firstFree + learned.length < Config.dictSize then learned ++ [e] else learned

/-- The decoding loop (R211 to R220) over the bit cursor, the learned sequences, the previous sequence and the output so
far, with fuel for the codes. `L_NEXT` is 258 plus the number of learned sequences. -/
def lzwLoop (data : Bytes) : Nat → Nat → List Bytes → Option Bytes → Bytes → Bytes
  | 0, _, _, _, out => out
  | fuel + 1, bp, learned, prev, out =>
    let next := Config.firstFree + learned.length
    let w := (lzwWidthFor next).bits
    if 8 * data.length < bp + w then out
    else
      let code := readBits data bp w
      if code = Config.clearCode then lzwLoop data fuel (bp + w) [] none out
      else if code = Config.eodCode then out
      else
        match prev with
        | none =>
          if code < 256 then
            lzwLoop data fuel (bp + w) learned (some (lzwEntry learned code)) (out ++ lzwEntry learned code)
          else lzwLoop data fuel (bp + w) learned none out
        | some p =>
          let e := if code < next then lzwEntry learned code else p ++ p.take 1
          lzwLoop data fuel (bp + w) (lzwLearn learned (p ++ e.take 1)) (some e) (out ++ e)

/-- `LZW(data)` (R210): each code takes nine bits at least, so the number of bits is fuel enough. -/
def fnLzw (data : Bytes) : Bytes := lzwLoop data (8 * data.length) 0 [] none []

/-- `FLATE(data)` (R270). -/
def fnFlate (data : Bytes) : Except ErrKind Bytes :=
  match Config.inflate data with
  | some b => .ok b
  | none => .error .underlyingCodecError

/-- `decode(name, data)` (R132), under the parameter `WS`. -/
def fnDecode (ws name data : Bytes) : Except ErrKind Bytes :=
  match lookup name with
  | .identity => .ok data
  | .unknown => .error .unknownFilter
  | .ahx => fnAhx ws data
  | .a85 => fnA85 ws data
  | .lzw => .ok (fnLzw data)
  | .rl => fnRl data
  | .flate => fnFlate data
  | .ccf => .error .notImplemented
  | .jbig2 => .error .notImplemented
  | .dct => .error .notImplemented
  | .jpx => .error .notImplemented
  | .crypt => .error .notImplemented

/-- The fold of R131 from stage `i` on. -/
def fnDecodeFrom (ws : Bytes) : Nat → List Bytes → Bytes → Except (ErrKind × Nat) Bytes
  | _, [], cur => .ok cur
  | i, n :: ns, cur =>
    match fnDecode ws n cur with
    | .error k => .error (k, i)
    | .ok b => fnDecodeFrom ws (i + 1) ns b

/-- `decodeAll(names, data)` (R131). -/
def fnDecodeAll (ws : Bytes) (names : List Bytes) (data : Bytes) : Except (ErrKind × Nat) Bytes :=
  fnDecodeFrom ws 0 names data

/-- The names a run started in this state goes through (R28, R22). -/
def State.pipeline (s : State) : List Bytes :=
  (List.range (if s.host.op = 0#1 then 1 else s.host.plen)).map s.name

end Sys2Proof.Machine
end

