-- ==== Sys2Proof/Safety.lean ====
section
/-! DEFINITION. What counts as a safe state, and what is seen of a run: the terms the statements use. The invariant rules
out the register combinations no run reaches; from a state that meets it the machine never stops. -/

namespace Sys2Proof.Machine

/-- R222 with R40 and R44: the LZW unit's registers while it runs on an input of `len` bytes. -/
structure LzwRegs.Inv (z : LzwRegs) (len : Nat) : Prop where
  /-- (a) -/
  nextRange : 258 ≤ z.next ∧ z.next ≤ 4096
  /-- (b) -/
  widthOfNext : z.width = lzwWidthFor z.next
  /-- (c) -/
  noPrev : z.prev = none → z.next = 258
  /-- (d) -/
  prevDefined : ∀ c ∈ z.prev, c.toNat ≠ 256 ∧ c.toNat ≠ 257 ∧ c.toNat < z.next
  /-- (e): the learned codes below `L_NEXT` have an entry of 2 to `c - 256` bytes -/
  entries : ∀ c < z.next, 258 ≤ c →
    2 ≤ (Sparse.get [] z.dict c).length ∧ (Sparse.get [] z.dict c).length ≤ c - 256
  /-- (e): no other code has one -/
  noOthers : ∀ e ∈ z.dict, 258 ≤ e.1 ∧ e.1 < z.next
  dictWf : Sparse.wf [] z.dict
  /-- (f) -/
  cursor : z.bp ≤ 8 * len

/-- R36, U5: the ASCII85 registers while the unit runs: nothing is accumulated at position 0, and the end flag is set
only after a tilde. -/
structure A85Regs.Inv (a : A85Regs) : Prop where
  clearAtZero : a.pos = 0 → a.tuple = 0#32
  eodAfterTilde : a.eod = true → a.tilde = true

/-- The running unit is one of the four and its registers are as its rules leave them. -/
def State.unitInv (s : State) : Prop :=
  match s.seq.fid with
  | .ahx => s.seq.rp ≤ s.seq.src.length
  | .a85 => s.seq.rp ≤ s.seq.src.length ∧ s.a85.Inv
  | .rl => s.seq.rp ≤ s.seq.src.length
  | .lzw => s.lzw.Inv s.seq.src.length
  | _ => False

/-- The rows of R281: which kind of error a filter id can be recorded with. -/
def errorCause (k : ErrKind) (f : FilterId) : Bool :=
  match k with
  | .none => false
  | .unknownFilter => f = .unknown
  | .invalidEncoding => f = .ahx ∨ f = .a85 ∨ f = .rl
  | .notImplemented => f = .ccf ∨ f = .jbig2 ∨ f = .dct ∨ f = .jpx ∨ f = .crypt
  | .underlyingCodecError => f = .flate

/-- The invariant of the machine. -/
structure State.Inv (s : State) : Prop where
  /-- the buffers and the name registers are in canonical form -/
  inWf : s.host.inBuf.wf
  outWf : s.rep.out.wf
  namesWf : Sparse.wf NameReg.unwritten s.host.names
  nameBytesWf : ∀ e ∈ s.host.names, e.2.bytes.wf
  /-- R332: `OUT_LEN` is 0 except in `DONE` -/
  noOutput : s.rep.status ≠ .done → s.rep.outLen = 0
  /-- R332: the error registers are `NONE`, 0, 0 except in `ERROR` -/
  noError : s.rep.status ≠ .error → s.rep.errKind = .none ∧ s.rep.errStage = 0 ∧ s.rep.errFid = .identity
  /-- R281: in `ERROR` they hold a kind with an id that can raise it -/
  errorOf : s.rep.status = .error → errorCause s.rep.errKind s.rep.errFid = true
  /-- R29 -/
  stageRange : s.rep.status = .busy → s.seq.stage ≤ s.seq.nStages
  /-- R30, R31, R137: while a unit runs, `FID` is the id of the name of a stage of the run -/
  runStage : s.rep.status = .busy → s.seq.phase = .run →
    s.seq.stage < s.seq.nStages ∧ s.seq.fid = lookup (s.name s.seq.stage)
  /-- the running unit's registers -/
  runUnit : s.rep.status = .busy → s.seq.phase = .run → s.unitInv

/-- `k` steps of the machine, to the first stop. -/
abbrev runSteps (k : Nat) (s : State) : Answer := Host.Core.run Sys2Proof.core k s

/-- What a run leaves behind, which is all the host can see of it (R19). -/
structure Observation where
  status : Status
  output : Bytes
  errKind : ErrKind
  errStage : Nat
  errFid : FilterId
deriving DecidableEq, Repr

/-- The observation of a state (R19). -/
def State.observe (s : State) : Observation :=
  { status := s.rep.status, output := s.output, errKind := s.rep.errKind, errStage := s.rep.errStage,
    errFid := s.rep.errFid }

/-- The observation that belongs to a value of `decodeAll` for a list of names (R131, R19, R27). -/
def observationOf (names : List Bytes) (r : Except (ErrKind × Nat) Bytes) : Observation :=
  match r with
  | .ok b => { status := .done, output := b, errKind := .none, errStage := 0, errFid := .identity }
  | .error (k, i) => { status := .error, output := [], errKind := k, errStage := i, errFid := lookup (names.getD i []) }

/-- A run that starts in `s` ends in `t`: some number of steps leads from `s` to `t`, where the run is over (R19). -/
def EndsIn (s t : State) : Prop := ∃ k, runSteps k s = .next t ∧ t.rep.status ≠ .busy

/-- The engine is the one to move: the agenda is empty, or says so (R340). -/
def State.engineMoves (s : State) : Prop := s.agenda = [] ∨ s.agenda.head? = some .engine

/-- The unit `f` runs on the bytes `data` from its initial state (R53), and the engine is the only one to move. -/
def State.unitStart (s : State) (f : FilterId) (data : Bytes) : Prop :=
  s.rep.status = .busy ∧ s.agenda = [] ∧ s.seq.phase = .run ∧ s.seq.fid = f ∧ s.seq.src = data ∧ s.seq.dst = [] ∧
  match f with
  | .ahx => s.seq.rp = 0 ∧ s.ahx = { hi := none, eod := false }
  | .a85 => s.seq.rp = 0 ∧ s.a85 = { tuple := 0#32, pos := 0, tilde := false, eod := false }
  | .rl => s.seq.rp = 0 ∧ s.rl = { eod := false }
  | .lzw => s.lzw = { bp := 0, width := .w9, next := 258, prev := none, eod := false, dict := [] }
  | _ => False

/-- The stage ends with the value `r`: after some steps either the next stage's input is the value and the dispatcher
moves on by one stage, or the run is in error with the value's kind at this stage (R138, R290). -/
def StageYields (s : State) (r : Except ErrKind Bytes) : Prop :=
  ∃ k t, runSteps k s = .next t ∧ t.host = s.host ∧ t.ws = s.ws ∧
    match r with
    | .ok b => t.rep = s.rep ∧ t.seq.phase = .dispatch ∧ t.seq.stage = s.seq.stage + 1 ∧
        t.seq.nStages = s.seq.nStages ∧ t.seq.src = b
    | .error e => t.rep = { s.rep with status := .error, outLen := 0, errKind := e, errStage := s.seq.stage, errFid := s.seq.fid }

end Sys2Proof.Machine
end

