-- ==== Sys2Proof/WellFormed.lean ====
section
/-! DEFINITION. When an instruction is a possible reading of some bits in a context: it belongs to the context, and each
operand lies in its class as the tables of spec/30_encoding.md give the class. Written from those tables without the
decoder's own tests. -/

namespace Sys2Proof

/-- `c` is in the set `WS` whose members other than 0x20 are listed in `ws`. Whatever the list, the set meets the
constraint of R9 row P9: it contains 0x20 and no byte from 33 to 126. -/
def wsMember (ws : Bytes) (c : Byte) : Bool :=
  c = 0x20#8 ∨ (c ∈ ws ∧ ¬ (33 ≤ c.toNat ∧ c.toNat ≤ 126))

/-- The hexadecimal digits of R94. -/
def hexMember (c : Byte) : Bool :=
  (0x30 ≤ c.toNat ∧ c.toNat ≤ 0x39) ∨ (0x41 ≤ c.toNat ∧ c.toNat ≤ 0x46) ∨ (0x61 ≤ c.toNat ∧ c.toNat ≤ 0x66)

/-- The eleven names of R91, spelled as D00 spells them. -/
def recognisedNames : List (List Char) :=
  [[],
   ['A', 'S', 'C', 'I', 'I', 'H', 'e', 'x', 'D', 'e', 'c', 'o', 'd', 'e'],
   ['A', 'S', 'C', 'I', 'I', '8', '5', 'D', 'e', 'c', 'o', 'd', 'e'],
   ['L', 'Z', 'W', 'D', 'e', 'c', 'o', 'd', 'e'],
   ['F', 'l', 'a', 't', 'e', 'D', 'e', 'c', 'o', 'd', 'e'],
   ['R', 'u', 'n', 'L', 'e', 'n', 'g', 't', 'h', 'D', 'e', 'c', 'o', 'd', 'e'],
   ['C', 'C', 'I', 'T', 'T', 'F', 'a', 'x', 'D', 'e', 'c', 'o', 'd', 'e'],
   ['J', 'B', 'I', 'G', '2', 'D', 'e', 'c', 'o', 'd', 'e'],
   ['D', 'C', 'T', 'D', 'e', 'c', 'o', 'd', 'e'],
   ['J', 'P', 'X', 'D', 'e', 'c', 'o', 'd', 'e'],
   ['C', 'r', 'y', 'p', 't']]

/-- The bytes of an ASCII spelling (R10). -/
def asciiBytes (t : List Char) : Bytes := t.map fun ch => BitVec.ofNat 8 ch.toNat

/-- The number of bits of a code of each width (R101). -/
def codeBits : LzwWidth → Nat
  | .w9 => 9 | .w10 => 10 | .w11 => 11 | .w12 => 12

/-- A well-formed instruction of a context. -/
def Instr.wellFormed (x : Ctx) (i : Instr) : Bool :=
  match i with
  | .start => x = .cmd
  | .decode => x = .op
  | .decodeAll => x = .op
  | .nameIdentity => x = .name
  | .nameAhx => x = .name
  | .nameA85 => x = .name
  | .nameLzw => x = .name
  | .nameFlate => x = .name
  | .nameRl => x = .name
  | .nameStubCcf => x = .name
  | .nameStubJbig2 => x = .name
  | .nameStubDct => x = .name
  | .nameStubJpx => x = .name
  | .nameStubCrypt => x = .name
  | .nameUnknown n => x = .name ∧ n ∉ recognisedNames.map asciiBytes
  | .ahxWs c => match x with
    | .ahx ws => wsMember ws c
    | _ => false
  | .ahxEod => match x with
    | .ahx _ => true
    | _ => false
  | .ahxDigit c => match x with
    | .ahx _ => hexMember c
    | _ => false
  | .ahxInvalid c => match x with
    | .ahx ws => ¬ wsMember ws c ∧ c ≠ 0x3E#8 ∧ ¬ hexMember c
    | _ => false
  | .a85Ws c => match x with
    | .a85 ws _ => wsMember ws c
    | _ => false
  | .a85Eod => match x with
    | .a85 _ tilde => tilde
    | _ => false
  | .a85Tilde => match x with
    | .a85 _ tilde => !tilde
    | _ => false
  | .a85Z => match x with
    | .a85 _ tilde => !tilde
    | _ => false
  | .a85Digit c => match x with
    | .a85 _ tilde => !tilde ∧ 0x21 ≤ c.toNat ∧ c.toNat ≤ 0x75
    | _ => false
  | .a85Invalid c => match x with
    | .a85 ws tilde => ¬ wsMember ws c ∧
        (if tilde then c ≠ 0x3E#8
         else c.toNat ≤ 0x20 ∨ (0x76 ≤ c.toNat ∧ c.toNat ≤ 0x79) ∨ (0x7B ≤ c.toNat ∧ c.toNat ≤ 0x7D) ∨ 0x7F ≤ c.toNat)
    | _ => false
  | .lzwClear => match x with
    | .lzw _ _ _ _ => true
    | _ => false
  | .lzwEod => match x with
    | .lzw _ _ _ _ => true
    | _ => false
  | .lzwFirst _ => match x with
    | .lzw _ _ _ prev => !prev
    | _ => false
  | .lzwFirstUndef v => match x with
    | .lzw _ w _ prev => !prev ∧ 258 ≤ v.toNat ∧ v.toNat < 2 ^ codeBits w
    | _ => false
  | .lzwLit _ => match x with
    | .lzw _ _ _ prev => prev
    | _ => false
  | .lzwRef v => match x with
    | .lzw _ w next prev => prev ∧ 258 ≤ v.toNat ∧ v.toNat < next ∧ v.toNat < 2 ^ codeBits w
    | _ => false
  | .lzwKwkwk v => match x with
    | .lzw _ w next prev => prev ∧ 258 ≤ v.toNat ∧ v.toNat = next ∧ v.toNat < 2 ^ codeBits w
    | _ => false
  | .lzwBeyond v => match x with
    | .lzw _ w next prev => prev ∧ 258 ≤ v.toNat ∧ next < v.toNat ∧ v.toNat < 2 ^ codeBits w
    | _ => false
  | .rlLit _ => x = .rl
  | .rlEod => x = .rl
  | .rlRep n => x = .rl ∧ n ≠ 0#7

end Sys2Proof
end

