-- ==== Sys2Proof/Certificates/Slice0/Obligations.lean ====
section
/-! DEFINITION. The statements for the provers. Results are spelled out in the spec's own numbers and registers, not by the
model's helpers, wherever the rule gives them. -/

open Sys2Proof Sys2Proof.Machine

/-! ## Encodings -/

/-- R91, R94, R97, R102, R103, R106, R21: words written out from the tables decode to the instructions they stand for. -/
def Obligations.WordsOfTheTablesDecode : Prop :=
  decode .cmd [0b00000001#8] = .ok .start ∧
  decode .op [0b00000000#8] = .ok .decode ∧
  decode .op [0b00000001#8] = .ok .decodeAll ∧
  decode .name [] = .ok .nameIdentity ∧
  decode .name [0x4C#8, 0x5A#8, 0x57#8, 0x44#8, 0x65#8, 0x63#8, 0x6F#8, 0x64#8, 0x65#8] = .ok .nameLzw ∧
  decode .name [0x43#8, 0x72#8, 0x79#8, 0x70#8, 0x74#8] = .ok .nameStubCrypt ∧
  decode .name [0x4C#8, 0x5A#8, 0x57#8] = .ok (.nameUnknown [0x4C#8, 0x5A#8, 0x57#8]) ∧
  decode (.ahx Config.defaultWs) [0b00111110#8] = .ok .ahxEod ∧
  decode (.ahx Config.defaultWs) [0b01100110#8] = .ok (.ahxDigit 0x66#8) ∧
  decode (.a85 Config.defaultWs false) [0b00111110#8] = .ok (.a85Digit 0x3E#8) ∧
  decode (.a85 Config.defaultWs true) [0b00111110#8] = .ok .a85Eod ∧
  decode (.a85 Config.defaultWs false) [0b01111110#8] = .ok .a85Tilde ∧
  decode (.lzw 0 .w9 258 false) [0b10000000#8, 0b00001011#8] = .ok .lzwClear ∧
  decode (.lzw 1 .w9 258 false) [0b00001011#8, 0b01100000#8] = .ok (.lzwFirst 45#8) ∧
  decode (.lzw 2 .w9 258 true) [0b01100000#8, 0b01010000#8] = .ok (.lzwKwkwk 258#12) ∧
  decode (.lzw 0 .w10 511 true) [0b01000000#8, 0b01000000#8] = .ok .lzwEod ∧
  decode .rl [0b10000000#8] = .ok .rlEod ∧
  decode .rl [0b00010010#8] = .ok (.rlLit 18#7) ∧
  decode .rl [0b11110111#8] = .ok (.rlRep 119#7)

/-- The encoder and the decoder agree on every well-formed instruction of every context, every operand at every value. -/
def Obligations.DecodeOfEncodeIsTheInstruction : Prop :=
  ∀ (x : Ctx) (i : Instr), i.wellFormed x = true → decode x (encode x i) = .ok i

/-- Whatever bytes are read, the instruction decoded is well-formed: it lies in the class the tables give it. -/
def Obligations.DecodedInstructionsAreWellFormed : Prop :=
  ∀ (x : Ctx) (bs : Bytes) (i : Instr), decode x bs = .ok i → i.wellFormed x = true

/-- R94, R97, R106: in each of the three byte streams every byte is the encoding of exactly one well-formed instruction. -/
def Obligations.EveryStreamByteHasExactlyOneClass : Prop :=
  ∀ (ws : Bytes) (tilde : Bool) (c : Byte),
    (∃! i : Instr, i.wellFormed (.ahx ws) = true ∧ encode (.ahx ws) i = [c]) ∧
    (∃! i : Instr, i.wellFormed (.a85 ws tilde) = true ∧ encode (.a85 ws tilde) i = [c]) ∧
    (∃! i : Instr, i.wellFormed .rl = true ∧ encode .rl i = [c])

/-- R92, R136: a name matches a row exactly when it is the row's spelling byte for byte, and is unknown exactly when it
is no row's. -/
def Obligations.LookupMatchesWholeSpellingsOnly : Prop :=
  ∀ n : Bytes,
    (∀ p ∈ namedFilters.zip recognisedNames, lookup n = p.1 ↔ n = asciiBytes p.2) ∧
    (lookup n = .unknown ↔ n ∉ recognisedNames.map asciiBytes)

/-- R12: a field of `w` stream bits starting at stream bit `p` has the value of the sum, and stream bit `k` is bit
`7 - (k mod 8)` of byte `k div 8`. -/
def Obligations.BitFieldIsTheWeightedSumOfStreamBits : Prop :=
  ∀ (s : Bytes) (p w : Nat),
    readBits s p w =
      ((List.range w).map fun j =>
        (if (s.getD ((p + j) / 8) 0#8).getLsbD (7 - (p + j) % 8) then 1 else 0) * 2 ^ (w - 1 - j)).sum

/-! ## The step -/

/-- R137, R138, R135: a step runs the instruction decoded from the bytes it fetches: the name of the stage to dispatch,
the bytes at the cursor of the unit that is not finished, or what the host writes to `CMD` or `OP`. -/
def Obligations.StepRunsTheDecodedInstruction : Prop :=
  ∀ s : State,
    (s.engineMoves → s.rep.status = .busy → s.seq.phase = .dispatch → s.seq.stage < s.seq.nStages →
      ∀ i, decode .name (s.name s.seq.stage) = .ok i → step s = exec i { s with agenda := s.agenda.tail }) ∧
    (s.engineMoves → s.rep.status = .busy → s.seq.phase = .run → s.unitFinished = false →
      ∀ x bs i, s.window = some (x, bs) → decode x bs = .ok i → step s = exec i { s with agenda := s.agenda.tail }) ∧
    (∀ v rest i, s.agenda = .write (.cmd v) :: rest → decode .cmd [v.setWidth 8] = .ok i →
      step s = exec i { s with agenda := rest }) ∧
    (∀ v rest i, s.agenda = .write (.op v) :: rest → decode .op [v.setWidth 8] = .ok i →
      step s = exec i { s with agenda := rest })

/-- R139: the finishing step copies `SRC` to `OUT`, every other byte of which stays, and sets `DONE`; the error registers
and the host's stay. -/
def Obligations.FinishingStepDeliversTheResult : Prop :=
  ∀ s : State, s.Inv → s.engineMoves → s.rep.status = .busy → s.seq.phase = .dispatch → s.seq.stage = s.seq.nStages →
    ∃ t, step s = .next t ∧
      t.rep.status = .done ∧ t.rep.outLen = s.seq.src.length ∧
      (∀ a, a < s.seq.src.length → t.readByte .output a = s.readByte .src a) ∧
      (∀ a, s.seq.src.length ≤ a → t.readByte .output a = s.readByte .output a) ∧
      t.rep.errKind = s.rep.errKind ∧ t.rep.errStage = s.rep.errStage ∧ t.rep.errFid = s.rep.errFid ∧
      t.host = s.host

/-- R301: in `IDLE`, `DONE` and `ERROR` the engine takes no step and every register keeps its value. -/
def Obligations.QuiescentEngineTakesNoStep : Prop :=
  ∀ s : State, s.engineMoves → s.rep.status ≠ .busy → step s = .next { s with agenda := s.agenda.tail }

/-- R330, R331: every host write while `BUSY`, `START` included, is ignored. -/
def Obligations.HostWritesWhileBusyAreIgnored : Prop :=
  ∀ (s : State) (w : HostWrite) (rest : List Turn), s.rep.status = .busy → s.agenda = .write w :: rest →
    step s = .next { s with agenda := rest }

/-- R323, R22, R23: a host write outside `BUSY` other than `START` reaches its own register, and the other registers of
the host, every other byte of `IN` and of `NAME[]`, the engine's report and the working state keep their values. That a
write is one register or one byte, and its turn a step of its own, is the model's choice, log entry 8. -/
def Obligations.HostWritesReachTheirRegisterOnly : Prop :=
  ∀ (s : State) (w : HostWrite) (rest : List Turn), s.Inv → s.rep.status ≠ .busy → s.agenda = .write w :: rest →
    (∀ v, w ≠ .cmd v) →
    ∃ t, step s = .next t ∧ t = { s with host := t.host, agenda := rest } ∧
      t.host.op = (match w with | .op v => v | _ => s.host.op) ∧
      t.host.plen = (match w with | .plen n => n | _ => s.host.plen) ∧
      t.host.inLen = (match w with | .inLen n => n | _ => s.host.inLen) ∧
      (∀ a, t.readByte .input a = (match w with
        | .inByte a' b => if a = a' then some b else s.readByte .input a
        | _ => s.readByte .input a)) ∧
      (∀ i j, t.readByte (.name i) j = (match w with
        | .nameByte i' j' b => if i = i' ∧ j = j' then some b else s.readByte (.name i) j
        | _ => s.readByte (.name i) j)) ∧
      (∀ i, (t.nameReg i).len = (match w with
        | .nameLen i' n => if i = i' then n else (s.nameReg i).len
        | _ => (s.nameReg i).len))

/-- R21 to R27, R31, R332, R139, R70: what the host reads where the spec gives the value, in the spec's numbers: `CMD`
and `STATUS` always; `OUT_LEN` and `OUT` in `DONE`, which right after the finishing step are the length and the bytes of
`SRC`, and `OUT_LEN` outside `DONE`; the error registers in `ERROR`, where the kind is never `NONE`, and outside it; the
host's own registers and buffers outside `BUSY`. A read changes no register (`draws`, the count of the free values, is the
model's own, log entry 7). -/
def Obligations.HostReadsGiveTheReportAndChangeNothing : Prop :=
  ∀ s : State, s.Inv →
    hostRead .cmd s = 0 ∧
    hostRead .status s = (match s.rep.status with | .idle => 0 | .busy => 1 | .done => 2 | .error => 3) ∧
    (s.rep.status ≠ .done → hostRead .outLen s = 0) ∧
    (s.rep.status = .done → hostRead .outLen s = s.rep.outLen ∧
      ∀ a, a < s.rep.outLen →
        s.readByte .output a = some (BitVec.ofNat 8 (hostRead (.outByte a) s)) ∧ hostRead (.outByte a) s < 256) ∧
    (s.engineMoves → s.rep.status = .busy → s.seq.phase = .dispatch → s.seq.stage = s.seq.nStages →
      ∃ t, step s = .next t ∧ hostRead .status t = 2 ∧ hostRead .outLen t = s.seq.src.length ∧
        ∀ a, a < s.seq.src.length →
          s.readByte .src a = some (BitVec.ofNat 8 (hostRead (.outByte a) t)) ∧ hostRead (.outByte a) t < 256) ∧
    (s.rep.status ≠ .error → hostRead .errKind s = 0 ∧ hostRead .errStage s = 0 ∧ hostRead .errFid s = 0) ∧
    (s.rep.status = .error →
      hostRead .errKind s = (match s.rep.errKind with
        | .none => 0 | .unknownFilter => 1 | .invalidEncoding => 2 | .notImplemented => 3 | .underlyingCodecError => 4) ∧
      hostRead .errKind s ≠ 0 ∧
      hostRead .errStage s = s.rep.errStage ∧
      hostRead .errFid s = (match s.rep.errFid with
        | .identity => 0 | .ahx => 1 | .a85 => 2 | .lzw => 3 | .flate => 4 | .rl => 5
        | .ccf => 6 | .jbig2 => 7 | .dct => 8 | .jpx => 9 | .crypt => 10 | .unknown => 15)) ∧
    (s.rep.status ≠ .busy →
      hostRead .op s = (if s.host.op = 1#1 then 1 else 0) ∧
      hostRead .plen s = s.host.plen ∧
      hostRead .inLen s = s.host.inLen ∧
      (∀ i, hostRead (.nameLen i) s = (s.nameReg i).len) ∧
      (∀ i j, s.readByte (.name i) j = some (BitVec.ofNat 8 (hostRead (.nameByte i j) s)) ∧
        hostRead (.nameByte i j) s < 256) ∧
      (∀ a, s.readByte .input a = some (BitVec.ofNat 8 (hostRead (.inByte a) s)) ∧ hostRead (.inByte a) s < 256)) ∧
    (∀ r rest, s.agenda = .read r :: rest →
      ∃ t, step s = .next t ∧ t = { s with agenda := rest, draws := t.draws })

/-- R320, R54, R321: what the spec says of the state after reset holds of `State.reset` and of the state the reset input
leaves, whatever the state before it, a run in progress included; from there the engine takes no step. -/
def Obligations.ResetLeavesTheSpecsValues : Prop :=
  (∀ s : State, ∀ rest, s = State.reset ∨ (∃ u : State, u.agenda = .reset :: rest ∧ step u = .next s) →
    s.rep.status = .idle ∧ s.host.op = 0#1 ∧ s.host.plen = 0 ∧ s.host.inLen = 0 ∧ s.rep.outLen = 0 ∧
    s.rep.errKind = .none ∧ s.rep.errStage = 0 ∧ s.rep.errFid.code = 0 ∧
    (∀ c, c < 256 → s.lzw.entry c = [BitVec.ofNat 8 c]) ∧
    (s.engineMoves → step s = .next { s with agenda := s.agenda.tail })) ∧
  (∀ u : State, ∀ rest, u.agenda = .reset :: rest → ∃ s, step u = .next s)

/-- The state after reset meets the invariant. -/
def Obligations.ResetMeetsTheInvariant : Prop := State.reset.Inv

/-- Every step keeps the invariant: canonical buffers, the report's rules (R332, R281), the stage counter's range (R29),
the running unit's own invariants (R34, R36, R222). -/
def Obligations.StepKeepsTheInvariant : Prop :=
  ∀ s t : State, s.Inv → step s = .next t → t.Inv

/-- R15: there is no other kind of failure: from a state that meets the invariant no step is a fault or a refusal. -/
def Obligations.StepNeverStops : Prop :=
  ∀ s : State, s.Inv → ∃ t, step s = .next t

/-! ## The host's commands -/

/-- R135, R331: `START` begins a run from the operands the host has written, whatever the last run left, and does
nothing while `BUSY`. The operands, the bytes of `OUT`, of `DST` and of every buffer but `SRC`, and the units' registers
keep their values. -/
def Obligations.StartBeginsARun : Prop :=
  ∀ s : State,
    (s.rep.status ≠ .busy → ∃ t, exec .start s = .next t ∧
      t.rep.status = .busy ∧ t.seq.nStages = (if s.host.op = 0#1 then 1 else s.host.plen) ∧
      t.seq.stage = 0 ∧ t.seq.phase = .dispatch ∧
      t.seq.src.length = s.host.inLen ∧ (∀ a, a < s.host.inLen → t.readByte .src a = s.readByte .input a) ∧
      t.rep.outLen = 0 ∧ t.rep.errKind = .none ∧ t.rep.errStage = 0 ∧ t.rep.errFid.code = 0 ∧
      t = { s with seq := t.seq, rep := t.rep } ∧ t.seq.fid = s.seq.fid ∧ t.seq.rp = s.seq.rp ∧
      ∀ sp a, sp ≠ .src → t.readByte sp a = s.readByte sp a) ∧
    (s.rep.status = .busy → exec .start s = .next s)

/-- R90, R21, R330: `DECODE` and `DECODE_ALL` write their bit to `OP` outside `BUSY` and nothing while `BUSY`; no other
register and no byte of memory changes. -/
def Obligations.OperationSelectWritesOp : Prop :=
  ∀ s : State,
    (s.rep.status ≠ .busy →
      exec .decode s = .next { s with host := { s.host with op := 0#1 } } ∧
      exec .decodeAll s = .next { s with host := { s.host with op := 1#1 } }) ∧
    (s.rep.status = .busy → exec .decode s = .next s ∧ exec .decodeAll s = .next s)

/-! ## The names -/

/-- R134, R137: the empty name moves on by one stage and leaves everything else, `SRC` and `PHASE` too. -/
def Obligations.IdentityStageOnlyAdvances : Prop :=
  ∀ s : State, exec .nameIdentity s =
    .next { s with seq := { s.seq with fid := .identity, stage := s.seq.stage + 1 } }

/-- R137, R53: a unit's name initialises that unit afresh and starts it; every other register keeps its value. -/
def Obligations.UnitNamesInitialiseTheirUnit : Prop :=
  ∀ s : State,
    (exec .nameAhx s = .next { s with
      seq := { s.seq with fid := .ahx, rp := 0, dst := [], phase := .run }
      ahx := { hi := none, eod := false } }) ∧
    (exec .nameA85 s = .next { s with
      seq := { s.seq with fid := .a85, rp := 0, dst := [], phase := .run }
      a85 := { tuple := 0#32, pos := 0, tilde := false, eod := false } }) ∧
    (exec .nameRl s = .next { s with
      seq := { s.seq with fid := .rl, rp := 0, dst := [], phase := .run }
      rl := { eod := false } }) ∧
    (∃ t, exec .nameLzw s = .next t ∧ t = { s with seq := t.seq, lzw := t.lzw } ∧
      t.seq = { s.seq with fid := .lzw, rp := 0, dst := [], phase := .run } ∧
      t.lzw.bp = 0 ∧ t.lzw.width.bits = 9 ∧ t.lzw.next = 258 ∧ t.lzw.prev = none ∧ t.lzw.eod = false ∧
      (∀ c, c < 256 → t.lzw.entry c = [BitVec.ofNat 8 c]) ∧ (∀ c, 256 ≤ c → t.lzw.entry c = []))

/-- R270, R137: `FlateDecode` gives the whole of `SRC` to `INFLATE` and is over in one step: an answer replaces `SRC` and
the stage is done; `Fail` raises UnderlyingCodecError with filter id 4. For every function `INFLATE`. -/
def Obligations.FlatePassesTheWholeInputToInflate : Prop :=
  ∀ s : State, ∃ t, exec .nameFlate s = .next t ∧
    match Config.inflate s.seq.src with
    | some b => t = { s with seq := { s.seq with fid := .flate, src := b, stage := s.seq.stage + 1 } }
    | none => t.rep.status = .error ∧ t.rep.errKind.code = 4 ∧ t.rep.errStage = s.seq.stage ∧ t.rep.errFid.code = 4 ∧
        t.rep.outLen = 0 ∧ t.host = s.host

/-- R272: the five stub names raise NotImplemented whatever the input, naming the filter by its id 6 to 10. -/
def Obligations.StubNamesRaiseNotImplemented : Prop :=
  ∀ s : State, ∀ p ∈ [(Instr.nameStubCcf, 6), (.nameStubJbig2, 7), (.nameStubDct, 8), (.nameStubJpx, 9), (.nameStubCrypt, 10)],
    ∃ t, exec p.1 s = .next t ∧ t.rep.status = .error ∧ t.rep.errKind.code = 3 ∧ t.rep.errStage = s.seq.stage ∧
      t.rep.errFid.code = p.2 ∧ t.rep.outLen = 0 ∧ t.host = s.host

/-- R282: a name that is not recognised raises UnknownFilter whatever the data, with filter id 15, and the offending name
is still `NAME[ERR_STAGE]`. -/
def Obligations.UnrecognisedNamesRaiseUnknownFilter : Prop :=
  ∀ s : State, s.name s.seq.stage ∉ recognisedNames.map asciiBytes →
    decode .name (s.name s.seq.stage) = .ok (.nameUnknown (s.name s.seq.stage)) ∧
    ∃ t, exec (.nameUnknown (s.name s.seq.stage)) s = .next t ∧
      t.rep.status = .error ∧ t.rep.errKind.code = 1 ∧ t.rep.errStage = s.seq.stage ∧ t.rep.errFid.code = 15 ∧
      t.rep.outLen = 0 ∧ t.host = s.host ∧ t.name t.rep.errStage = s.name s.seq.stage

/-- The frame of the names: no host register, no byte of `IN`, `OUT` or a name changes; unless the step raises, neither
does the report, `NSTAGES`, nor any unit's register but the unit's that is started, and `SRC` changes only by the inflate
port's answer. (After a raise the spec makes the working state unspecified, R290.) -/
def Obligations.NamesFrame : Prop :=
  ∀ (s t : State) (i : Instr), i.wellFormed .name = true → exec i s = .next t →
    t.host = s.host ∧ t.ws = s.ws ∧ t.agenda = s.agenda ∧ t.draws = s.draws ∧
    (∀ sp a, sp ≠ .src → sp ≠ .dst → t.readByte sp a = s.readByte sp a) ∧
    (t.rep.status ≠ .error →
      t.rep = s.rep ∧ t.seq.nStages = s.seq.nStages ∧
      (i ≠ .nameAhx → t.ahx = s.ahx) ∧ (i ≠ .nameA85 → t.a85 = s.a85) ∧ (i ≠ .nameRl → t.rl = s.rl) ∧
      (i ≠ .nameLzw → t.lzw = s.lzw) ∧
      (i ≠ .nameFlate → ∀ a, t.readByte .src a = s.readByte .src a))

/-- R290, R281: a step that leaves a run in error records a kind, the stage and an id that can raise the kind, hides all
output, and leaves the host's registers as they were. -/
def Obligations.AbortRecordsKindStageAndId : Prop :=
  ∀ s t : State, s.Inv → s.rep.status = .busy → step s = .next t → t.rep.status = .error →
    errorCause t.rep.errKind t.rep.errFid = true ∧ t.rep.errStage = s.seq.stage ∧
    t.rep.errFid = lookup (s.name s.seq.stage) ∧ t.rep.outLen = 0 ∧ t.host = s.host

/-! ## ASCIIHex -/

/-- R167, R168: whitespace and the terminator move `RP`; the terminator sets `HX_EOD`, which finishes the unit; nothing else
changes. -/
def Obligations.AhxWhitespaceAndTerminator : Prop :=
  ∀ (s : State) (c : Byte),
    exec (.ahxWs c) s = .next { s with seq := { s.seq with rp := s.seq.rp + 1 } } ∧
    exec .ahxEod s = .next { s with
      seq := { s.seq with rp := s.seq.rp + 1 }
      ahx := { s.ahx with eod := true } } ∧
    (s.seq.fid = .ahx → ∀ t, exec .ahxEod s = .next t → t.unitFinished = true)

/-- R169, R95: a digit is held if none is (`HX_HAVE = 0`), else it completes the byte `16 * HX_HI + hexval(c)`. -/
def Obligations.AhxDigitsPairHighNibbleFirst : Prop :=
  ∀ (s : State) (c : Byte) (v : Nat),
    (0x30 ≤ c.toNat ∧ c.toNat ≤ 0x39 ∧ v = c.toNat - 0x30) ∨
    (0x41 ≤ c.toNat ∧ c.toNat ≤ 0x46 ∧ v = c.toNat - 0x37) ∨
    (0x61 ≤ c.toNat ∧ c.toNat ≤ 0x66 ∧ v = c.toNat - 0x57) →
    (s.ahx.hi = none → exec (.ahxDigit c) s = .next { s with
      seq := { s.seq with rp := s.seq.rp + 1 }
      ahx := { s.ahx with hi := some (BitVec.ofNat 4 v) } }) ∧
    (∀ h, s.ahx.hi = some h → exec (.ahxDigit c) s = .next { s with
      seq := { s.seq with rp := s.seq.rp + 1, dst := s.seq.dst ++ [BitVec.ofNat 8 (16 * h.toNat + v)] }
      ahx := { s.ahx with hi := none } })

/-- R170, R197, R194: an invalid byte of an ASCIIHex or ASCII85 stream raises InvalidEncoding at this stage. -/
def Obligations.InvalidBytesRaiseInvalidEncoding : Prop :=
  ∀ (s : State) (c : Byte), ∀ i ∈ [Instr.ahxInvalid c, Instr.a85Invalid c],
    ∃ t, exec i s = .next t ∧ t.rep.status = .error ∧ t.rep.errKind.code = 2 ∧ t.rep.errStage = s.seq.stage ∧
      t.rep.errFid = s.seq.fid ∧ t.rep.outLen = 0 ∧ t.host = s.host

/-- R171, R165: the ASCIIHex unit's stage end: no terminator raises; an unpaired last digit is a byte with high nibble 0;
then the output is the next input. -/
def Obligations.AhxStageEnd : Prop :=
  ∀ s : State, s.agenda = [] → s.rep.status = .busy → s.seq.phase = .run → s.seq.fid = .ahx →
    (s.ahx.eod = false → s.seq.rp = s.seq.src.length → ∃ t, step s = .next t ∧ t.host = s.host ∧
      t.rep = { s.rep with status := .error, outLen := 0, errKind := .invalidEncoding, errStage := s.seq.stage, errFid := .ahx }) ∧
    (s.ahx.eod = true → ∃ t, step s = .next t ∧ t.rep = s.rep ∧ t.host = s.host ∧
      t.seq.src = s.seq.dst ++ (match s.ahx.hi with | some h => [BitVec.ofNat 8 h.toNat] | none => []) ∧
      t.seq.stage = s.seq.stage + 1 ∧ t.seq.phase = .dispatch ∧ t.seq.nStages = s.seq.nStages)

/-- R172: the one-pass machine computes the whole-buffer function `AHX` of R160, for every whitespace set. -/
def Obligations.AsciiHexUnitComputesAHX : Prop :=
  ∀ (s : State) (data : Bytes), s.unitStart .ahx data → StageYields s (fnAhx s.ws data)

/-! ## ASCII85 -/

/-- R192, R193, R194: whitespace, a tilde, and the `>` after it, which finishes the unit. -/
def Obligations.A85WhitespaceTildeAndEnd : Prop :=
  ∀ (s : State) (c : Byte),
    exec (.a85Ws c) s = .next { s with seq := { s.seq with rp := s.seq.rp + 1 } } ∧
    exec .a85Tilde s = .next { s with
      seq := { s.seq with rp := s.seq.rp + 1 }
      a85 := { s.a85 with tilde := true } } ∧
    exec .a85Eod s = .next { s with
      seq := { s.seq with rp := s.seq.rp + 1 }
      a85 := { s.a85 with eod := true } } ∧
    (s.seq.fid = .a85 → ∀ t, exec .a85Eod s = .next t → t.unitFinished = true)

/-- R196, R187: `z` emits four zero bytes at position 0 and raises at positions 1 to 4. -/
def Obligations.A85ZStandsForFourZeros : Prop :=
  ∀ s : State,
    (s.a85.pos = 0 → exec .a85Z s = .next { s with
      seq := { s.seq with rp := s.seq.rp + 1, dst := s.seq.dst ++ [0#8, 0#8, 0#8, 0#8] } }) ∧
    (s.a85.pos ≠ 0 → ∃ t, exec .a85Z s = .next t ∧ t.rep.status = .error ∧ t.rep.errKind.code = 2 ∧
      t.rep.errStage = s.seq.stage ∧ t.rep.errFid = s.seq.fid ∧ t.rep.outLen = 0 ∧ t.host = s.host)

/-- R195, R186: a digit adds `(c - 33) * 85^(4 - A_POS)` modulo 2^32; the fifth emits the four bytes and clears the
group. -/
def Obligations.A85DigitAccumulates : Prop :=
  ∀ (s : State) (c : Byte), 33 ≤ c.toNat → c.toNat ≤ 117 →
    ∀ t : Nat, t = (s.a85.tuple.toNat + (c.toNat - 33) * 85 ^ (4 - s.a85.pos.val)) % 2 ^ 32 →
    (s.a85.pos.val < 4 → ∃ u, exec (.a85Digit c) s = .next u ∧
      u = { s with seq := { s.seq with rp := s.seq.rp + 1 }, a85 := u.a85 } ∧
      u.a85.tuple.toNat = t ∧ u.a85.pos.val = s.a85.pos.val + 1 ∧ u.a85.tilde = s.a85.tilde ∧ u.a85.eod = s.a85.eod) ∧
    (s.a85.pos.val = 4 → exec (.a85Digit c) s = .next { s with
      seq := { s.seq with
        rp := s.seq.rp + 1
        dst := s.seq.dst ++ [BitVec.ofNat 8 (t / 2 ^ 24), BitVec.ofNat 8 (t / 2 ^ 16), BitVec.ofNat 8 (t / 2 ^ 8), BitVec.ofNat 8 t] }
      a85 := { s.a85 with tuple := 0#32, pos := 0 } })

/-- R99, R98, R61: five digits from the start of a group emit, high byte first, the group's value modulo 2^32, the first
digit the most significant. -/
def Obligations.A85GroupIsBase85BigEndian : Prop :=
  ∀ (s : State) (d0 d1 d2 d3 d4 : Byte), s.a85.pos = 0 → s.a85.tuple = 0#32 →
    (∀ d ∈ [d0, d1, d2, d3, d4], 33 ≤ d.toNat ∧ d.toNat ≤ 117) →
    ∃ s1 s2 s3 s4 s5,
      exec (.a85Digit d0) s = .next s1 ∧ exec (.a85Digit d1) s1 = .next s2 ∧ exec (.a85Digit d2) s2 = .next s3 ∧
      exec (.a85Digit d3) s3 = .next s4 ∧ exec (.a85Digit d4) s4 = .next s5 ∧
      s5.a85.pos = 0 ∧ s5.a85.tuple = 0#32 ∧
      ∃ b0 b1 b2 b3 : Byte, s5.seq.dst = s.seq.dst ++ [b0, b1, b2, b3] ∧
        b0.toNat * 2 ^ 24 + b1.toNat * 2 ^ 16 + b2.toNat * 2 ^ 8 + b3.toNat =
          ((d0.toNat - 33) * 85 ^ 4 + (d1.toNat - 33) * 85 ^ 3 + (d2.toNat - 33) * 85 ^ 2 + (d3.toNat - 33) * 85 +
            (d4.toNat - 33)) % 2 ^ 32

/-- R198, R189, R190: the ASCII85 unit's stage end. -/
def Obligations.A85StageEnd : Prop :=
  ∀ s : State, s.agenda = [] → s.rep.status = .busy → s.seq.phase = .run → s.seq.fid = .a85 →
    (s.a85.eod = true ∨ s.seq.rp = s.seq.src.length) →
    ((s.a85.tilde = true ∧ s.a85.eod = false) ∨ s.a85.pos = 1 → ∃ t, step s = .next t ∧ t.host = s.host ∧
      t.rep = { s.rep with status := .error, outLen := 0, errKind := .invalidEncoding, errStage := s.seq.stage, errFid := .a85 }) ∧
    (¬ (s.a85.tilde = true ∧ s.a85.eod = false) → s.a85.pos ≠ 1 →
      ∃ t, step s = .next t ∧ t.rep = s.rep ∧ t.host = s.host ∧
        t.seq.stage = s.seq.stage + 1 ∧ t.seq.phase = .dispatch ∧ t.seq.nStages = s.seq.nStages ∧
        ∀ v : Nat, v = (s.a85.tuple.toNat + 85 ^ (5 - s.a85.pos.val)) % 2 ^ 32 →
          t.seq.src = s.seq.dst ++
            ([BitVec.ofNat 8 (v / 2 ^ 24), BitVec.ofNat 8 (v / 2 ^ 16), BitVec.ofNat 8 (v / 2 ^ 8)].take (s.a85.pos.val - 1)))

/-- R199: the one-pass machine computes the whole-buffer function `A85` of R180, for every whitespace set. -/
def Obligations.Ascii85UnitComputesA85 : Prop :=
  ∀ (s : State) (data : Bytes), s.unitStart .a85 data → StageYields s (fnA85 s.ws data)

/-! ## LZW -/

/-- R214, R215, R211: a clear-table code forgets every learned entry and returns the width to 9, the code itself read at
the old width; code 257 only sets `L_EOD`, which finishes the unit. -/
def Obligations.LzwControlCodes : Prop :=
  ∀ s : State,
    (∃ t, exec .lzwClear s = .next t ∧ t = { s with lzw := t.lzw } ∧
      t.lzw.bp = s.lzw.bp + s.lzw.width.bits ∧ t.lzw.width.bits = 9 ∧ t.lzw.next = 258 ∧ t.lzw.prev = none ∧
      t.lzw.eod = s.lzw.eod ∧ (∀ c, 256 ≤ c → t.lzw.entry c = [])) ∧
    exec .lzwEod s = .next { s with lzw := { s.lzw with bp := s.lzw.bp + s.lzw.width.bits, eod := true } } ∧
    (s.seq.fid = .lzw → ∀ t, exec .lzwEod s = .next t → t.unitFinished = true)

/-- R213, R219: a first code that is a literal is emitted and remembered, one that is not is ignored; neither appends. -/
def Obligations.LzwFirstCodes : Prop :=
  ∀ (s : State) (b : Byte) (v : Code),
    exec (.lzwFirst b) s = .next { s with
      seq := { s.seq with dst := s.seq.dst ++ [b] }
      lzw := { s.lzw with bp := s.lzw.bp + s.lzw.width.bits, prev := some (BitVec.ofNat 12 b.toNat) } } ∧
    exec (.lzwFirstUndef v) s = .next { s with lzw := { s.lzw with bp := s.lzw.bp + s.lzw.width.bits } }

/-- R216, R218, R220: a known code (LZW.LIT and LZW.REF) emits its entry and becomes the previous code; while the
dictionary is not full, the previous entry with the first byte of this one is appended at `L_NEXT`, every other entry
staying, and the width changes at 511, 1023 and 2047 only; a full dictionary stays as it is. -/
def Obligations.LzwKnownCodesEmitAndLearn : Prop :=
  ∀ (s : State) (i : Instr) (code p : Code) (b : Byte) (e : Bytes),
    (∃ l : Byte, i = .lzwLit l ∧ code.toNat = l.toNat) ∨ i = .lzwRef code →
    s.lzw.prev = some p → s.lzw.entry code.toNat = b :: e → s.lzw.entry p.toNat ≠ [] →
    Sparse.wf [] s.lzw.dict → 258 ≤ s.lzw.next →
    ∃ t, exec i s = .next t ∧ t = { s with seq := { s.seq with dst := s.seq.dst ++ b :: e }, lzw := t.lzw } ∧
      t.lzw.prev = some code ∧ t.lzw.bp = s.lzw.bp + s.lzw.width.bits ∧ t.lzw.eod = s.lzw.eod ∧
      (s.lzw.next < 4096 →
        t.lzw.next = s.lzw.next + 1 ∧ t.lzw.entry s.lzw.next = s.lzw.entry p.toNat ++ [b] ∧
        (∀ c, c < s.lzw.next → t.lzw.entry c = s.lzw.entry c) ∧
        t.lzw.width.bits = (if s.lzw.next + 1 = 511 then 10 else if s.lzw.next + 1 = 1023 then 11
          else if s.lzw.next + 1 = 2047 then 12 else s.lzw.width.bits)) ∧
      (4096 ≤ s.lzw.next →
        t.lzw.next = s.lzw.next ∧ t.lzw.width = s.lzw.width ∧ ∀ c, t.lzw.entry c = s.lzw.entry c)

/-- R217, R218: a code that is not yet defined (LZW.KWKWK and LZW.BEYOND) emits the previous entry with its own first
byte, appends it at `L_NEXT`, not at the code's own value, and `L_PREV` becomes the code of the new entry. -/
def Obligations.LzwUndefinedCodesExtendThePreviousEntry : Prop :=
  ∀ (s : State) (i : Instr) (v p : Code) (b : Byte) (e : Bytes),
    i = .lzwKwkwk v ∨ i = .lzwBeyond v →
    s.lzw.prev = some p → s.lzw.entry p.toNat = b :: e → s.lzw.next ≤ v.toNat →
    Sparse.wf [] s.lzw.dict → 258 ≤ s.lzw.next →
    ∃ t, exec i s = .next t ∧ t = { s with seq := { s.seq with dst := s.seq.dst ++ (b :: e ++ [b]) }, lzw := t.lzw } ∧
      t.lzw.bp = s.lzw.bp + s.lzw.width.bits ∧ t.lzw.eod = s.lzw.eod ∧
      t.lzw.next = s.lzw.next + 1 ∧ (∃ c : Code, t.lzw.prev = some c ∧ c.toNat = s.lzw.next) ∧
      t.lzw.entry s.lzw.next = b :: e ++ [b] ∧
      (∀ c, c < s.lzw.next → t.lzw.entry c = s.lzw.entry c) ∧
      t.lzw.width.bits = (if s.lzw.next + 1 = 511 then 10 else if s.lzw.next + 1 = 1023 then 11
          else if s.lzw.next + 1 = 2047 then 12 else s.lzw.width.bits)

/-- R222: the LZW invariants hold of the unit as it is initialised and after every step of it, and `BP` and `DST` only
grow. -/
def Obligations.LzwStepKeepsItsInvariants : Prop :=
  (∀ s t : State, exec .nameLzw s = .next t → t.lzw.Inv t.seq.src.length) ∧
  (∀ (s t : State) (i : Instr),
    s.seq.fid = .lzw → s.lzw.Inv s.seq.src.length → s.unitFinished = false →
    (∀ x bs, s.window = some (x, bs) → decode x bs = .ok i) → exec i s = .next t →
    t.lzw.Inv t.seq.src.length ∧ s.lzw.bp < t.lzw.bp ∧ s.seq.dst <+: t.seq.dst)

/-- R223: how `L_NEXT` grows: by one for every known code while the dictionary is not full and for every undefined code;
not for a first code, for 257 or when full; a clear-table code sets it to 258. -/
def Obligations.LzwDictionaryGrowth : Prop :=
  ∀ (s t : State) (x : Ctx) (i : Instr),
    s.lzw.Inv s.seq.src.length → x = .lzw (s.lzw.bp % 8) s.lzw.width s.lzw.next s.lzw.prev.isSome →
    i.wellFormed x = true → exec i s = .next t →
    t.lzw.next =
      (match i with
       | .lzwClear => 258
       | .lzwLit _ => if s.lzw.next < 4096 then s.lzw.next + 1 else s.lzw.next
       | .lzwRef _ => if s.lzw.next < 4096 then s.lzw.next + 1 else s.lzw.next
       | .lzwKwkwk _ => s.lzw.next + 1
       | .lzwBeyond _ => s.lzw.next + 1
       | _ => s.lzw.next)

/-- R224, R286: a step of the LZW unit never raises, on any bytes. -/
def Obligations.LzwUnitNeverRaises : Prop :=
  ∀ s : State, s.Inv → s.engineMoves → s.rep.status = .busy → s.seq.phase = .run → s.seq.fid = .lzw →
    ∃ t, step s = .next t ∧ t.rep = s.rep

/-- R210: the unit computes the decoding loop over the learned sequences, in which the previous code is a byte sequence and
the width a function of the number of entries. -/
def Obligations.LzwUnitComputesLZW : Prop :=
  ∀ (s : State) (data : Bytes), s.unitStart .lzw data → StageYields s (.ok (fnLzw data))

/-! ## RunLength -/

/-- R254, R107: a literal run copies `n + 1` bytes, and raises if fewer are left. -/
def Obligations.RlLiteralRunCopiesItsPayload : Prop :=
  ∀ (s : State) (n : BitVec 7),
    (s.seq.rp + 1 + (n.toNat + 1) ≤ s.seq.src.length →
      ∃ t, exec (.rlLit n) s = .next t ∧
        t = { s with seq := { s.seq with rp := s.seq.rp + 1 + (n.toNat + 1), dst := t.seq.dst } } ∧
        t.seq.dst.length = s.seq.dst.length + (n.toNat + 1) ∧
        (∀ a, a < s.seq.dst.length → t.readByte .dst a = s.readByte .dst a) ∧
        (∀ j, j < n.toNat + 1 → t.readByte .dst (s.seq.dst.length + j) = s.readByte .src (s.seq.rp + 1 + j))) ∧
    (s.seq.src.length < s.seq.rp + 1 + (n.toNat + 1) →
      ∃ t, exec (.rlLit n) s = .next t ∧ t.rep.status = .error ∧ t.rep.errKind.code = 2 ∧
        t.rep.errStage = s.seq.stage ∧ t.rep.errFid = s.seq.fid ∧ t.rep.outLen = 0 ∧ t.host = s.host)

/-- R253: control byte 128 sets `RL_EOD`, which finishes the unit, and emits nothing. -/
def Obligations.RlEndOfData : Prop :=
  ∀ s : State,
    exec .rlEod s = .next { s with
      seq := { s.seq with rp := s.seq.rp + 1 }
      rl := { eod := true } } ∧
    (s.seq.fid = .rl → ∀ t, exec .rlEod s = .next t → t.unitFinished = true)

/-- R255, R106: a repeat run emits the next byte `257 - c` times, where `c` is the control byte, and raises if there is
none. -/
def Obligations.RlRepeatRunRepeatsItsByte : Prop :=
  ∀ (s : State) (c : Byte), 129 ≤ c.toNat →
    ∃ n, decode .rl [c] = .ok (.rlRep n) ∧
      (∀ b, s.readByte .src (s.seq.rp + 1) = some b →
        exec (.rlRep n) s = .next { s with
          seq := { s.seq with rp := s.seq.rp + 2, dst := s.seq.dst ++ List.replicate (257 - c.toNat) b } }) ∧
      (s.seq.src.length < s.seq.rp + 2 →
        ∃ t, exec (.rlRep n) s = .next t ∧ t.rep.status = .error ∧ t.rep.errKind.code = 2 ∧
          t.rep.errStage = s.seq.stage ∧ t.rep.errFid = s.seq.fid ∧ t.rep.outLen = 0 ∧ t.host = s.host)

/-- R250: the unit computes the function `RL`. -/
def Obligations.RunLengthUnitComputesRL : Prop :=
  ∀ (s : State) (data : Bytes), s.unitStart .rl data → StageYields s (fnRl data)

/-! ## Frames -/

/-- R42, R17, R32: an instruction of a stream changes no host register and no byte of `IN`, `OUT` or a name; unless it
raises, neither the report, nor any sequencer register but the cursor and `DST`, nor another unit's register, and no byte
of `SRC`, nor of `DST` below its old length. (After a raise the spec makes the working state unspecified, R290.) -/
def Obligations.StreamInstructionsFrame : Prop :=
  ∀ (s t : State) (x : Ctx) (i : Instr),
    (∃ ws, x = .ahx ws) ∨ (∃ ws tilde, x = .a85 ws tilde) ∨ (∃ off w next prev, x = .lzw off w next prev) ∨ x = .rl →
    i.wellFormed x = true → exec i s = .next t →
    t.host = s.host ∧ t.ws = s.ws ∧ t.agenda = s.agenda ∧ t.draws = s.draws ∧
    (∀ sp a, sp ≠ .src → sp ≠ .dst → t.readByte sp a = s.readByte sp a) ∧
    (t.rep.status ≠ .error →
      t.rep = s.rep ∧
      t.seq.nStages = s.seq.nStages ∧ t.seq.stage = s.seq.stage ∧ t.seq.phase = s.seq.phase ∧ t.seq.fid = s.seq.fid ∧
      ((∃ off w next prev, x = .lzw off w next prev) → t.seq.rp = s.seq.rp) ∧
      ((∀ ws, x ≠ .ahx ws) → t.ahx = s.ahx) ∧
      ((∀ ws tilde, x ≠ .a85 ws tilde) → t.a85 = s.a85) ∧
      ((∀ off w next prev, x ≠ .lzw off w next prev) → t.lzw = s.lzw) ∧
      (x ≠ .rl → t.rl = s.rl) ∧
      (∀ a, t.readByte .src a = s.readByte .src a) ∧
      (∀ a, a < s.seq.dst.length → t.readByte .dst a = s.readByte .dst a))

/-- R167, R168, R192 to R194, R214, R215, R219, R253: these instructions store nothing: every byte of every space reads as
before. -/
def Obligations.InstructionsThatStoreNothing : Prop :=
  ∀ (s t : State) (c : Byte) (v : Code),
    ∀ i ∈ [Instr.ahxWs c, .ahxEod, .a85Ws c, .a85Eod, .a85Tilde, .lzwClear, .lzwEod, .lzwFirstUndef v, .rlEod],
      exec i s = .next t → ∀ sp a, t.readByte sp a = s.readByte sp a

/-! ## The whole machine -/

/-- R330, R23, R22: while `BUSY`, nothing but the reset input changes an operand of the run. -/
def Obligations.OperandsCannotChangeDuringARun : Prop :=
  ∀ s t : State, s.rep.status = .busy → s.agenda.head? ≠ some .reset → step s = .next t →
    t.host = s.host ∧ t.ws = s.ws

/-- R25: `STATUS` changes only by `START` (to `BUSY`), the finishing step (to `DONE`), the abort (to `ERROR`) and reset
(to `IDLE`). -/
def Obligations.StatusChangesOnlyAsTheSpecSays : Prop :=
  ∀ s t : State, step s = .next t → t.rep.status ≠ s.rep.status →
    (t.rep.status = .busy ∧ s.agenda.head? = some (.write (.cmd 1#1)) ∧ t.seq.stage = 0 ∧ t.seq.phase = .dispatch) ∨
    (t.rep.status = .done ∧ s.rep.status = .busy ∧ s.seq.phase = .dispatch ∧ s.seq.stage = s.seq.nStages) ∨
    (t.rep.status = .error ∧ s.rep.status = .busy ∧ t.rep.errKind ≠ .none ∧ t.rep.errStage = s.seq.stage) ∨
    (t.rep.status = .idle ∧ s.agenda.head? = some .reset)

/-- R24: the bytes of `OUT` are written by the finishing step only, and a state in which a run is not done shows no
output. -/
def Obligations.OutIsWrittenByTheFinishingStepOnly : Prop :=
  ∀ s t : State, s.Inv → step s = .next t → s.agenda.head? ≠ some .reset →
    ((∃ a, t.readByte .output a ≠ s.readByte .output a) →
      s.rep.status = .busy ∧ s.seq.phase = .dispatch ∧ s.seq.stage = s.seq.nStages ∧ t.rep.status = .done) ∧
    (t.rep.status ≠ .done → t.rep.outLen = 0)

/-- R29, R32: within a run `STAGE` never decreases and advances by exactly 1, and `SRC` changes in no step that does not
advance it; the step that ends the run in an error aside, which leaves both unspecified (R290). -/
def Obligations.StageAdvancesByExactlyOne : Prop :=
  ∀ s t : State, s.rep.status = .busy → s.agenda.head? ≠ some .reset → step s = .next t →
    (t.seq.stage = s.seq.stage ∧ t.seq.src = s.seq.src) ∨ t.seq.stage = s.seq.stage + 1 ∨ t.rep.status = .error

/-- R340: from every `BUSY` state that meets the invariant the engine reaches `DONE` or `ERROR`. -/
def Obligations.EveryRunEnds : Prop :=
  ∀ s : State, s.Inv → s.rep.status = .busy → s.agenda = [] →
    ∃ k t, runSteps k s = .next t ∧ (t.rep.status = .done ∨ t.rep.status = .error)

/-- R340: a unit's stage takes at most one step for each byte of its input (ASCIIHex, ASCII85, RunLength) or for each nine
of its bits (LZW), and one for the stage end. -/
def Obligations.UnitStageStepBound : Prop :=
  ∀ (s : State) (f : FilterId) (data : Bytes), s.unitStart f data →
    ∃ k t, runSteps k s = .next t ∧ (t.rep.status = .error ∨ t.seq.phase = .dispatch) ∧
      k ≤ (if f = .lzw then 8 * data.length / 9 else data.length) + 1

/-- R141, R131, R132: the run that `START` begins ends, and what it leaves behind is the value of `decodeAll` of its
operands (with `OP = 0`, of the one name `NAME[0]`). -/
def Obligations.RunComputesDecodeAll : Prop :=
  ∀ s s' : State, s.Inv → s.rep.status ≠ .busy → s.agenda = [] → exec .start s = .next s' →
    ∃ t, EndsIn s' t ∧ t.observe = observationOf s.pipeline (fnDecodeAll s.ws s.pipeline s.input)

/-- R333, R294, R133: what a run leaves behind depends on nothing but its operands: two runs on equal operands end alike,
whatever the block has done before. -/
def Obligations.NoStateCarriesFromRunToRun : Prop :=
  ∀ s₁ s₂ s₁' s₂' t₁ t₂ : State, s₁.Inv → s₂.Inv → s₁.rep.status ≠ .busy → s₂.rep.status ≠ .busy →
    s₁.agenda = [] → s₂.agenda = [] → s₁.ws = s₂.ws → s₁.pipeline = s₂.pipeline → s₁.input = s₂.input →
    exec .start s₁ = .next s₁' → exec .start s₂ = .next s₂' → EndsIn s₁' t₁ → EndsIn s₂' t₂ →
    t₁.observe = t₂.observe

/-- R144: a pipeline of two lists is the one after the other, with an error of the second counted from the first's
length. -/
def Obligations.DecodeAllComposes : Prop :=
  ∀ (ws : Bytes) (a b : List Bytes) (d : Bytes),
    fnDecodeAll ws (a ++ b) d =
      (match fnDecodeAll ws a d with
       | .error e => .error e
       | .ok x =>
         match fnDecodeAll ws b x with
         | .ok y => .ok y
         | .error (k, i) => .error (k, i + a.length))

/-- R111, R134: an empty name anywhere in a pipeline changes neither the bytes nor the kind of error. -/
def Obligations.EmptyNameIsTheNoOperationStage : Prop :=
  ∀ (ws : Bytes) (a b : List Bytes) (d : Bytes),
    (match fnDecodeAll ws (a ++ [] :: b) d with | .ok y => .ok y | .error e => .error e.1 : Except ErrKind Bytes) =
      (match fnDecodeAll ws (a ++ b) d with | .ok y => .ok y | .error e => .error e.1)
end

