-- ==== Sys2Proof/Laws/Memory.lean ====
section
/-! SUPPORT. The tables in canonical form: a read after a write, and that every operation keeps the form. -/

namespace Sys2Proof.Machine

section
variable {α : Type} [DecidableEq α] {d : α}

/-- Every key of a table is above a bound. -/
abbrev Sparse.above (k : Nat) (m : Sparse α) : Prop := ∀ e ∈ m, k < e.1

theorem Sparse.wf_nil : Sparse.wf d ([] : Sparse α) := by simp [Sparse.wf]

theorem Sparse.wf_cons {k : Nat} {v : α} {m : Sparse α} :
    Sparse.wf d ((k, v) :: m) ↔ v ≠ d ∧ Sparse.above k m ∧ Sparse.wf d m := by
  simp only [Sparse.wf, List.pairwise_cons, List.mem_cons, forall_eq_or_imp]
  constructor
  · rintro ⟨⟨h1, h2⟩, h3, h4⟩
    exact ⟨h3, h1, h2, h4⟩
  · rintro ⟨h3, h1, h2, h4⟩
    exact ⟨⟨h1, h2⟩, h3, h4⟩

omit [DecidableEq α] in
/-- A key below every listed one reads as the default. -/
theorem Sparse.get_of_above {m : Sparse α} {k : Nat} (h : Sparse.above k m) : Sparse.get d m k = d := by
  cases m with
  | nil => rfl
  | cons e m =>
    have : k < e.1 := h e (by simp)
    simp [Sparse.get, this]

/-- Reading the key just written gives the value. -/
theorem Sparse.get_set_same {m : Sparse α} (h : Sparse.wf d m) (k : Nat) (v : α) :
    Sparse.get d (Sparse.set d m k v) k = v := by
  induction m with
  | nil =>
    simp only [Sparse.set]
    split <;> simp_all [Sparse.get]
  | cons e m ih =>
    obtain ⟨k', v'⟩ := e
    obtain ⟨-, hab, hm⟩ := Sparse.wf_cons.mp h
    simp only [Sparse.set]
    split
    · split <;> simp_all [Sparse.get]
    · split
      · rename_i h1 h2
        subst h2
        split
        · rename_i h3
          rw [h3]
          exact Sparse.get_of_above hab
        · simp [Sparse.get]
      · rename_i h1 h2
        simp only [Sparse.get, if_neg h1, if_neg h2]
        exact ih hm

/-- A write leaves every other key alone. -/
theorem Sparse.get_set_other {m : Sparse α} (h : Sparse.wf d m) {k j : Nat} (hj : j ≠ k) (v : α) :
    Sparse.get d (Sparse.set d m k v) j = Sparse.get d m j := by
  induction m with
  | nil =>
    simp only [Sparse.set]
    split
    · rfl
    · simp only [Sparse.get, if_neg hj]
      split <;> rfl
  | cons e m ih =>
    obtain ⟨k', v'⟩ := e
    obtain ⟨-, hab, hm⟩ := Sparse.wf_cons.mp h
    simp only [Sparse.set]
    split
    · rename_i h1
      split
      · rfl
      · by_cases hjk : j < k
        · have : j < k' := by omega
          simp [Sparse.get, hjk, this]
        · simp only [Sparse.get, if_neg hjk, if_neg hj]
    · rename_i h1
      split
      · rename_i h2
        subst h2
        have key : Sparse.get d m j = (if j < k then d else Sparse.get d m j) := by
          split
          · rename_i hlt
            exact Sparse.get_of_above fun e he => lt_trans hlt (hab e he)
          · rfl
        split
        · rw [key]; simp [Sparse.get, hj]
        · simp [Sparse.get, hj]
      · simp only [Sparse.get]
        split
        · rfl
        · split
          · rfl
          · exact ih hm

/-- The keys of a table after a write. -/
theorem Sparse.mem_set {m : Sparse α} {k : Nat} {v : α} {e : Nat × α} (h : e ∈ Sparse.set d m k v) :
    e = (k, v) ∨ e ∈ m := by
  induction m with
  | nil =>
    simp only [Sparse.set] at h
    split at h <;> simp_all
  | cons x m ih =>
    obtain ⟨k', v'⟩ := x
    simp only [Sparse.set] at h
    split at h
    · split at h <;> simp_all
    · split at h
      · split at h
        · exact .inr (by simp [h])
        · rcases List.mem_cons.mp h with h | h
          · exact .inl h
          · exact .inr (by simp [h])
      · rcases List.mem_cons.mp h with h | h
        · exact .inr (by simp [h])
        · rcases ih h with h | h
          · exact .inl h
          · exact .inr (by simp [h])

/-- A write keeps the canonical form. -/
theorem Sparse.set_wf {m : Sparse α} (h : Sparse.wf d m) (k : Nat) (v : α) : Sparse.wf d (Sparse.set d m k v) := by
  induction m with
  | nil =>
    simp only [Sparse.set]
    split
    · exact Sparse.wf_nil
    · rename_i hv
      exact Sparse.wf_cons.mpr ⟨hv, by simp [Sparse.above], Sparse.wf_nil⟩
  | cons e m ih =>
    obtain ⟨k', v'⟩ := e
    obtain ⟨hv', hab, hm⟩ := Sparse.wf_cons.mp h
    simp only [Sparse.set]
    split
    · rename_i h1
      split
      · exact h
      · rename_i hv
        refine Sparse.wf_cons.mpr ⟨hv, ?_, h⟩
        intro e he
        rcases List.mem_cons.mp he with rfl | he
        · exact h1
        · exact lt_trans h1 (hab e he)
    · rename_i h1
      split
      · rename_i h2
        subst h2
        split
        · exact hm
        · rename_i hv
          exact Sparse.wf_cons.mpr ⟨hv, hab, hm⟩
      · rename_i h2
        refine Sparse.wf_cons.mpr ⟨hv', ?_, ih hm⟩
        intro e he
        rcases Sparse.mem_set he with rfl | he
        · show k' < k
          omega
        · exact hab e he

end

/-! ## Buffers -/

theorem Memory.wf_nil : Memory.wf [] := Sparse.wf_nil

theorem Memory.write_wf {m : Memory} (h : m.wf) (a : Nat) (b : Byte) : (m.write a b).wf := Sparse.set_wf h a b

theorem Memory.read_write_same {m : Memory} (h : m.wf) (a : Nat) (b : Byte) : (m.write a b).read a = b :=
  Sparse.get_set_same h a b

theorem Memory.read_write_other {m : Memory} (h : m.wf) {a c : Nat} (hc : c ≠ a) (b : Byte) :
    (m.write a b).read c = m.read c :=
  Sparse.get_set_other h hc b

theorem Memory.writeAll_wf {m : Memory} (h : m.wf) (a : Nat) (bs : Bytes) : (m.writeAll a bs).wf := by
  induction bs generalizing m a with
  | nil => exact h
  | cons b bs ih => exact ih (Memory.write_wf h a b) (a + 1)

/-- Bytes below or beyond a written span are as before. -/
theorem Memory.read_writeAll_outside {m : Memory} (h : m.wf) {a c : Nat} {bs : Bytes}
    (hc : c < a ∨ a + bs.length ≤ c) : (m.writeAll a bs).read c = m.read c := by
  induction bs generalizing m a with
  | nil => rfl
  | cons b bs ih =>
    simp only [List.length_cons] at hc
    rw [Memory.writeAll, ih (Memory.write_wf h a b) (by omega),
      Memory.read_write_other h (by omega)]

/-- The bytes of a written span are the bytes written. -/
theorem Memory.read_writeAll_inside {m : Memory} (h : m.wf) {a i : Nat} {bs : Bytes} (hi : i < bs.length) :
    (m.writeAll a bs).read (a + i) = bs[i] := by
  induction bs generalizing m a i with
  | nil => simp at hi
  | cons b bs ih =>
    rw [Memory.writeAll]
    cases i with
    | zero =>
      rw [Memory.read_writeAll_outside (Memory.write_wf h a b) (.inl (by omega))]
      exact Memory.read_write_same h a b
    | succ i =>
      have := ih (Memory.write_wf h a b) (a := a + 1) (i := i) (by simpa using hi)
      rw [show a + (i + 1) = a + 1 + i by omega, this]
      simp

/-- A sequence written from address 0 reads back. -/
theorem Memory.bytes_writeAll {m : Memory} (h : m.wf) (bs : Bytes) : (m.writeAll 0 bs).bytes bs.length = bs := by
  apply List.ext_getElem
  · simp [Memory.bytes]
  · intro i h1 h2
    have := Memory.read_writeAll_inside h (a := 0) h2
    simp only [Nat.zero_add] at this
    simp [Memory.bytes, this]

end Sys2Proof.Machine
end

