-- ==== Sys2Proof/Laws/State.lean ====
section
/-! SUPPORT. One lemma per field per named update of the state, true by rfl, so that no proof unfolds a record update. -/

namespace Sys2Proof.Machine

/-! ### advance -/

@[simp] theorem advance_host (s : State) (n : Nat) : (s.advance n).host = s.host := rfl
@[simp] theorem advance_rep (s : State) (n : Nat) : (s.advance n).rep = s.rep := rfl
@[simp] theorem advance_seq_nStages (s : State) (n : Nat) : (s.advance n).seq.nStages = s.seq.nStages := rfl
@[simp] theorem advance_seq_stage (s : State) (n : Nat) : (s.advance n).seq.stage = s.seq.stage := rfl
@[simp] theorem advance_seq_phase (s : State) (n : Nat) : (s.advance n).seq.phase = s.seq.phase := rfl
@[simp] theorem advance_seq_fid (s : State) (n : Nat) : (s.advance n).seq.fid = s.seq.fid := rfl
@[simp] theorem advance_seq_src (s : State) (n : Nat) : (s.advance n).seq.src = s.seq.src := rfl
@[simp] theorem advance_seq_dst (s : State) (n : Nat) : (s.advance n).seq.dst = s.seq.dst := rfl
@[simp] theorem advance_seq_rp (s : State) (n : Nat) : (s.advance n).seq.rp = s.seq.rp + n := rfl
@[simp] theorem advance_ahx (s : State) (n : Nat) : (s.advance n).ahx = s.ahx := rfl
@[simp] theorem advance_a85 (s : State) (n : Nat) : (s.advance n).a85 = s.a85 := rfl
@[simp] theorem advance_rl (s : State) (n : Nat) : (s.advance n).rl = s.rl := rfl
@[simp] theorem advance_lzw (s : State) (n : Nat) : (s.advance n).lzw = s.lzw := rfl
@[simp] theorem advance_ws (s : State) (n : Nat) : (s.advance n).ws = s.ws := rfl
@[simp] theorem advance_agenda (s : State) (n : Nat) : (s.advance n).agenda = s.agenda := rfl
@[simp] theorem advance_draws (s : State) (n : Nat) : (s.advance n).draws = s.draws := rfl

/-! ### emit -/

@[simp] theorem emit_host (s : State) (bs : Bytes) : (s.emit bs).host = s.host := rfl
@[simp] theorem emit_rep (s : State) (bs : Bytes) : (s.emit bs).rep = s.rep := rfl
@[simp] theorem emit_seq_nStages (s : State) (bs : Bytes) : (s.emit bs).seq.nStages = s.seq.nStages := rfl
@[simp] theorem emit_seq_stage (s : State) (bs : Bytes) : (s.emit bs).seq.stage = s.seq.stage := rfl
@[simp] theorem emit_seq_phase (s : State) (bs : Bytes) : (s.emit bs).seq.phase = s.seq.phase := rfl
@[simp] theorem emit_seq_fid (s : State) (bs : Bytes) : (s.emit bs).seq.fid = s.seq.fid := rfl
@[simp] theorem emit_seq_src (s : State) (bs : Bytes) : (s.emit bs).seq.src = s.seq.src := rfl
@[simp] theorem emit_seq_dst (s : State) (bs : Bytes) : (s.emit bs).seq.dst = s.seq.dst ++ bs := rfl
@[simp] theorem emit_seq_rp (s : State) (bs : Bytes) : (s.emit bs).seq.rp = s.seq.rp := rfl
@[simp] theorem emit_ahx (s : State) (bs : Bytes) : (s.emit bs).ahx = s.ahx := rfl
@[simp] theorem emit_a85 (s : State) (bs : Bytes) : (s.emit bs).a85 = s.a85 := rfl
@[simp] theorem emit_rl (s : State) (bs : Bytes) : (s.emit bs).rl = s.rl := rfl
@[simp] theorem emit_lzw (s : State) (bs : Bytes) : (s.emit bs).lzw = s.lzw := rfl
@[simp] theorem emit_ws (s : State) (bs : Bytes) : (s.emit bs).ws = s.ws := rfl
@[simp] theorem emit_agenda (s : State) (bs : Bytes) : (s.emit bs).agenda = s.agenda := rfl
@[simp] theorem emit_draws (s : State) (bs : Bytes) : (s.emit bs).draws = s.draws := rfl

/-! ### advanceBits -/

@[simp] theorem advanceBits_host (s : State) : (s.advanceBits).host = s.host := rfl
@[simp] theorem advanceBits_rep (s : State) : (s.advanceBits).rep = s.rep := rfl
@[simp] theorem advanceBits_seq (s : State) : (s.advanceBits).seq = s.seq := rfl
@[simp] theorem advanceBits_ahx (s : State) : (s.advanceBits).ahx = s.ahx := rfl
@[simp] theorem advanceBits_a85 (s : State) : (s.advanceBits).a85 = s.a85 := rfl
@[simp] theorem advanceBits_rl (s : State) : (s.advanceBits).rl = s.rl := rfl
@[simp] theorem advanceBits_lzw_bp (s : State) : (s.advanceBits).lzw.bp = s.lzw.bp + s.lzw.width.bits := rfl
@[simp] theorem advanceBits_lzw_width (s : State) : (s.advanceBits).lzw.width = s.lzw.width := rfl
@[simp] theorem advanceBits_lzw_next (s : State) : (s.advanceBits).lzw.next = s.lzw.next := rfl
@[simp] theorem advanceBits_lzw_prev (s : State) : (s.advanceBits).lzw.prev = s.lzw.prev := rfl
@[simp] theorem advanceBits_lzw_eod (s : State) : (s.advanceBits).lzw.eod = s.lzw.eod := rfl
@[simp] theorem advanceBits_lzw_dict (s : State) : (s.advanceBits).lzw.dict = s.lzw.dict := rfl
@[simp] theorem advanceBits_ws (s : State) : (s.advanceBits).ws = s.ws := rfl
@[simp] theorem advanceBits_agenda (s : State) : (s.advanceBits).agenda = s.agenda := rfl
@[simp] theorem advanceBits_draws (s : State) : (s.advanceBits).draws = s.draws := rfl

/-! ### aborted -/

@[simp] theorem aborted_host (s : State) (k : ErrKind) (f : FilterId) : (s.aborted k f).host = s.host := rfl
@[simp] theorem aborted_rep_status (s : State) (k : ErrKind) (f : FilterId) : (s.aborted k f).rep.status = .error := rfl
@[simp] theorem aborted_rep_out (s : State) (k : ErrKind) (f : FilterId) : (s.aborted k f).rep.out = s.rep.out := rfl
@[simp] theorem aborted_rep_outLen (s : State) (k : ErrKind) (f : FilterId) : (s.aborted k f).rep.outLen = 0 := rfl
@[simp] theorem aborted_rep_errKind (s : State) (k : ErrKind) (f : FilterId) : (s.aborted k f).rep.errKind = k := rfl
@[simp] theorem aborted_rep_errStage (s : State) (k : ErrKind) (f : FilterId) : (s.aborted k f).rep.errStage = s.seq.stage := rfl
@[simp] theorem aborted_rep_errFid (s : State) (k : ErrKind) (f : FilterId) : (s.aborted k f).rep.errFid = f := rfl
@[simp] theorem aborted_seq (s : State) (k : ErrKind) (f : FilterId) : (s.aborted k f).seq = s.seq := rfl
@[simp] theorem aborted_ahx (s : State) (k : ErrKind) (f : FilterId) : (s.aborted k f).ahx = s.ahx := rfl
@[simp] theorem aborted_a85 (s : State) (k : ErrKind) (f : FilterId) : (s.aborted k f).a85 = s.a85 := rfl
@[simp] theorem aborted_rl (s : State) (k : ErrKind) (f : FilterId) : (s.aborted k f).rl = s.rl := rfl
@[simp] theorem aborted_lzw (s : State) (k : ErrKind) (f : FilterId) : (s.aborted k f).lzw = s.lzw := rfl
@[simp] theorem aborted_ws (s : State) (k : ErrKind) (f : FilterId) : (s.aborted k f).ws = s.ws := rfl
@[simp] theorem aborted_agenda (s : State) (k : ErrKind) (f : FilterId) : (s.aborted k f).agenda = s.agenda := rfl
@[simp] theorem aborted_draws (s : State) (k : ErrKind) (f : FilterId) : (s.aborted k f).draws = s.draws := rfl

/-! ### started -/

@[simp] theorem started_host (s : State) : (s.started).host = s.host := rfl
@[simp] theorem started_rep_status (s : State) : (s.started).rep.status = .busy := rfl
@[simp] theorem started_rep_out (s : State) : (s.started).rep.out = s.rep.out := rfl
@[simp] theorem started_rep_outLen (s : State) : (s.started).rep.outLen = 0 := rfl
@[simp] theorem started_rep_errKind (s : State) : (s.started).rep.errKind = .none := rfl
@[simp] theorem started_rep_errStage (s : State) : (s.started).rep.errStage = 0 := rfl
@[simp] theorem started_rep_errFid (s : State) : (s.started).rep.errFid = .identity := rfl
@[simp] theorem started_seq_nStages (s : State) : (s.started).seq.nStages = if s.host.op = 0#1 then 1 else s.host.plen := rfl
@[simp] theorem started_seq_stage (s : State) : (s.started).seq.stage = 0 := rfl
@[simp] theorem started_seq_phase (s : State) : (s.started).seq.phase = .dispatch := rfl
@[simp] theorem started_seq_fid (s : State) : (s.started).seq.fid = s.seq.fid := rfl
@[simp] theorem started_seq_src (s : State) : (s.started).seq.src = s.input := rfl
@[simp] theorem started_seq_dst (s : State) : (s.started).seq.dst = s.seq.dst := rfl
@[simp] theorem started_seq_rp (s : State) : (s.started).seq.rp = s.seq.rp := rfl
@[simp] theorem started_ahx (s : State) : (s.started).ahx = s.ahx := rfl
@[simp] theorem started_a85 (s : State) : (s.started).a85 = s.a85 := rfl
@[simp] theorem started_rl (s : State) : (s.started).rl = s.rl := rfl
@[simp] theorem started_lzw (s : State) : (s.started).lzw = s.lzw := rfl
@[simp] theorem started_ws (s : State) : (s.started).ws = s.ws := rfl
@[simp] theorem started_agenda (s : State) : (s.started).agenda = s.agenda := rfl
@[simp] theorem started_draws (s : State) : (s.started).draws = s.draws := rfl

/-! ### skipStage -/

@[simp] theorem skipStage_host (s : State) (f : FilterId) : (s.skipStage f).host = s.host := rfl
@[simp] theorem skipStage_rep (s : State) (f : FilterId) : (s.skipStage f).rep = s.rep := rfl
@[simp] theorem skipStage_seq_nStages (s : State) (f : FilterId) : (s.skipStage f).seq.nStages = s.seq.nStages := rfl
@[simp] theorem skipStage_seq_stage (s : State) (f : FilterId) : (s.skipStage f).seq.stage = s.seq.stage + 1 := rfl
@[simp] theorem skipStage_seq_phase (s : State) (f : FilterId) : (s.skipStage f).seq.phase = s.seq.phase := rfl
@[simp] theorem skipStage_seq_fid (s : State) (f : FilterId) : (s.skipStage f).seq.fid = f := rfl
@[simp] theorem skipStage_seq_src (s : State) (f : FilterId) : (s.skipStage f).seq.src = s.seq.src := rfl
@[simp] theorem skipStage_seq_dst (s : State) (f : FilterId) : (s.skipStage f).seq.dst = s.seq.dst := rfl
@[simp] theorem skipStage_seq_rp (s : State) (f : FilterId) : (s.skipStage f).seq.rp = s.seq.rp := rfl
@[simp] theorem skipStage_ahx (s : State) (f : FilterId) : (s.skipStage f).ahx = s.ahx := rfl
@[simp] theorem skipStage_a85 (s : State) (f : FilterId) : (s.skipStage f).a85 = s.a85 := rfl
@[simp] theorem skipStage_rl (s : State) (f : FilterId) : (s.skipStage f).rl = s.rl := rfl
@[simp] theorem skipStage_lzw (s : State) (f : FilterId) : (s.skipStage f).lzw = s.lzw := rfl
@[simp] theorem skipStage_ws (s : State) (f : FilterId) : (s.skipStage f).ws = s.ws := rfl
@[simp] theorem skipStage_agenda (s : State) (f : FilterId) : (s.skipStage f).agenda = s.agenda := rfl
@[simp] theorem skipStage_draws (s : State) (f : FilterId) : (s.skipStage f).draws = s.draws := rfl

/-! ### passStage -/

@[simp] theorem passStage_host (s : State) (f : FilterId) (b : Bytes) : (s.passStage f b).host = s.host := rfl
@[simp] theorem passStage_rep (s : State) (f : FilterId) (b : Bytes) : (s.passStage f b).rep = s.rep := rfl
@[simp] theorem passStage_seq_nStages (s : State) (f : FilterId) (b : Bytes) : (s.passStage f b).seq.nStages = s.seq.nStages := rfl
@[simp] theorem passStage_seq_stage (s : State) (f : FilterId) (b : Bytes) : (s.passStage f b).seq.stage = s.seq.stage + 1 := rfl
@[simp] theorem passStage_seq_phase (s : State) (f : FilterId) (b : Bytes) : (s.passStage f b).seq.phase = s.seq.phase := rfl
@[simp] theorem passStage_seq_fid (s : State) (f : FilterId) (b : Bytes) : (s.passStage f b).seq.fid = f := rfl
@[simp] theorem passStage_seq_src (s : State) (f : FilterId) (b : Bytes) : (s.passStage f b).seq.src = b := rfl
@[simp] theorem passStage_seq_dst (s : State) (f : FilterId) (b : Bytes) : (s.passStage f b).seq.dst = s.seq.dst := rfl
@[simp] theorem passStage_seq_rp (s : State) (f : FilterId) (b : Bytes) : (s.passStage f b).seq.rp = s.seq.rp := rfl
@[simp] theorem passStage_ahx (s : State) (f : FilterId) (b : Bytes) : (s.passStage f b).ahx = s.ahx := rfl
@[simp] theorem passStage_a85 (s : State) (f : FilterId) (b : Bytes) : (s.passStage f b).a85 = s.a85 := rfl
@[simp] theorem passStage_rl (s : State) (f : FilterId) (b : Bytes) : (s.passStage f b).rl = s.rl := rfl
@[simp] theorem passStage_lzw (s : State) (f : FilterId) (b : Bytes) : (s.passStage f b).lzw = s.lzw := rfl
@[simp] theorem passStage_ws (s : State) (f : FilterId) (b : Bytes) : (s.passStage f b).ws = s.ws := rfl
@[simp] theorem passStage_agenda (s : State) (f : FilterId) (b : Bytes) : (s.passStage f b).agenda = s.agenda := rfl
@[simp] theorem passStage_draws (s : State) (f : FilterId) (b : Bytes) : (s.passStage f b).draws = s.draws := rfl

/-! ### enterUnit -/

@[simp] theorem enterUnit_host (s : State) (f : FilterId) : (s.enterUnit f).host = s.host := rfl
@[simp] theorem enterUnit_rep (s : State) (f : FilterId) : (s.enterUnit f).rep = s.rep := rfl
@[simp] theorem enterUnit_seq_nStages (s : State) (f : FilterId) : (s.enterUnit f).seq.nStages = s.seq.nStages := rfl
@[simp] theorem enterUnit_seq_stage (s : State) (f : FilterId) : (s.enterUnit f).seq.stage = s.seq.stage := rfl
@[simp] theorem enterUnit_seq_phase (s : State) (f : FilterId) : (s.enterUnit f).seq.phase = .run := rfl
@[simp] theorem enterUnit_seq_fid (s : State) (f : FilterId) : (s.enterUnit f).seq.fid = f := rfl
@[simp] theorem enterUnit_seq_src (s : State) (f : FilterId) : (s.enterUnit f).seq.src = s.seq.src := rfl
@[simp] theorem enterUnit_seq_dst (s : State) (f : FilterId) : (s.enterUnit f).seq.dst = [] := rfl
@[simp] theorem enterUnit_seq_rp (s : State) (f : FilterId) : (s.enterUnit f).seq.rp = 0 := rfl
@[simp] theorem enterUnit_ahx (s : State) (f : FilterId) : (s.enterUnit f).ahx = s.ahx := rfl
@[simp] theorem enterUnit_a85 (s : State) (f : FilterId) : (s.enterUnit f).a85 = s.a85 := rfl
@[simp] theorem enterUnit_rl (s : State) (f : FilterId) : (s.enterUnit f).rl = s.rl := rfl
@[simp] theorem enterUnit_lzw (s : State) (f : FilterId) : (s.enterUnit f).lzw = s.lzw := rfl
@[simp] theorem enterUnit_ws (s : State) (f : FilterId) : (s.enterUnit f).ws = s.ws := rfl
@[simp] theorem enterUnit_agenda (s : State) (f : FilterId) : (s.enterUnit f).agenda = s.agenda := rfl
@[simp] theorem enterUnit_draws (s : State) (f : FilterId) : (s.enterUnit f).draws = s.draws := rfl

/-! ### stageDone -/

@[simp] theorem stageDone_host (s : State) : (s.stageDone).host = s.host := rfl
@[simp] theorem stageDone_rep (s : State) : (s.stageDone).rep = s.rep := rfl
@[simp] theorem stageDone_seq_nStages (s : State) : (s.stageDone).seq.nStages = s.seq.nStages := rfl
@[simp] theorem stageDone_seq_stage (s : State) : (s.stageDone).seq.stage = s.seq.stage + 1 := rfl
@[simp] theorem stageDone_seq_phase (s : State) : (s.stageDone).seq.phase = .dispatch := rfl
@[simp] theorem stageDone_seq_fid (s : State) : (s.stageDone).seq.fid = s.seq.fid := rfl
@[simp] theorem stageDone_seq_src (s : State) : (s.stageDone).seq.src = s.seq.dst := rfl
@[simp] theorem stageDone_seq_dst (s : State) : (s.stageDone).seq.dst = s.seq.dst := rfl
@[simp] theorem stageDone_seq_rp (s : State) : (s.stageDone).seq.rp = s.seq.rp := rfl
@[simp] theorem stageDone_ahx (s : State) : (s.stageDone).ahx = s.ahx := rfl
@[simp] theorem stageDone_a85 (s : State) : (s.stageDone).a85 = s.a85 := rfl
@[simp] theorem stageDone_rl (s : State) : (s.stageDone).rl = s.rl := rfl
@[simp] theorem stageDone_lzw (s : State) : (s.stageDone).lzw = s.lzw := rfl
@[simp] theorem stageDone_ws (s : State) : (s.stageDone).ws = s.ws := rfl
@[simp] theorem stageDone_agenda (s : State) : (s.stageDone).agenda = s.agenda := rfl
@[simp] theorem stageDone_draws (s : State) : (s.stageDone).draws = s.draws := rfl

/-! ### finished -/

@[simp] theorem finished_host (s : State) : (s.finished).host = s.host := rfl
@[simp] theorem finished_rep_status (s : State) : (s.finished).rep.status = .done := rfl
@[simp] theorem finished_rep_out (s : State) : (s.finished).rep.out = s.rep.out.writeAll 0 s.seq.src := rfl
@[simp] theorem finished_rep_outLen (s : State) : (s.finished).rep.outLen = s.seq.src.length := rfl
@[simp] theorem finished_rep_errKind (s : State) : (s.finished).rep.errKind = s.rep.errKind := rfl
@[simp] theorem finished_rep_errStage (s : State) : (s.finished).rep.errStage = s.rep.errStage := rfl
@[simp] theorem finished_rep_errFid (s : State) : (s.finished).rep.errFid = s.rep.errFid := rfl
@[simp] theorem finished_seq (s : State) : (s.finished).seq = s.seq := rfl
@[simp] theorem finished_ahx (s : State) : (s.finished).ahx = s.ahx := rfl
@[simp] theorem finished_a85 (s : State) : (s.finished).a85 = s.a85 := rfl
@[simp] theorem finished_rl (s : State) : (s.finished).rl = s.rl := rfl
@[simp] theorem finished_lzw (s : State) : (s.finished).lzw = s.lzw := rfl
@[simp] theorem finished_ws (s : State) : (s.finished).ws = s.ws := rfl
@[simp] theorem finished_agenda (s : State) : (s.finished).agenda = s.agenda := rfl
@[simp] theorem finished_draws (s : State) : (s.finished).draws = s.draws := rfl

/-! ### popTurn -/

@[simp] theorem popTurn_host (s : State) : (s.popTurn).host = s.host := rfl
@[simp] theorem popTurn_rep (s : State) : (s.popTurn).rep = s.rep := rfl
@[simp] theorem popTurn_seq (s : State) : (s.popTurn).seq = s.seq := rfl
@[simp] theorem popTurn_ahx (s : State) : (s.popTurn).ahx = s.ahx := rfl
@[simp] theorem popTurn_a85 (s : State) : (s.popTurn).a85 = s.a85 := rfl
@[simp] theorem popTurn_rl (s : State) : (s.popTurn).rl = s.rl := rfl
@[simp] theorem popTurn_lzw (s : State) : (s.popTurn).lzw = s.lzw := rfl
@[simp] theorem popTurn_ws (s : State) : (s.popTurn).ws = s.ws := rfl
@[simp] theorem popTurn_agenda (s : State) : (s.popTurn).agenda = s.agenda.tail := rfl
@[simp] theorem popTurn_draws (s : State) : (s.popTurn).draws = s.draws := rfl

/-! ### initAhx -/

@[simp] theorem initAhx_host (s : State) : (s.initAhx).host = s.host := rfl
@[simp] theorem initAhx_rep (s : State) : (s.initAhx).rep = s.rep := rfl
@[simp] theorem initAhx_seq (s : State) : (s.initAhx).seq = s.seq := rfl
@[simp] theorem initAhx_ahx_hi (s : State) : (s.initAhx).ahx.hi = none := rfl
@[simp] theorem initAhx_ahx_eod (s : State) : (s.initAhx).ahx.eod = false := rfl
@[simp] theorem initAhx_a85 (s : State) : (s.initAhx).a85 = s.a85 := rfl
@[simp] theorem initAhx_rl (s : State) : (s.initAhx).rl = s.rl := rfl
@[simp] theorem initAhx_lzw (s : State) : (s.initAhx).lzw = s.lzw := rfl
@[simp] theorem initAhx_ws (s : State) : (s.initAhx).ws = s.ws := rfl
@[simp] theorem initAhx_agenda (s : State) : (s.initAhx).agenda = s.agenda := rfl
@[simp] theorem initAhx_draws (s : State) : (s.initAhx).draws = s.draws := rfl

/-! ### initA85 -/

@[simp] theorem initA85_host (s : State) : (s.initA85).host = s.host := rfl
@[simp] theorem initA85_rep (s : State) : (s.initA85).rep = s.rep := rfl
@[simp] theorem initA85_seq (s : State) : (s.initA85).seq = s.seq := rfl
@[simp] theorem initA85_ahx (s : State) : (s.initA85).ahx = s.ahx := rfl
@[simp] theorem initA85_a85_tuple (s : State) : (s.initA85).a85.tuple = 0#32 := rfl
@[simp] theorem initA85_a85_pos (s : State) : (s.initA85).a85.pos = 0 := rfl
@[simp] theorem initA85_a85_tilde (s : State) : (s.initA85).a85.tilde = false := rfl
@[simp] theorem initA85_a85_eod (s : State) : (s.initA85).a85.eod = false := rfl
@[simp] theorem initA85_rl (s : State) : (s.initA85).rl = s.rl := rfl
@[simp] theorem initA85_lzw (s : State) : (s.initA85).lzw = s.lzw := rfl
@[simp] theorem initA85_ws (s : State) : (s.initA85).ws = s.ws := rfl
@[simp] theorem initA85_agenda (s : State) : (s.initA85).agenda = s.agenda := rfl
@[simp] theorem initA85_draws (s : State) : (s.initA85).draws = s.draws := rfl

/-! ### initRl -/

@[simp] theorem initRl_host (s : State) : (s.initRl).host = s.host := rfl
@[simp] theorem initRl_rep (s : State) : (s.initRl).rep = s.rep := rfl
@[simp] theorem initRl_seq (s : State) : (s.initRl).seq = s.seq := rfl
@[simp] theorem initRl_ahx (s : State) : (s.initRl).ahx = s.ahx := rfl
@[simp] theorem initRl_a85 (s : State) : (s.initRl).a85 = s.a85 := rfl
@[simp] theorem initRl_rl_eod (s : State) : (s.initRl).rl.eod = false := rfl
@[simp] theorem initRl_lzw (s : State) : (s.initRl).lzw = s.lzw := rfl
@[simp] theorem initRl_ws (s : State) : (s.initRl).ws = s.ws := rfl
@[simp] theorem initRl_agenda (s : State) : (s.initRl).agenda = s.agenda := rfl
@[simp] theorem initRl_draws (s : State) : (s.initRl).draws = s.draws := rfl

/-! ### initLzw -/

@[simp] theorem initLzw_host (s : State) : (s.initLzw).host = s.host := rfl
@[simp] theorem initLzw_rep (s : State) : (s.initLzw).rep = s.rep := rfl
@[simp] theorem initLzw_seq (s : State) : (s.initLzw).seq = s.seq := rfl
@[simp] theorem initLzw_ahx (s : State) : (s.initLzw).ahx = s.ahx := rfl
@[simp] theorem initLzw_a85 (s : State) : (s.initLzw).a85 = s.a85 := rfl
@[simp] theorem initLzw_rl (s : State) : (s.initLzw).rl = s.rl := rfl
@[simp] theorem initLzw_lzw_bp (s : State) : (s.initLzw).lzw.bp = 0 := rfl
@[simp] theorem initLzw_lzw_width (s : State) : (s.initLzw).lzw.width = .w9 := rfl
@[simp] theorem initLzw_lzw_next (s : State) : (s.initLzw).lzw.next = 258 := rfl
@[simp] theorem initLzw_lzw_prev (s : State) : (s.initLzw).lzw.prev = none := rfl
@[simp] theorem initLzw_lzw_eod (s : State) : (s.initLzw).lzw.eod = false := rfl
@[simp] theorem initLzw_lzw_dict (s : State) : (s.initLzw).lzw.dict = [] := rfl
@[simp] theorem initLzw_ws (s : State) : (s.initLzw).ws = s.ws := rfl
@[simp] theorem initLzw_agenda (s : State) : (s.initLzw).agenda = s.agenda := rfl
@[simp] theorem initLzw_draws (s : State) : (s.initLzw).draws = s.draws := rfl

/-! ### setPrev -/

@[simp] theorem setPrev_host (s : State) (c : Code) : (s.setPrev c).host = s.host := rfl
@[simp] theorem setPrev_rep (s : State) (c : Code) : (s.setPrev c).rep = s.rep := rfl
@[simp] theorem setPrev_seq (s : State) (c : Code) : (s.setPrev c).seq = s.seq := rfl
@[simp] theorem setPrev_ahx (s : State) (c : Code) : (s.setPrev c).ahx = s.ahx := rfl
@[simp] theorem setPrev_a85 (s : State) (c : Code) : (s.setPrev c).a85 = s.a85 := rfl
@[simp] theorem setPrev_rl (s : State) (c : Code) : (s.setPrev c).rl = s.rl := rfl
@[simp] theorem setPrev_lzw_bp (s : State) (c : Code) : (s.setPrev c).lzw.bp = s.lzw.bp := rfl
@[simp] theorem setPrev_lzw_width (s : State) (c : Code) : (s.setPrev c).lzw.width = s.lzw.width := rfl
@[simp] theorem setPrev_lzw_next (s : State) (c : Code) : (s.setPrev c).lzw.next = s.lzw.next := rfl
@[simp] theorem setPrev_lzw_prev (s : State) (c : Code) : (s.setPrev c).lzw.prev = some c := rfl
@[simp] theorem setPrev_lzw_eod (s : State) (c : Code) : (s.setPrev c).lzw.eod = s.lzw.eod := rfl
@[simp] theorem setPrev_lzw_dict (s : State) (c : Code) : (s.setPrev c).lzw.dict = s.lzw.dict := rfl
@[simp] theorem setPrev_ws (s : State) (c : Code) : (s.setPrev c).ws = s.ws := rfl
@[simp] theorem setPrev_agenda (s : State) (c : Code) : (s.setPrev c).agenda = s.agenda := rfl
@[simp] theorem setPrev_draws (s : State) (c : Code) : (s.setPrev c).draws = s.draws := rfl

/-! ### setName -/

@[simp] theorem setName_host_op (s : State) (i : Nat) (r : NameReg) : (s.setName i r).host.op = s.host.op := rfl
@[simp] theorem setName_host_plen (s : State) (i : Nat) (r : NameReg) : (s.setName i r).host.plen = s.host.plen := rfl
@[simp] theorem setName_host_names (s : State) (i : Nat) (r : NameReg) : (s.setName i r).host.names = Sparse.set NameReg.unwritten s.host.names i r := rfl
@[simp] theorem setName_host_inBuf (s : State) (i : Nat) (r : NameReg) : (s.setName i r).host.inBuf = s.host.inBuf := rfl
@[simp] theorem setName_host_inLen (s : State) (i : Nat) (r : NameReg) : (s.setName i r).host.inLen = s.host.inLen := rfl
@[simp] theorem setName_rep (s : State) (i : Nat) (r : NameReg) : (s.setName i r).rep = s.rep := rfl
@[simp] theorem setName_seq (s : State) (i : Nat) (r : NameReg) : (s.setName i r).seq = s.seq := rfl
@[simp] theorem setName_ahx (s : State) (i : Nat) (r : NameReg) : (s.setName i r).ahx = s.ahx := rfl
@[simp] theorem setName_a85 (s : State) (i : Nat) (r : NameReg) : (s.setName i r).a85 = s.a85 := rfl
@[simp] theorem setName_rl (s : State) (i : Nat) (r : NameReg) : (s.setName i r).rl = s.rl := rfl
@[simp] theorem setName_lzw (s : State) (i : Nat) (r : NameReg) : (s.setName i r).lzw = s.lzw := rfl
@[simp] theorem setName_ws (s : State) (i : Nat) (r : NameReg) : (s.setName i r).ws = s.ws := rfl
@[simp] theorem setName_agenda (s : State) (i : Nat) (r : NameReg) : (s.setName i r).agenda = s.agenda := rfl
@[simp] theorem setName_draws (s : State) (i : Nat) (r : NameReg) : (s.setName i r).draws = s.draws := rfl

/-! ### append -/

@[simp] theorem append_host (s : State) (e : Bytes) : (s.append e).host = s.host := by
  unfold State.append; split <;> rfl
@[simp] theorem append_rep (s : State) (e : Bytes) : (s.append e).rep = s.rep := by
  unfold State.append; split <;> rfl
@[simp] theorem append_seq (s : State) (e : Bytes) : (s.append e).seq = s.seq := by
  unfold State.append; split <;> rfl
@[simp] theorem append_ahx (s : State) (e : Bytes) : (s.append e).ahx = s.ahx := by
  unfold State.append; split <;> rfl
@[simp] theorem append_a85 (s : State) (e : Bytes) : (s.append e).a85 = s.a85 := by
  unfold State.append; split <;> rfl
@[simp] theorem append_rl (s : State) (e : Bytes) : (s.append e).rl = s.rl := by
  unfold State.append; split <;> rfl
@[simp] theorem append_ws (s : State) (e : Bytes) : (s.append e).ws = s.ws := by
  unfold State.append; split <;> rfl
@[simp] theorem append_agenda (s : State) (e : Bytes) : (s.append e).agenda = s.agenda := by
  unfold State.append; split <;> rfl
@[simp] theorem append_draws (s : State) (e : Bytes) : (s.append e).draws = s.draws := by
  unfold State.append; split <;> rfl
@[simp] theorem append_lzw_bp (s : State) (e : Bytes) : (s.append e).lzw.bp = s.lzw.bp := by
  unfold State.append; split <;> rfl
@[simp] theorem append_lzw_prev (s : State) (e : Bytes) : (s.append e).lzw.prev = s.lzw.prev := by
  unfold State.append; split <;> rfl
@[simp] theorem append_lzw_eod (s : State) (e : Bytes) : (s.append e).lzw.eod = s.lzw.eod := by
  unfold State.append; split <;> rfl

end Sys2Proof.Machine
end

