-- ==== Sys2Proof/Laws/Ops.lean ====
section
/-! SUPPORT. One lemma for each shared operation that says all it can do, for proofs to cite instead of unfolding it. -/

namespace Sys2Proof.Machine

/-! ## Numbers -/

@[simp] theorem clearCode_eq : Config.clearCode = 256 := rfl
@[simp] theorem eodCode_eq : Config.eodCode = 257 := rfl
@[simp] theorem firstFree_eq : Config.firstFree = 258 := rfl
@[simp] theorem dictSize_eq : Config.dictSize = 4096 := rfl

theorem bit_cases (v : BitVec 1) : v = 0#1 ∨ v = 1#1 := by
  revert v
  decide

theorem bits_pos (w : LzwWidth) : 9 ≤ w.bits ∧ w.bits ≤ 12 := by cases w <;> simp [LzwWidth.bits]

theorem streamBit_lt (s : Bytes) (k : Nat) : streamBit s k < 2 := Nat.mod_lt _ (by omega)

theorem readBits_lt (s : Bytes) (p w : Nat) : readBits s p w < 2 ^ w := by
  induction w with
  | zero => simp [readBits]
  | succ w ih =>
    have := streamBit_lt s (p + w)
    rw [readBits, Nat.pow_succ]
    omega

/-- A pair's byte as a number (R96). -/
theorem hexPair_toNat (h l : BitVec 4) : (hexPair h l).toNat = 16 * h.toNat + l.toNat := by
  revert h l
  decide

/-- `hexval` of a digit as a number (R95). -/
theorem hexval_toNat (c : Byte) :
    (hexval c).toNat = (if c.toNat ≤ 0x39 then c.toNat - 0x30 else if c.toNat ≤ 0x46 then c.toNat - 0x37
      else c.toNat - 0x57) % 16 := by
  simp [hexval]

/-! ## Host -/

theorem unlessBusy_of_busy {s : State} (t : State) (h : s.rep.status = .busy) : s.unlessBusy t = s := by
  simp [State.unlessBusy, h]

theorem unlessBusy_of_ne {s : State} (t : State) (h : s.rep.status ≠ .busy) : s.unlessBusy t = t := by
  simp [State.unlessBusy, h]

/-! ## Errors -/

/-- Taking an error always answers, and with the abort's state. -/
theorem raise_eq_next {k : ErrKind} {f : FilterId} {s t : State} : raise k f s = .next t ↔ t = s.aborted k f := by
  simp [raise, eq_comm]

/-! ## The dictionary -/

/-- All `append` can do (R218, R220). -/
theorem append_cases (s : State) (e : Bytes) :
    (s.lzw.next < 4096 ∧ (s.append e).lzw = { s.lzw with
        dict := Sparse.set [] s.lzw.dict s.lzw.next e
        next := s.lzw.next + 1
        width := widen s.lzw.width (s.lzw.next + 1) }) ∨
    (4096 ≤ s.lzw.next ∧ s.append e = s) := by
  by_cases h : s.lzw.next < 4096
  · exact .inl ⟨h, by simp [State.append, Config.dictSize, h]⟩
  · exact .inr ⟨by omega, by simp [State.append, Config.dictSize, h]⟩

theorem entry_literal (z : LzwRegs) {c : Nat} (h : c < 256) : z.entry c = [BitVec.ofNat 8 c] := by
  simp [LzwRegs.entry, h]

theorem entry_learned (z : LzwRegs) {c : Nat} (h : 258 ≤ c) (hc : c < z.next) :
    z.entry c = Sparse.get [] z.dict c := by
  have h1 : ¬ c < 256 := by omega
  have h2 : ¬ c < 258 := by omega
  simp [LzwRegs.entry, h1, h2, hc]

theorem entry_undefined (z : LzwRegs) {c : Nat} (h : 256 ≤ c) (hc : c < 258 ∨ z.next ≤ c) : z.entry c = [] := by
  have h1 : ¬ c < 256 := by omega
  simp only [LzwRegs.entry, h1, if_false, firstFree_eq]
  split
  · rfl
  · split
    · omega
    · rfl

/-- The widening rule follows the schedule (R218, R104). -/
theorem widen_schedule {n : Nat} (h : 258 ≤ n) : widen (lzwWidthFor n) (n + 1) = lzwWidthFor (n + 1) := by
  simp only [widen, lzwWidthFor]
  repeat' split
  all_goals first | rfl | omega

/-- All a known code can do (R216). -/
theorem lzwKnown_cases (c : Code) (s : State) :
    (∃ p b e, s.lzw.prev = some p ∧ s.lzw.entry c.toNat = b :: e ∧ s.lzw.entry p.toNat ≠ [] ∧
      lzwKnown c s = .next (((s.advanceBits.emit (b :: e)).append (s.lzw.entry p.toNat ++ [b])).setPrev c)) ∨
    (∃ f, lzwKnown c s = .fault f ∧
      (s.lzw.prev = none ∨ s.lzw.entry c.toNat = [] ∨ ∃ p, s.lzw.prev = some p ∧ s.lzw.entry p.toNat = [])) := by
  cases hp : s.lzw.prev with
  | none => exact .inr ⟨.noPreviousCode, by simp [lzwKnown, hp], .inl rfl⟩
  | some p =>
    cases hc : s.lzw.entry c.toNat with
    | nil => exact .inr ⟨.undefinedEntry c.toNat, by simp [lzwKnown, hp, hc], .inr (.inl rfl)⟩
    | cons b e =>
      cases hq : s.lzw.entry p.toNat with
      | nil => exact .inr ⟨.undefinedEntry p.toNat, by simp [lzwKnown, hp, hc, hq], .inr (.inr ⟨p, rfl, hq⟩)⟩
      | cons b' e' => exact .inl ⟨p, b, e, rfl, rfl, by simp [hq], by simp [lzwKnown, hp, hc, hq]⟩

/-- All an undefined code can do (R217). -/
theorem lzwUndef_cases (s : State) :
    (∃ p b e, s.lzw.prev = some p ∧ s.lzw.entry p.toNat = b :: e ∧
      lzwUndef s = .next (((s.advanceBits.emit (b :: e ++ [b])).append (b :: e ++ [b])).setPrev (BitVec.ofNat 12 s.lzw.next))) ∨
    (∃ f, lzwUndef s = .fault f ∧ (s.lzw.prev = none ∨ ∃ p, s.lzw.prev = some p ∧ s.lzw.entry p.toNat = [])) := by
  cases hp : s.lzw.prev with
  | none => exact .inr ⟨.noPreviousCode, by simp [lzwUndef, hp], .inl rfl⟩
  | some p =>
    cases hq : s.lzw.entry p.toNat with
    | nil => exact .inr ⟨.undefinedEntry p.toNat, by simp [lzwUndef, hp, hq], .inr ⟨p, rfl, hq⟩⟩
    | cons b e => exact .inl ⟨p, b, e, rfl, hq, by simp [lzwUndef, hp, hq]⟩

/-! ## The step -/

theorem nextAction_engine {s : State} (h : s.engineMoves) : nextAction s = engineAction s := by
  unfold nextAction
  rcases h with h | h
  · rw [h]
  · cases ha : s.agenda with
    | nil => rfl
    | cons x r =>
      rw [ha] at h
      simp only [List.head?_cons, Option.some.injEq] at h
      rw [h]

/-- All the stage end can do (R138). -/
theorem stageEnd_cases (s : State) :
    (∃ k, s.unitFinish = .error k ∧ stageEnd s = .next (s.aborted k s.seq.fid)) ∨
    (∃ t, s.unitFinish = .ok t ∧ stageEnd s = .next t.stageDone) := by
  unfold stageEnd
  cases h : s.unitFinish with
  | error k => exact .inl ⟨k, rfl, rfl⟩
  | ok t => exact .inr ⟨t, rfl, rfl⟩

/-! A step by its action. -/

theorem step_of_instr {s : State} {i : Instr} (h : nextAction s = .instr i) : step s = exec i s.popTurn := by
  unfold step
  rw [h]

theorem step_of_stageEnd {s : State} (h : nextAction s = .stageEnd) : step s = stageEnd s.popTurn := by
  unfold step
  rw [h]

theorem step_of_finish {s : State} (h : nextAction s = .finish) : step s = .next s.popTurn.finished := by
  unfold step
  rw [h]

theorem step_of_store {s : State} {w : HostWrite} (h : nextAction s = .store w) : step s = .next (hostStore w s.popTurn) := by
  unfold step
  rw [h]

theorem step_of_load {s : State} {r : HostReg} (h : nextAction s = .load r) : step s = .next (hostLoad r s.popTurn) := by
  unfold step
  rw [h]

theorem step_of_reset {s : State} (h : nextAction s = .reset) : step s = .next s.popTurn.resetInput := by
  unfold step
  rw [h]

theorem step_of_quiet {s : State} (h : nextAction s = .quiet) : step s = .next s.popTurn := by
  unfold step
  rw [h]

theorem step_of_stuck {s : State} {f : Fault} (h : nextAction s = .stuck f) : step s = .fault f := by
  unfold step
  rw [h]

/-- What the engine does next, case by case (R137 to R139). -/
theorem engineAction_cases (s : State) :
    (s.rep.status ≠ .busy ∧ engineAction s = .quiet) ∨
    (s.rep.status = .busy ∧ s.seq.phase = .dispatch ∧ s.seq.stage < s.seq.nStages ∧
      engineAction s = .instr (decodeName (s.name s.seq.stage))) ∨
    (s.rep.status = .busy ∧ s.seq.phase = .dispatch ∧ s.seq.stage = s.seq.nStages ∧ engineAction s = .finish) ∨
    (s.rep.status = .busy ∧ s.seq.phase = .dispatch ∧ s.seq.nStages < s.seq.stage ∧
      engineAction s = .stuck .stageOutOfRange) ∨
    (s.rep.status = .busy ∧ s.seq.phase = .run ∧ s.window = none ∧ engineAction s = .stuck .noActiveUnit) ∨
    (s.rep.status = .busy ∧ s.seq.phase = .run ∧ s.unitFinished = true ∧ engineAction s = .stageEnd) ∨
    (∃ x bs i, s.rep.status = .busy ∧ s.seq.phase = .run ∧ s.unitFinished = false ∧ s.window = some (x, bs) ∧
      decode x bs = .ok i ∧ engineAction s = .instr i) ∨
    (∃ x bs e, s.rep.status = .busy ∧ s.seq.phase = .run ∧ s.unitFinished = false ∧ s.window = some (x, bs) ∧
      decode x bs = .error e ∧ engineAction s = .stuck .srcOutOfRange) := by
  unfold engineAction
  cases hb : s.rep.status <;> simp only [ne_eq, reduceCtorEq, not_false_eq_true, not_true_eq_false, false_and, true_and,
    and_self, true_or, false_or, exists_const]
  cases hp : s.seq.phase <;> simp only [reduceCtorEq, false_and, true_and, false_or, or_false, exists_false]
  · rcases Nat.lt_trichotomy s.seq.stage s.seq.nStages with h | h | h
    · simp [h]
    · simp [h]
    · simp [h, Nat.not_lt.mpr h.le, Nat.ne_of_gt h]
  · cases hw : s.window with
    | none => simp
    | some w =>
      obtain ⟨x, bs⟩ := w
      cases hf : s.unitFinished with
      | true => simp
      | false =>
        cases hd : decode x bs with
        | ok i => simp [hd]
        | error e => simp [hd]

/-- No instruction is refused. -/
theorem exec_ne_refused (i : Instr) (s : State) (r : Refusal) : exec i s ≠ .refused r := by
  have known : ∀ c, lzwKnown c s ≠ .refused r := fun c => by
    rcases lzwKnown_cases c s with ⟨p, b, e, -, -, -, h⟩ | ⟨f, h, -⟩ <;> rw [h] <;> simp
  have undef : lzwUndef s ≠ .refused r := by
    rcases lzwUndef_cases s with ⟨p, b, e, -, -, h⟩ | ⟨f, h, -⟩ <;> rw [h] <;> simp
  cases i <;> simp only [exec]
  case nameFlate => unfold execNameFlate; split <;> simp [raise]
  case ahxDigit => unfold execAhxDigit; split <;> simp
  case a85Digit => unfold execA85Digit; dsimp only; split <;> simp
  case a85Z => unfold execA85Z; split <;> simp [raise]
  case rlLit => unfold execRlLit; split <;> simp [raise]
  case rlRep => unfold execRlRep; split <;> simp [raise]
  case lzwLit => exact known _
  case lzwRef => exact known _
  case lzwKwkwk => exact undef
  case lzwBeyond => exact undef
  all_goals simp [execStart, execDecode, execDecodeAll, execNameIdentity, execNameAhx, execNameA85, execNameLzw,
    execNameRl, execNameStubCcf, execNameStubJbig2, execNameStubDct, execNameStubJpx, execNameStubCrypt, raiseStub,
    execNameUnknown, raise, execAhxWs, execAhxEod, execAhxInvalid, execA85Ws, execA85Eod, execA85Tilde, execA85Invalid,
    execLzwClear, execLzwEod, execLzwFirst, execLzwFirstUndef, execRlEod]

end Sys2Proof.Machine
end

