-- ==== Sys2Proof/Laws/Invariant.lean ====
section
/-! SUPPORT. Each shared operation keeps the invariant of Safety.lean, and what the LZW steps do to the LZW invariants. -/

namespace Sys2Proof.Machine

/-! ## Windows -/

/-- The ASCIIHex unit's window. -/
theorem window_ahx {s : State} (h : s.seq.fid = .ahx) :
    s.window = some (.ahx s.ws, s.seq.src.drop s.seq.rp) := by
  simp [State.window, h]

/-- The ASCII85 unit's window. -/
theorem window_a85 {s : State} (h : s.seq.fid = .a85) :
    s.window = some (.a85 s.ws s.a85.tilde, s.seq.src.drop s.seq.rp) := by
  simp [State.window, h]

/-- The RunLength unit's window. -/
theorem window_rl {s : State} (h : s.seq.fid = .rl) : s.window = some (.rl, s.seq.src.drop s.seq.rp) := by
  simp [State.window, h]

/-- The LZW unit's window: the bytes from the one that holds stream bit `BP`, and the bit's place in it (R44). -/
theorem window_lzw {s : State} (h : s.seq.fid = .lzw) :
    s.window = some (.lzw (s.lzw.bp % 8) s.lzw.width s.lzw.next s.lzw.prev.isSome, s.seq.src.drop (s.lzw.bp / 8)) := by
  simp [State.window, h]

/-! ## The invariant of the machine -/

/-- Taking a turn off the agenda keeps the invariant. -/
theorem inv_popTurn {s : State} (h : s.Inv) : s.popTurn.Inv := by
  obtain ⟨h1,h2,h3,h4,h5,h6,h7,h8,h9,h10⟩ := h
  exact ⟨h1,h2,h3,h4,h5,h6,h7,h8,h9,h10⟩

/-- What a host write leaves keeps it, if the write keeps it outside `BUSY`. -/
theorem inv_unlessBusy {s t : State} (h : s.Inv) (ht : s.rep.status ≠ .busy → t.Inv) : (s.unlessBusy t).Inv := by
  by_cases hb : s.rep.status = .busy
  · rw [unlessBusy_of_busy _ hb]; exact h
  · rw [unlessBusy_of_ne _ hb]; exact ht hb

/-- `START` (R135). -/
theorem inv_started {s : State} (h : s.Inv) : s.started.Inv := by
  obtain ⟨h1,h2,h3,h4,h5,h6,h7,h8,h9,h10⟩ := h
  refine ⟨h1,h2,h3,h4,?_,?_,?_,?_,?_,?_⟩ <;> simp [State.started]

/-- New host registers outside `BUSY`. -/
theorem inv_host {s : State} (h : s.Inv) (hb : s.rep.status ≠ .busy) (H : HostRegs) (h1 : H.inBuf.wf)
    (h3 : Sparse.wf NameReg.unwritten H.names) (h4 : ∀ e ∈ H.names, e.2.bytes.wf) : State.Inv { s with host := H } := by
  obtain ⟨-,h2,-,-,h5,h6,h7,h8,h9,h10⟩ := h
  exact ⟨h1,h2,h3,h4,h5,h6,h7,fun hh => absurd hh hb,fun hh => absurd hh hb,fun hh => absurd hh hb⟩

/-- Every name register's bytes are in canonical form. -/
theorem nameReg_wf {s : State} (h : s.Inv) (i : Nat) : (s.nameReg i).bytes.wf := by
  have : ∀ (m : Sparse NameReg), (∀ e ∈ m, e.2.bytes.wf) → (Sparse.get NameReg.unwritten m i).bytes.wf := by
    intro m
    induction m with
    | nil => intro _; exact Memory.wf_nil
    | cons e m ih =>
      intro h
      obtain ⟨k, v⟩ := e
      simp only [Sparse.get]
      split
      · exact Memory.wf_nil
      · split
        · exact h (k, v) (by simp)
        · exact ih fun e he => h e (by simp [he])
  exact this _ h.nameBytesWf

/-- A name register written outside `BUSY`. -/
theorem inv_setName {s : State} (h : s.Inv) (hb : s.rep.status ≠ .busy) (i : Nat) (r : NameReg) (hr : r.bytes.wf) :
    (s.setName i r).Inv := by
  refine inv_host h hb _ h.inWf (Sparse.set_wf h.namesWf _ _) ?_
  intro e he
  rcases Sparse.mem_set he with rfl | he
  · exact hr
  · exact h.nameBytesWf e he

/-- The operation select. -/
theorem inv_writeOp {s : State} (h : s.Inv) (v) : (writeOp v s).Inv := by
  refine inv_unlessBusy h fun hb => inv_host h hb _ h.inWf h.namesWf h.nameBytesWf

/-- Every other host write (R330). -/
theorem inv_hostStore {s : State} (h : s.Inv) (w) : (hostStore w s).Inv := by
  cases w
  case cmd => exact h
  case op => exact inv_writeOp h _
  case plen => exact inv_unlessBusy h fun hb => inv_host h hb _ h.inWf h.namesWf h.nameBytesWf
  case nameByte i j b => exact inv_unlessBusy h fun hb => inv_setName h hb _ _ (Memory.write_wf (nameReg_wf h i) _ _)
  case nameLen i n => exact inv_unlessBusy h fun hb => inv_setName h hb _ _ (nameReg_wf h i)
  case inByte a b => exact inv_unlessBusy h fun hb => inv_host h hb _ (Memory.write_wf h.inWf _ _) h.namesWf h.nameBytesWf
  case inLen => exact inv_unlessBusy h fun hb => inv_host h hb _ h.inWf h.namesWf h.nameBytesWf

/-- Every host read (R70). -/
theorem inv_hostLoad {s : State} (h : s.Inv) (r) : (hostLoad r s).Inv := by
  unfold hostLoad
  split
  · obtain ⟨h1,h2,h3,h4,h5,h6,h7,h8,h9,h10⟩ := h
    exact ⟨h1,h2,h3,h4,h5,h6,h7,h8,h9,h10⟩
  · exact h

/-- The reset input (R320). -/
theorem inv_reset (s : State) : s.resetInput.Inv := by
  constructor <;> simp [State.resetInput, State.reset, Sparse.wf, Memory.wf]

/-- An abort with a cause that R281 lists (R290). -/
theorem inv_aborted {s : State} (h : s.Inv) {k f} (hc : errorCause k f = true) : (s.aborted k f).Inv := by
  obtain ⟨h1,h2,h3,h4,h5,h6,h7,h8,h9,h10⟩ := h
  refine ⟨h1,h2,h3,h4,?_,?_,?_,?_,?_,?_⟩ <;> simp [State.aborted, hc]

/-- The finishing step (R139). -/
theorem inv_finished {s : State} (h : s.Inv) (hb : s.rep.status = .busy) : s.finished.Inv := by
  obtain ⟨h1,h2,h3,h4,h5,h6,h7,h8,h9,h10⟩ := h
  refine ⟨h1,Memory.writeAll_wf h2 _ _,h3,h4,?_,?_,?_,?_,?_,?_⟩ <;> simp [State.finished]
  simpa using h6 (by simp [hb])

/-- Any change, during a run, of the sequencer's and the units' registers that keeps their ranges. -/
theorem inv_run {s t : State} (h : s.Inv) (ht : t.host = s.host) (hr : t.rep = s.rep)
    (h8 : t.seq.stage ≤ t.seq.nStages)
    (h9 : t.seq.phase = .run → t.seq.stage < t.seq.nStages ∧ t.seq.fid = lookup (t.name t.seq.stage) ∧ t.unitInv) : t.Inv := by
  obtain ⟨h1,h2,h3,h4,h5,h6,h7,_,_,_⟩ := h
  refine ⟨ht ▸ h1, hr ▸ h2, ht ▸ h3, ht ▸ h4, hr ▸ h5, hr ▸ h6, hr ▸ h7, fun _ => h8,
    fun _ hp => ⟨(h9 hp).1, (h9 hp).2.1⟩, fun _ hp => (h9 hp).2.2⟩

/-! ## The LZW invariants -/

/-- A code is only read where it fits (R211). -/
theorem lzwInv_advanceBits {s : State} (h : s.lzw.Inv s.seq.src.length) (hf : lzwFinished s = false) :
    s.advanceBits.lzw.Inv s.seq.src.length := by
  simp [lzwFinished] at hf
  obtain ⟨h1,h2,h3,h4,h5,h6,h7,h8⟩ := h
  refine ⟨h1,h2,h3,h4,h5,h6,h7,?_⟩
  have := bits_pos s.lzw.width
  show s.lzw.bp + s.lzw.width.bits ≤ _
  omega

/-- A defined entry has at least one byte and at most as many as R222 (e) allows. -/
theorem entry_len {z : LzwRegs} {n} (h : z.Inv n) {c : Nat} (hc : c < z.next) (h6 : c ≠ 256) (h7 : c ≠ 257) :
    1 ≤ (z.entry c).length ∧ (z.entry c).length ≤ max 1 (c - 256) ∧ (258 ≤ c → 2 ≤ (z.entry c).length) := by
  by_cases h8 : c < 256
  · rw [entry_literal z h8]; simp; omega
  · have h9 : 258 ≤ c := by omega
    rw [entry_learned z h9 hc]
    have := h.entries c hc h9
    omega

/-- `Append` and the new previous code keep the LZW invariants (R218, R222). -/
theorem lzwInv_append {s : State} {n} (h : s.lzw.Inv n) {e : Bytes} (h2 : 2 ≤ e.length) (he : e.length ≤ s.lzw.next - 256)
    {c : Code} (hc : c.toNat < (s.append e).lzw.next) (h6 : c.toNat ≠ 256) (h7 : c.toNat ≠ 257) :
    ((s.append e).setPrev c).lzw.Inv n := by
  have hne : e ≠ [] := by rintro rfl; simp at h2
  rcases append_cases s e with ⟨hn, ha⟩ | ⟨hn, ha⟩
  · obtain ⟨i1,i2,i3,i4,i5,i6,i7,i8⟩ := h
    rw [ha] at hc
    replace hc : c.toNat < s.lzw.next + 1 := hc
    simp only [State.setPrev, ha]
    refine ⟨by simp; omega, ?_, by simp, ?_, ?_, ?_, Sparse.set_wf i7 _ _, i8⟩
    · simp only [i2]; exact widen_schedule i1.1
    · simp only [Option.mem_some_iff, forall_eq']; exact ⟨h6, h7, hc⟩
    · intro d hd h8
      simp only at hd ⊢
      by_cases hdn : d = s.lzw.next
      · subst hdn; rw [Sparse.get_set_same i7]; exact ⟨h2, he⟩
      · rw [Sparse.get_set_other i7 hdn]; exact i5 d (by omega) h8
    · intro x hx
      rcases Sparse.mem_set hx with rfl | hx
      · simp; omega
      · have := i6 x hx; simp; omega
  · rw [ha] at hc ⊢
    obtain ⟨i1,i2,i3,i4,i5,i6,i7,i8⟩ := h
    refine ⟨i1,i2,by simp [State.setPrev],?_,i5,i6,i7,i8⟩
    simp [State.setPrev]; exact ⟨h6, h7, hc⟩

/-- `Append` never lowers `L_NEXT`. -/
theorem append_next_le (s : State) (e) : s.lzw.next ≤ (s.append e).lzw.next := by
  rcases append_cases s e with ⟨hn, ha⟩ | ⟨hn, ha⟩ <;> simp [ha]

/-- `Append` changes the LZW registers alone. -/
theorem append_other (s : State) (e) : (s.append e).host = s.host ∧ (s.append e).rep = s.rep ∧ (s.append e).seq = s.seq := by
  unfold State.append; split <;> exact ⟨rfl,rfl,rfl⟩

/-- What a step of the LZW unit leaves: its invariants, and every register but the unit's own and `DST`. -/
structure LzwMove (s t : State) : Prop where
  inv : t.lzw.Inv s.seq.src.length
  host : t.host = s.host
  rep : t.rep = s.rep
  seq : t.seq = { s.seq with dst := t.seq.dst }
  bp : t.lzw.bp = s.lzw.bp + s.lzw.width.bits
  dst : s.seq.dst <+: t.seq.dst

/-- All a known code does to a state that meets the LZW invariants (R216). -/
theorem known_step {s : State} (h : s.lzw.Inv s.seq.src.length) (hf : lzwFinished s = false) {c : Code}
    (hc : c.toNat < s.lzw.next) (h6 : c.toNat ≠ 256) (h7 : c.toNat ≠ 257) (hp : s.lzw.prev ≠ none) :
    ∃ t, lzwKnown c s = .next t ∧ LzwMove s t := by
  rcases lzwKnown_cases c s with ⟨p, b, e, hp, hc', hq, ht⟩ | ⟨f, -, hx⟩
  · refine ⟨_, ht, ?_⟩
    have ip := h.prevDefined p hp
    have lp := entry_len h ip.2.2 ip.1 ip.2.1
    obtain ⟨a1, a2, a3⟩ := append_other (s.advanceBits.emit (b :: e)) (s.lzw.entry p.toNat ++ [b])
    refine ⟨?_, a1, a2, by show _ = _; rw [setPrev_seq, a3]; rfl, ?_,
      by show _ <+: _; rw [setPrev_seq, a3]; exact ⟨_, rfl⟩⟩
    · refine lzwInv_append (s := s.advanceBits.emit (b :: e)) (lzwInv_advanceBits h hf) ?_ ?_ ?_ h6 h7
      · simp; omega
      · have := h.nextRange
        simp; omega
      · exact lt_of_lt_of_le hc (append_next_le (s.advanceBits.emit (b :: e)) _)
    · show (State.append _ _).lzw.bp = _
      rcases append_cases (s.advanceBits.emit (b :: e)) (s.lzw.entry p.toNat ++ [b]) with ⟨-, ha⟩ | ⟨-, ha⟩ <;>
        rw [ha] <;> rfl
  · rcases hx with hx | hx | ⟨p, hp, hq⟩
    · exact absurd hx hp
    · have := entry_len h hc h6 h7
      rw [hx] at this; simp at this
    · have ip := h.prevDefined p hp
      have lp := entry_len h ip.2.2 ip.1 ip.2.1
      rw [hq] at lp; simp at lp

/-- All an undefined code does to a state that meets the LZW invariants (R217). -/
theorem undef_step {s : State} (h : s.lzw.Inv s.seq.src.length) (hf : lzwFinished s = false) (hn : s.lzw.next < 4096)
    (hp : s.lzw.prev ≠ none) : ∃ t, lzwUndef s = .next t ∧ LzwMove s t := by
  rcases lzwUndef_cases s with ⟨p, b, e, hp, hq, ht⟩ | ⟨f, -, hx⟩
  · refine ⟨_, ht, ?_⟩
    have ip := h.prevDefined p hp
    have lp := entry_len h ip.2.2 ip.1 ip.2.1
    rw [hq] at lp
    have hc : (BitVec.ofNat 12 s.lzw.next).toNat = s.lzw.next := by simp; omega
    have h8 := h.nextRange
    obtain ⟨a1, a2, a3⟩ := append_other (s.advanceBits.emit (b :: e ++ [b])) (b :: e ++ [b])
    refine ⟨?_, a1, a2, by show _ = _; rw [setPrev_seq, a3]; rfl, ?_,
      by show _ <+: _; rw [setPrev_seq, a3]; exact ⟨_, rfl⟩⟩
    · refine lzwInv_append (s := s.advanceBits.emit (b :: e ++ [b])) (lzwInv_advanceBits h hf) ?_ ?_ ?_ (by omega) (by omega)
      · simp
      · show _ ≤ s.lzw.next - 256
        have l1 := lp.2.1
        have l2 := ip.2.2
        simp only [List.length_cons, List.length_append, List.length_nil] at l1 ⊢
        omega
      · rw [hc]
        rcases append_cases (s.advanceBits.emit (b :: e ++ [b])) (b :: e ++ [b]) with ⟨-, ha⟩ | ⟨hn', ha⟩
        · rw [ha]; show s.lzw.next < s.lzw.next + 1; omega
        · exfalso; have : 4096 ≤ s.lzw.next := hn'; omega
    · show (State.append _ _).lzw.bp = _
      rcases append_cases (s.advanceBits.emit (b :: e ++ [b])) (b :: e ++ [b]) with ⟨-, ha⟩ | ⟨-, ha⟩ <;>
        rw [ha] <;> rfl
  · rcases hx with hx | ⟨p, hp, hq⟩
    · exact absurd hx hp
    · have ip := h.prevDefined p hp
      have lp := entry_len h ip.2.2 ip.1 ip.2.1
      rw [hq] at lp; simp at lp

end Sys2Proof.Machine
end

