-- ==== Sys2Proof/Laws/PerInstr.lean ====
section
/-! SUPPORT. The per-instruction family `Length`: how many bytes an instruction's encoding takes in a context it belongs to
(spec/30_encoding.md R109, R91, R101). A RunLength unit's payload is data after its control byte. -/

namespace Sys2Proof.Laws.Length

/-- The bytes that hold a code of an LZW context: those of the bits in front of it and its own, rounded up (R66, R101). -/
def codeBytes (x : Ctx) : Nat :=
  match x with
  | .lzw off w _ _ => (off + codeBits w + 7) / 8
  | _ => 0

/-- The number of bytes of an instruction. -/
def bytesOf (x : Ctx) (i : Instr) : Nat :=
  match i with
  | .start => 1
  | .decode => 1
  | .decodeAll => 1
  | .nameIdentity => 0
  | .nameAhx => 14
  | .nameA85 => 13
  | .nameLzw => 9
  | .nameFlate => 11
  | .nameRl => 15
  | .nameStubCcf => 14
  | .nameStubJbig2 => 11
  | .nameStubDct => 9
  | .nameStubJpx => 9
  | .nameStubCrypt => 5
  | .nameUnknown n => n.length
  | .ahxWs _ => 1
  | .ahxEod => 1
  | .ahxDigit _ => 1
  | .ahxInvalid _ => 1
  | .a85Ws _ => 1
  | .a85Eod => 1
  | .a85Tilde => 1
  | .a85Z => 1
  | .a85Digit _ => 1
  | .a85Invalid _ => 1
  | .lzwClear => codeBytes x
  | .lzwEod => codeBytes x
  | .lzwFirst _ => codeBytes x
  | .lzwFirstUndef _ => codeBytes x
  | .lzwLit _ => codeBytes x
  | .lzwRef _ => codeBytes x
  | .lzwKwkwk _ => codeBytes x
  | .lzwBeyond _ => codeBytes x
  | .rlLit _ => 1
  | .rlEod => 1
  | .rlRep _ => 1

/-- In every context an instruction is a reading of, its encoding has the length the tables give it. -/
def Statement (i : Instr) : Prop :=
  ∀ x : Ctx, i.wellFormed x = true → (encode x i).length = bytesOf x i

theorem codeBits_eq (w : LzwWidth) : w.bits = codeBits w := by cases w <;> rfl

/-- A code in an LZW context takes the bytes it touches. -/
theorem encodeCode_length (x : Ctx) (v : Nat) (h : ∃ off w next prev, x = .lzw off w next prev) :
    (encodeCode x v).length = codeBytes x := by
  obtain ⟨off, w, next, prev, rfl⟩ := h
  simp [encodeCode, packCode, codeBytes, codeBits_eq]

theorem start : Statement .start := fun _ _ => rfl

theorem decode : Statement .decode := fun _ _ => rfl

theorem decodeAll : Statement .decodeAll := fun _ _ => rfl

theorem nameIdentity : Statement .nameIdentity := fun _ _ => rfl

theorem nameAhx : Statement .nameAhx := fun _ _ => rfl

theorem nameA85 : Statement .nameA85 := fun _ _ => rfl

theorem nameLzw : Statement .nameLzw := fun _ _ => rfl

theorem nameFlate : Statement .nameFlate := fun _ _ => rfl

theorem nameRl : Statement .nameRl := fun _ _ => rfl

theorem nameStubCcf : Statement .nameStubCcf := fun _ _ => rfl

theorem nameStubJbig2 : Statement .nameStubJbig2 := fun _ _ => rfl

theorem nameStubDct : Statement .nameStubDct := fun _ _ => rfl

theorem nameStubJpx : Statement .nameStubJpx := fun _ _ => rfl

theorem nameStubCrypt : Statement .nameStubCrypt := fun _ _ => rfl

theorem nameUnknown (n : Bytes) : Statement (.nameUnknown n) := fun _ _ => rfl

theorem ahxWs (c : Byte) : Statement (.ahxWs c) := fun _ _ => rfl

theorem ahxEod : Statement .ahxEod := fun _ _ => rfl

theorem ahxDigit (c : Byte) : Statement (.ahxDigit c) := fun _ _ => rfl

theorem ahxInvalid (c : Byte) : Statement (.ahxInvalid c) := fun _ _ => rfl

theorem a85Ws (c : Byte) : Statement (.a85Ws c) := fun _ _ => rfl

theorem a85Eod : Statement .a85Eod := fun _ _ => rfl

theorem a85Tilde : Statement .a85Tilde := fun _ _ => rfl

theorem a85Z : Statement .a85Z := fun _ _ => rfl

theorem a85Digit (c : Byte) : Statement (.a85Digit c) := fun _ _ => rfl

theorem a85Invalid (c : Byte) : Statement (.a85Invalid c) := fun _ _ => rfl

theorem lzwClear : Statement .lzwClear := fun x h =>
  encodeCode_length x _ (by cases x <;> simp_all [Instr.wellFormed])

theorem lzwEod : Statement .lzwEod := fun x h =>
  encodeCode_length x _ (by cases x <;> simp_all [Instr.wellFormed])

theorem lzwFirst (b : Byte) : Statement (.lzwFirst b) := fun x h =>
  encodeCode_length x _ (by cases x <;> simp_all [Instr.wellFormed])

theorem lzwFirstUndef (v : Code) : Statement (.lzwFirstUndef v) := fun x h =>
  encodeCode_length x _ (by cases x <;> simp_all [Instr.wellFormed])

theorem lzwLit (b : Byte) : Statement (.lzwLit b) := fun x h =>
  encodeCode_length x _ (by cases x <;> simp_all [Instr.wellFormed])

theorem lzwRef (v : Code) : Statement (.lzwRef v) := fun x h =>
  encodeCode_length x _ (by cases x <;> simp_all [Instr.wellFormed])

theorem lzwKwkwk (v : Code) : Statement (.lzwKwkwk v) := fun x h =>
  encodeCode_length x _ (by cases x <;> simp_all [Instr.wellFormed])

theorem lzwBeyond (v : Code) : Statement (.lzwBeyond v) := fun x h =>
  encodeCode_length x _ (by cases x <;> simp_all [Instr.wellFormed])

theorem rlLit (n : BitVec 7) : Statement (.rlLit n) := fun _ _ => rfl

theorem rlEod : Statement .rlEod := fun _ _ => rfl

theorem rlRep (n : BitVec 7) : Statement (.rlRep n) := fun _ _ => rfl

end Sys2Proof.Laws.Length
end

