-- ==== Sys2Proof/Tests/Slice0.lean ====
section
/-! SUPPORT. The model's own tests: the WellFormed smoke tests, the decoding of a word of every constructor written out from
the spec's tables, steps on small states with results from the spec's examples, and a witness for the hypotheses of every
statement that has some. -/

namespace Sys2Proof.Tests

open Sys2Proof.Machine

/-! ## Helpers -/

/-- The next state of an answer. -/
def nextOf (o : Answer) : Option State :=
  match o with
  | .next t => some t
  | .fault _ => none
  | .refused _ => none

/-- A view of the next state of an instruction. -/
def after {α : Type} (i : Instr) (s : State) (f : State → α) : Option α := (nextOf (exec i s)).map f

/-- A view of the next state of a step. -/
def stepped {α : Type} (s : State) (f : State → α) : Option α := (nextOf (step s)).map f

/-- What an error leaves in the report. -/
def errorOf (s : State) : Nat × Nat × Nat × Nat × Nat :=
  (s.rep.status.code, s.rep.errKind.code, s.rep.errStage, s.rep.errFid.code, s.rep.outLen)

/-- The name register that holds some bytes. -/
def nameOf (n : Bytes) : NameReg := { len := n.length, bytes := Memory.writeAll [] 0 n }

/-- A run of one stage of a name on some bytes, about to dispatch it. -/
def dispatching (n src : Bytes) : State :=
  { State.reset with
    host := { State.reset.host with names := Sparse.set NameReg.unwritten [] 0 (nameOf n) }
    rep := { State.reset.rep with status := .busy }
    seq := { State.reset.seq with nStages := 1, src := src } }

/-- The unit of `f` running on some bytes, with `NAME[0]` its name. -/
def running (f : FilterId) (src : Bytes) : State :=
  let s := dispatching (nameBytes f) src
  { s with seq := { s.seq with phase := .run, fid := f } }

/-- An ASCIIHex unit with a digit held. -/
def ahxHolding (h : Option (BitVec 4)) (src : Bytes) : State :=
  { running .ahx src with ahx := { hi := h, eod := false } }

/-- An ASCII85 unit inside a group. -/
def a85At (tuple : BitVec 32) (pos : Fin 5) (src : Bytes) : State :=
  { running .a85 src with a85 := { tuple := tuple, pos := pos, tilde := false, eod := false } }

/-- An LZW unit with the width for its `L_NEXT`. -/
def lzwAt (next : Nat) (prev : Option Code) (dict : Sparse Bytes) (src : Bytes) : State :=
  { running .lzw src with
    lzw := { bp := 0, width := lzwWidthFor next, next := next, prev := prev, eod := false, dict := dict } }

/-- A state in which the host is to move. -/
def hostTurn (t : Turn) (st : Status) : State :=
  { State.reset with rep := { State.reset.rep with status := st }, agenda := [t] }

/-! ## WellFormed refuses an ill-formed term for each of its checks -/

theorem test_start_not_op : Instr.wellFormed .op .start = false := by decide
theorem test_decode_not_cmd : Instr.wellFormed .cmd .decode = false ∧ Instr.wellFormed .cmd .decodeAll = false := by decide
theorem test_names_not_stream : ∀ i ∈ [Instr.nameIdentity, .nameAhx, .nameA85, .nameLzw, .nameFlate, .nameRl, .nameStubCcf,
    .nameStubJbig2, .nameStubDct, .nameStubJpx, .nameStubCrypt, .nameUnknown [0x41#8]],
    i.wellFormed .rl = false := by decide
theorem test_unknown_not_recognised :
    Instr.wellFormed .name (.nameUnknown []) = false ∧
    Instr.wellFormed .name (.nameUnknown [0x43#8, 0x72#8, 0x79#8, 0x70#8, 0x74#8]) = false := by decide
theorem test_ahxWs_not_ws :
    Instr.wellFormed (.ahx Config.defaultWs) (.ahxWs 0x00#8) = false ∧
    Instr.wellFormed (.ahx [0x41#8]) (.ahxWs 0x41#8) = false ∧ Instr.wellFormed .rl (.ahxWs 0x20#8) = false := by decide
theorem test_ahxEod_not_a85 : Instr.wellFormed (.a85 [] true) .ahxEod = false := by decide
theorem test_ahxDigit_not_digit : ∀ c ∈ [0x2F#8, 0x3A#8, 0x40#8, 0x47#8, 0x60#8, 0x67#8],
    Instr.wellFormed (.ahx []) (.ahxDigit c) = false := by decide
theorem test_ahxInvalid_not_invalid : ∀ c ∈ [0x20#8, 0x3E#8, 0x30#8, 0x66#8],
    Instr.wellFormed (.ahx []) (.ahxInvalid c) = false := by decide
theorem test_a85Ws_not_ws : Instr.wellFormed (.a85 Config.defaultWs false) (.a85Ws 0x21#8) = false := by decide
theorem test_a85Eod_needs_tilde : Instr.wellFormed (.a85 [] false) .a85Eod = false := by decide
theorem test_a85_after_tilde : Instr.wellFormed (.a85 [] true) .a85Tilde = false ∧
    Instr.wellFormed (.a85 [] true) .a85Z = false ∧ Instr.wellFormed (.a85 [] true) (.a85Digit 0x21#8) = false := by decide
theorem test_a85Digit_not_digit : Instr.wellFormed (.a85 [] false) (.a85Digit 0x20#8) = false ∧
    Instr.wellFormed (.a85 [] false) (.a85Digit 0x76#8) = false := by decide
theorem test_a85Invalid_not_invalid : ∀ c ∈ [0x20#8, 0x21#8, 0x75#8, 0x7A#8, 0x7E#8],
    Instr.wellFormed (.a85 [] false) (.a85Invalid c) = false := by decide
theorem test_a85Invalid_not_marker : Instr.wellFormed (.a85 [] true) (.a85Invalid 0x3E#8) = false := by decide
theorem test_lzw_not_rl : Instr.wellFormed .rl .lzwClear = false ∧ Instr.wellFormed .rl .lzwEod = false := by decide
theorem test_lzw_first_has_no_prev : Instr.wellFormed (.lzw 0 .w9 258 true) (.lzwFirst 65#8) = false ∧
    Instr.wellFormed (.lzw 0 .w9 258 true) (.lzwFirstUndef 300#12) = false := by decide
theorem test_lzw_undef_range : Instr.wellFormed (.lzw 0 .w9 258 false) (.lzwFirstUndef 257#12) = false ∧
    Instr.wellFormed (.lzw 0 .w9 258 false) (.lzwFirstUndef 512#12) = false := by decide
theorem test_lzw_known_has_prev : Instr.wellFormed (.lzw 0 .w9 300 false) (.lzwLit 65#8) = false ∧
    Instr.wellFormed (.lzw 0 .w9 300 false) (.lzwRef 260#12) = false := by decide
theorem test_lzw_ref_range : Instr.wellFormed (.lzw 0 .w9 300 true) (.lzwRef 257#12) = false ∧
    Instr.wellFormed (.lzw 0 .w9 300 true) (.lzwRef 300#12) = false := by decide
theorem test_lzw_kwkwk_beyond_range : Instr.wellFormed (.lzw 0 .w9 300 true) (.lzwKwkwk 301#12) = false ∧
    Instr.wellFormed (.lzw 0 .w9 300 true) (.lzwBeyond 300#12) = false ∧
    Instr.wellFormed (.lzw 0 .w9 300 true) (.lzwBeyond 512#12) = false := by decide
theorem test_rl_only_rl : Instr.wellFormed .cmd (.rlLit 0#7) = false ∧ Instr.wellFormed .cmd .rlEod = false := by decide
theorem test_rlRep_not_eod : Instr.wellFormed .rl (.rlRep 0#7) = false := by decide

/-! ## A word of every constructor, written out from the tables of spec/30_encoding.md -/

/-- R90, R21: `CMD = 1`; `OP = 0`, `OP = 1`. `CMD = 0` is no command. -/
theorem test_decode_host :
    decode .cmd [0b1#8] = .ok .start ∧ decode .cmd [0b0#8] = .error .noCommand ∧
    decode .op [0b0#8] = .ok .decode ∧ decode .op [0b1#8] = .ok .decodeAll := by decide

/-- R91: the ten spellings and the empty name. -/
theorem test_decode_names :
    decode .name [] = .ok .nameIdentity ∧
    decode .name (asciiBytes "ASCIIHexDecode".toList) = .ok .nameAhx ∧
    decode .name (asciiBytes "ASCII85Decode".toList) = .ok .nameA85 ∧
    decode .name (asciiBytes "LZWDecode".toList) = .ok .nameLzw ∧
    decode .name (asciiBytes "FlateDecode".toList) = .ok .nameFlate ∧
    decode .name (asciiBytes "RunLengthDecode".toList) = .ok .nameRl ∧
    decode .name (asciiBytes "CCITTFaxDecode".toList) = .ok .nameStubCcf ∧
    decode .name (asciiBytes "JBIG2Decode".toList) = .ok .nameStubJbig2 ∧
    decode .name (asciiBytes "DCTDecode".toList) = .ok .nameStubDct ∧
    decode .name (asciiBytes "JPXDecode".toList) = .ok .nameStubJpx ∧
    decode .name (asciiBytes "Crypt".toList) = .ok .nameStubCrypt := by decide

/-- R92: no case folding, no trimming, no abbreviation, no terminating zero, no slash. -/
theorem test_decode_unknown_names :
    ∀ n ∈ ["asciihexdecode", "ASCIIHexDecode ", "/ASCIIHexDecode", "AHx", "LZW", "Fl"],
      lookup (asciiBytes n.toList) = .unknown := by decide

/-- R94. -/
theorem test_decode_ahx :
    decode (.ahx Config.defaultWs) [0b00001011#8] = .ok (.ahxWs 0x0B#8) ∧
    decode (.ahx Config.defaultWs) [0b00111110#8] = .ok .ahxEod ∧
    decode (.ahx Config.defaultWs) [0b01000110#8] = .ok (.ahxDigit 0x46#8) ∧
    decode (.ahx Config.defaultWs) [0b01000111#8] = .ok (.ahxInvalid 0x47#8) ∧
    decode (.ahx Config.defaultWs) [0b00000000#8] = .ok (.ahxInvalid 0x00#8) := by decide

/-- R97. -/
theorem test_decode_a85 :
    decode (.a85 Config.defaultWs true) [0b00100000#8] = .ok (.a85Ws 0x20#8) ∧
    decode (.a85 Config.defaultWs true) [0b00111110#8] = .ok .a85Eod ∧
    decode (.a85 Config.defaultWs false) [0b01111110#8] = .ok .a85Tilde ∧
    decode (.a85 Config.defaultWs true) [0b01111110#8] = .ok (.a85Invalid 0x7E#8) ∧
    decode (.a85 Config.defaultWs false) [0b01111010#8] = .ok .a85Z ∧
    decode (.a85 Config.defaultWs false) [0b01110101#8] = .ok (.a85Digit 0x75#8) ∧
    decode (.a85 Config.defaultWs false) [0b01110110#8] = .ok (.a85Invalid 0x76#8) := by decide

/-- R103, R101, R12: codes of 9 to 12 bits, within and across bytes. -/
theorem test_decode_lzw :
    decode (.lzw 0 .w9 258 false) [0b10000000#8, 0b00000000#8] = .ok .lzwClear ∧
    decode (.lzw 4 .w12 4096 true) [0b11110001#8, 0b00000001#8] = .ok .lzwEod ∧
    decode (.lzw 3 .w9 258 false) [0b11100010#8, 0b11010000#8] = .ok (.lzwFirst 0x2D#8) ∧
    decode (.lzw 0 .w9 258 false) [0b10010110#8, 0b01111111#8] = .ok (.lzwFirstUndef 300#12) ∧
    decode (.lzw 7 .w10 511 true) [0b11111110#8, 0b00100000#8, 0b11111111#8] = .ok (.lzwLit 0x41#8) ∧
    decode (.lzw 0 .w11 1023 true) [0b01111111#8, 0b11000000#8] = .ok (.lzwRef 1022#12) ∧
    decode (.lzw 0 .w9 258 true) [0b10000001#8, 0b00000000#8] = .ok (.lzwKwkwk 258#12) ∧
    decode (.lzw 0 .w12 2047 true) [0b11111111#8, 0b11111111#8] = .ok (.lzwBeyond 4095#12) ∧
    decode (.lzw 0 .w9 258 false) [0b10000000#8] = .error .noInput := by decide

/-- R106. -/
theorem test_decode_rl :
    decode .rl [0b01111111#8] = .ok (.rlLit 127#7) ∧ decode .rl [0b00000000#8] = .ok (.rlLit 0#7) ∧
    decode .rl [0b10000000#8] = .ok .rlEod ∧
    decode .rl [0b10000001#8] = .ok (.rlRep 1#7) ∧ decode .rl [0b11111111#8] = .ok (.rlRep 127#7) := by decide

/-- The host's table words. -/
theorem test_table_words :
    decodeTableWord 1 0 = some .decode ∧ decodeTableWord 1 1 = some .start ∧ decodeTableWord 0 0 = some .nameIdentity ∧
    decodeTableWord 8 0x3E = some .ahxEod ∧ decodeTableWord 8 0x7E = some .a85Tilde ∧
    decodeTableWord 8 0x7A = some .a85Z ∧ decodeTableWord 16 0x100 = some .lzwClear ∧
    decodeTableWord 16 0x101 = some .lzwEod ∧ decodeTableWord 8 0x80 = some .rlEod ∧
    decodeTableWord 8 0 = some (.rlLit 0#7) ∧ decodeTableWord 40 0x4372797074 = some .nameStubCrypt := by decide

/-- The step after a table word is placed runs it. -/
theorem test_withFetchWord_ahx : stepped (State.reset.withFetchWord 8 0x3E) (·.ahx.eod) = some true := by decide
theorem test_withFetchWord_rl : stepped (State.reset.withFetchWord 8 0xFF) (·.seq.dst) = some [0#8, 0#8] := by decide
theorem test_withFetchWord_lzw : stepped (State.reset.withFetchWord 16 0x100) (·.lzw.bp) = some 9 := by decide
theorem test_withFetchWord_name :
    stepped (State.reset.withFetchWord 40 0x4372797074) errorOf = some (3, 3, 0, 10, 0) := by decide
theorem test_withFetchWord_start : stepped (State.reset.withFetchWord 1 1) (·.rep.status) = some .busy := by decide

/-! ## Steps -/

/-- R135: `OP = 1`, `PLEN = 2`, one byte of input. -/
theorem test_start :
    after .start { State.reset with host := { op := 1#1, plen := 2, names := [], inBuf := [(0, 7#8)], inLen := 1 } }
      (fun t => (t.rep.status, t.seq.nStages, t.seq.stage, t.seq.src)) = some (.busy, 2, 0, [7#8]) := by decide

/-- R135: with `OP = 0` the run has one stage even if `PLEN = 0`. -/
theorem test_start_decode : after .start State.reset (fun t => t.seq.nStages) = some 1 := by decide

theorem test_decode_op : after .decode State.reset (·.host.op) = some 0#1 := by decide
theorem test_decodeAll_op : after .decodeAll State.reset (·.host.op) = some 1#1 ∧
    after .decodeAll (hostTurn .engine .busy) (·.host.op) = some 0#1 := by decide

/-- R134. -/
theorem test_identity : stepped (dispatching [] [0#8, 255#8]) (fun t => (t.seq.stage, t.seq.src, t.seq.phase)) =
    some (1, [0#8, 255#8], .dispatch) := by decide

theorem test_nameAhx : after .nameAhx (ahxHolding (some 4#4) []) (fun t => (t.seq.phase, t.seq.fid.code, t.hxHave)) =
    some (.run, 1, false) := by decide
theorem test_nameA85 : after .nameA85 (a85At 9#32 3 []) (fun t => (t.seq.phase, t.seq.fid.code, t.a85.tuple, t.a85.pos.val)) =
    some (.run, 2, 0#32, 0) := by decide
theorem test_nameLzw : after .nameLzw (lzwAt 600 (some 65#12) [(258, [1#8, 2#8])] [])
    (fun t => (t.seq.fid.code, t.lzw.next, t.lzw.width.bits, t.lzw.entry 258)) = some (3, 258, 9, []) := by decide
theorem test_nameRl : after .nameRl { running .rl [] with rl := { eod := true } } (fun t => (t.seq.fid.code, t.rl.eod)) =
    some (5, false) := by decide

/-- R270: whatever `INFLATE` answers, the step completes. -/
theorem test_nameFlate (s : State) : (nextOf (exec .nameFlate s)).isSome = true := by
  simp only [exec, execNameFlate]
  cases Config.inflate s.seq.src <;> rfl

/-- R137: with `NAME[0] = "Crypt"` and no input the first dispatch raises NotImplemented, stage 0, id 10. -/
theorem test_stubs :
    ∀ p ∈ [("Crypt", 10), ("CCITTFaxDecode", 6), ("JBIG2Decode", 7), ("DCTDecode", 8), ("JPXDecode", 9)],
      stepped (dispatching (asciiBytes p.1.toList) []) errorOf = some (3, 3, 0, p.2, 0) := by decide

/-- R282. -/
theorem test_unknown : stepped (dispatching (asciiBytes "lzwdecode".toList) []) errorOf = some (3, 1, 0, 15, 0) := by decide

/-- R167: `HX_HAVE = 1`, `HX_HI = 4`, byte 0x20. -/
theorem test_ahxWs : stepped (ahxHolding (some 4#4) [0x20#8]) (fun t => (t.seq.rp, t.ahx.hi)) = some (1, some 4#4) := by decide
theorem test_ahxEod : stepped (running .ahx [0x3E#8, 0x7A#8]) (fun t => (t.seq.rp, t.ahx.eod)) = some (1, true) := by decide
/-- R169: `6` is held; `a` after it emits 0x6A. -/
theorem test_ahxDigit_first : stepped (running .ahx [0x36#8]) (fun t => (t.ahx.hi, t.seq.dst)) = some (some 6#4, []) := by decide
theorem test_ahxDigit_second : stepped (ahxHolding (some 6#4) [0x61#8]) (fun t => (t.ahx.hi, t.seq.dst)) =
    some (none, [0x6A#8]) := by decide
theorem test_ahxInvalid : stepped (ahxHolding (some 4#4) [0x47#8]) errorOf = some (3, 2, 0, 1, 0) := by decide
/-- R171: `7>` gives 07. -/
theorem test_ahx_finish : stepped { running .ahx [] with ahx := { hi := some 7#4, eod := true } }
    (fun t => (t.seq.src, t.seq.stage)) = some ([7#8], 1) := by decide

theorem test_a85Ws : stepped { running .a85 [0x0A#8] with a85 := { tuple := 0#32, pos := 0, tilde := true, eod := false } }
    (fun t => (t.seq.rp, t.a85.tilde)) = some (1, true) := by decide
theorem test_a85Tilde : stepped (running .a85 [0x7E#8]) (fun t => (t.seq.rp, t.a85.tilde)) = some (1, true) := by decide
theorem test_a85Eod : stepped { running .a85 [0x3E#8] with a85 := { tuple := 0#32, pos := 0, tilde := true, eod := false } }
    (fun t => (t.a85.eod, t.seq.dst)) = some (true, []) := by decide
/-- R195: `5` at position 0; `,` as the fifth digit emits 41 42 43 44. -/
theorem test_a85Digit_first : stepped (running .a85 [0x35#8]) (fun t => (t.a85.tuple, t.a85.pos.val)) =
    some (1044012500#32, 1) := by decide
theorem test_a85Digit_fifth : stepped (a85At 1094861625#32 4 [0x2C#8]) (fun t => (t.seq.dst, t.a85.tuple, t.a85.pos.val)) =
    some ([0x41#8, 0x42#8, 0x43#8, 0x44#8], 0#32, 0) := by decide
theorem test_a85Z : stepped (running .a85 [0x7A#8]) (·.seq.dst) = some [0#8, 0#8, 0#8, 0#8] ∧
    stepped (a85At 1044012500#32 1 [0x7A#8]) errorOf = some (3, 2, 0, 2, 0) := by decide
theorem test_a85Invalid : stepped (running .a85 [0x76#8]) errorOf = some (3, 2, 0, 2, 0) ∧
    stepped { running .a85 [0x7E#8] with a85 := { tuple := 0#32, pos := 0, tilde := true, eod := false } } errorOf =
      some (3, 2, 0, 2, 0) := by decide
/-- R198: 1090071875 at position 2 finishes as 41. -/
theorem test_a85_finish : stepped (a85At 1090071875#32 2 []) (·.seq.src) = some [0x41#8] := by decide

/-- R214: from `L_NEXT = 511`, `L_WIDTH = 10`, `L_PREV = 253`. -/
theorem test_lzwClear : after .lzwClear (lzwAt 511 (some 253#12) [] [])
    (fun t => (t.lzw.next, t.lzw.width.bits, t.lzw.prev, t.lzw.bp)) = some (258, 9, none, 10) := by decide
theorem test_lzwEod : after .lzwEod (lzwAt 258 none [] []) (fun t => (t.lzw.eod, t.lzw.bp, t.seq.dst)) =
    some (true, 9, []) := by decide
/-- R213: code 65 in the start state. -/
theorem test_lzwFirst : after (.lzwFirst 65#8) (lzwAt 258 none [] []) (fun t => (t.seq.dst, t.lzw.prev, t.lzw.next)) =
    some ([0x41#8], some 65#12, 258) := by decide
/-- R219: code 300 in the start state. -/
theorem test_lzwFirstUndef : after (.lzwFirstUndef 300#12) (lzwAt 258 none [] [])
    (fun t => (t.seq.dst, t.lzw.prev, t.lzw.bp)) = some ([], none, 9) := by decide
/-- R216: `L_PREV = 45`, `L_NEXT = 260`, code 65 emits 41 and appends 2D 41. -/
theorem test_lzwLit : after (.lzwLit 65#8) (lzwAt 260 (some 45#12) [] [])
    (fun t => (t.seq.dst, t.lzw.entry 260, t.lzw.next, t.lzw.prev)) = some ([0x41#8], [0x2D#8, 0x41#8], 261, some 65#12) := by decide
/-- R218: the append that makes `L_NEXT` 511 widens to 10 bits. R220: a full dictionary stays as it is. -/
theorem test_lzwLit_widen : after (.lzwLit 65#8) (lzwAt 510 (some 45#12) [] []) (fun t => (t.lzw.width.bits, t.lzw.bp)) = some (10, 9) ∧
    after (.lzwLit 65#8) (lzwAt 4096 (some 45#12) [] []) (fun t => (t.lzw.next, t.seq.dst, t.lzw.prev)) =
      some (4096, [0x41#8], some 65#12) := by decide
/-- R226, the fourth row: `L_PREV = 258`, code 258. -/
theorem test_lzwRef : after (.lzwRef 258#12) (lzwAt 259 (some 258#12) [(258, [0x2D#8, 0x2D#8])] [])
    (fun t => (t.seq.dst, t.lzw.entry 259, t.lzw.prev)) =
      some ([0x2D#8, 0x2D#8], [0x2D#8, 0x2D#8, 0x2D#8], some 258#12) := by decide
/-- R217: `L_PREV = 45`, `L_NEXT = 258`, code 258; and a code beyond is taken the same way. -/
theorem test_lzwKwkwk : after (.lzwKwkwk 258#12) (lzwAt 258 (some 45#12) [] [])
    (fun t => (t.seq.dst, t.lzw.entry 258, t.lzw.next, t.lzw.prev)) =
      some ([0x2D#8, 0x2D#8], [0x2D#8, 0x2D#8], 259, some 258#12) := by decide
theorem test_lzwBeyond : after (.lzwBeyond 300#12) (lzwAt 258 (some 45#12) [] [])
    (fun t => (t.seq.dst, t.lzw.entry 258, t.lzw.next, t.lzw.prev)) =
      some ([0x2D#8, 0x2D#8], [0x2D#8, 0x2D#8], 259, some 258#12) := by decide

/-- R254: `02 01 02 03` emits 01 02 03 and leaves `RP` = 4; `01 41` raises. -/
theorem test_rlLit : stepped (running .rl [2#8, 1#8, 2#8, 3#8]) (fun t => (t.seq.dst, t.seq.rp)) =
    some ([1#8, 2#8, 3#8], 4) := by decide
theorem test_rlLit_short : stepped (running .rl [1#8, 0x41#8]) errorOf = some (3, 2, 0, 5, 0) := by decide
theorem test_rlEod : stepped (running .rl [0x80#8, 0#8, 5#8]) (fun t => (t.rl.eod, t.seq.rp, t.seq.dst)) =
    some (true, 1, []) := by decide
/-- R255: `F7 41` emits 41 ten times; `FF` alone raises. -/
theorem test_rlRep : stepped (running .rl [0xF7#8, 0x41#8]) (fun t => (t.seq.dst, t.seq.rp)) =
    some (List.replicate 10 0x41#8, 2) := by decide
theorem test_rlRep_short : stepped (running .rl [0xFF#8]) errorOf = some (3, 2, 0, 5, 0) := by decide

/-- R139: with no stage left the input is the result. -/
theorem test_finish : stepped { dispatching [] [7#8, 0#8] with seq := { (dispatching [] [7#8, 0#8]).seq with stage := 1 } }
    (fun t => (t.rep.status, t.output)) = some (.done, [7#8, 0#8]) := by decide
/-- R330: a write while `BUSY` is ignored. R321: the reset input ends a run. -/
theorem test_busy_lock : stepped (hostTurn (.write (.plen 3)) .busy) (·.host.plen) = some 0 := by decide
theorem test_reset_input : stepped (hostTurn .reset .busy) (·.rep.status) = some .idle := by decide

/-! ## Witnesses: states and operands that meet the hypotheses of the statements -/

/-- The invariant does not look at the agenda. -/
theorem inv_agenda {s : State} (h : s.Inv) (a : List Turn) : State.Inv { s with agenda := a } := by
  obtain ⟨h1, h2, h3, h4, h5, h6, h7, h8, h9, h10⟩ := h
  exact ⟨h1, h2, h3, h4, h5, h6, h7, h8, h9, h10⟩

theorem inv_resetState : State.reset.Inv := inv_reset State.reset

theorem inv_dispatching (n src : Bytes) : (dispatching n src).Inv := by
  refine ⟨Memory.wf_nil, Memory.wf_nil, Sparse.set_wf Sparse.wf_nil _ _, ?_, ?_, ?_, ?_, ?_, ?_, ?_⟩
  · intro e he
    rcases Sparse.mem_set he with rfl | he
    · exact Memory.writeAll_wf Memory.wf_nil _ _
    · simp at he
  all_goals simp [dispatching, State.reset]

/-- A running unit whose registers meet the unit's own invariant. -/
theorem inv_running {f : FilterId} {src : Bytes} (t : State) (ht : t.host = (running f src).host)
    (hr : t.rep = (running f src).rep) (hs : t.seq = (running f src).seq)
    (hl : lookup ((running f src).name 0) = f) (hu : t.unitInv) : t.Inv := by
  refine inv_run (inv_dispatching (nameBytes f) src) ht hr (by rw [hs]; exact Nat.zero_le _) fun _ => ⟨?_, ?_, hu⟩
  · rw [hs]; exact Nat.zero_lt_one
  · have : t.name t.seq.stage = (running f src).name 0 := by
      rw [hs]; simp only [State.name, State.nameReg, ht]; rfl
    rw [this, hl, hs]
    rfl

theorem inv_runningAhx (src : Bytes) : (running .ahx src).Inv :=
  inv_running _ rfl rfl rfl rfl (Nat.zero_le _)
theorem inv_runningA85 (src : Bytes) : (running .a85 src).Inv :=
  inv_running _ rfl rfl rfl rfl ⟨Nat.zero_le _, ⟨fun _ => rfl, fun h => by cases h⟩⟩
theorem inv_runningRl (src : Bytes) : (running .rl src).Inv :=
  inv_running _ rfl rfl rfl rfl (Nat.zero_le _)
theorem lzwInv_start (src : Bytes) : (running .lzw src).lzw.Inv src.length := by
  refine ⟨⟨Nat.le_refl 258, show 258 ≤ 4096 by omega⟩, rfl, fun _ => rfl, ?_, ?_, ?_, Sparse.wf_nil, Nat.zero_le _⟩
  · intro c hc; cases hc
  · intro c h1 h2
    have : c < 258 := h1
    omega
  · intro e he; cases he
theorem inv_runningLzw (src : Bytes) : (running .lzw src).Inv :=
  inv_running _ rfl rfl rfl rfl (lzwInv_start src)

/-- A finished run's state with one byte of output. -/
def doneState : State :=
  { State.reset with rep := { State.reset.rep with status := .done, out := [(0, 7#8)], outLen := 1 } }

theorem inv_doneState : doneState.Inv := by
  constructor <;> simp [doneState, State.reset, Sparse.wf, Memory.wf, Config.unwrittenByte]

/-- A run in error, with what the error registers hold. -/
def errorIn (k : ErrKind) (stage : Nat) (f : FilterId) : State :=
  { State.reset with rep := { State.reset.rep with status := .error, errKind := k, errStage := stage, errFid := f } }

theorem inv_errorIn {k : ErrKind} {f : FilterId} (h : errorCause k f = true) (stage : Nat) : (errorIn k stage f).Inv := by
  constructor <;> simp [errorIn, State.reset, Sparse.wf, Memory.wf, h]

/-- A run in error over an unknown first name. -/
def errorState : State := errorIn .unknownFilter 0 .unknown

theorem inv_errorState : errorState.Inv := inv_errorIn rfl 0

/-- Every register of the host written once, the second name's last byte and the input's last byte among them. -/
def loadedState : State :=
  { State.reset with host := { op := 1#1, plen := 2, names := [(1, { len := 2, bytes := [(1, 0xFF#8)] })], inBuf := [(2, 7#8)], inLen := 3 } }

theorem inv_loadedState : loadedState.Inv := by
  constructor <;> simp [loadedState, State.reset, Sparse.wf, Memory.wf, NameReg.unwritten, Config.unwrittenByte]

theorem witness_DecodeOfEncodeIsTheInstruction :
    Instr.wellFormed (.lzw 7 .w12 4096 true) (.lzwRef 4095#12) = true ∧
    Instr.wellFormed (.lzw 0 .w9 258 false) (.lzwFirstUndef 511#12) = true ∧
    Instr.wellFormed (.a85 Config.defaultWs false) (.a85Digit 0x3E#8) = true ∧
    Instr.wellFormed .name (.nameUnknown [0#8]) = true ∧ Instr.wellFormed .rl (.rlRep 127#7) = true := by decide

theorem witness_DecodedInstructionsAreWellFormed :
    decode (.lzw 7 .w12 4095 true) [1#8, 255#8, 224#8] = .ok (.lzwKwkwk 4095#12) ∧
    decode (.ahx []) [0xFF#8] = .ok (.ahxInvalid 0xFF#8) := by decide

theorem witness_LookupMatchesWholeSpellingsOnly :
    (FilterId.identity, []) ∈ namedFilters.zip recognisedNames ∧
    (FilterId.crypt, ['C', 'r', 'y', 'p', 't']) ∈ namedFilters.zip recognisedNames := by decide

theorem witness_StepRunsTheDecodedInstruction :
    ((dispatching [] []).engineMoves ∧ (dispatching [] []).rep.status = .busy ∧ (dispatching [] []).seq.phase = .dispatch ∧
      (dispatching [] []).seq.stage < (dispatching [] []).seq.nStages ∧
      decode .name ((dispatching [] []).name (dispatching [] []).seq.stage) = .ok .nameIdentity) ∧
    ((running .rl [0x80#8]).engineMoves ∧ (running .rl [0x80#8]).rep.status = .busy ∧ (running .rl [0x80#8]).seq.phase = .run ∧
      (running .rl [0x80#8]).unitFinished = false ∧ (running .rl [0x80#8]).window = some (.rl, [0x80#8]) ∧
      decode .rl [0x80#8] = .ok .rlEod) ∧
    ((hostTurn (.write (.cmd 1#1)) .idle).agenda = [.write (.cmd 1#1)] ∧ decode .cmd [(1#1).setWidth 8] = .ok .start) ∧
    ((hostTurn (.write (.op 1#1)) .idle).agenda = [.write (.op 1#1)] ∧ decode .op [(1#1).setWidth 8] = .ok .decodeAll) := by
  refine ⟨⟨.inl rfl, ?_⟩, ⟨.inl rfl, ?_⟩, ?_, ?_⟩ <;> decide

/-- About to finish with one byte of result. -/
def finishing : State :=
  { dispatching [] [7#8] with seq := { (dispatching [] [7#8]).seq with stage := 1 } }

theorem inv_finishing : finishing.Inv := by
  refine inv_run (inv_dispatching [] [7#8]) rfl rfl (Nat.le_refl 1) ?_
  intro h; cases h

theorem witness_FinishingStepDeliversTheResult :
    finishing.Inv ∧ finishing.engineMoves ∧ finishing.rep.status = .busy ∧ finishing.seq.phase = .dispatch ∧
    finishing.seq.stage = finishing.seq.nStages ∧ 0 < finishing.seq.src.length ∧ finishing.seq.src.length ≤ 1 :=
  ⟨inv_finishing, .inl rfl, by decide⟩

theorem witness_QuiescentEngineTakesNoStep :
    ∀ st ∈ [Status.idle, .done, .error], (hostTurn .engine st).engineMoves ∧ (hostTurn .engine st).rep.status ≠ .busy := by
  intro st h
  exact ⟨.inr rfl, by revert st; decide⟩

theorem witness_HostWritesWhileBusyAreIgnored :
    ∀ w ∈ [HostWrite.cmd 1#1, .op 1#1, .plen 5, .nameByte 0 0 1#8, .nameLen 0 1, .inByte 0 1#8, .inLen 1],
      (hostTurn (.write w) .busy).rep.status = .busy ∧ (hostTurn (.write w) .busy).agenda = [.write w] := by decide

theorem witness_HostWritesReachTheirRegisterOnly :
    ∀ w ∈ [HostWrite.op 1#1, .plen 5, .nameByte 0 0 1#8, .nameByte 1 9 0#8, .nameLen 0 1, .inByte 0 1#8, .inLen 1],
      State.Inv { State.reset with agenda := [.write w] } ∧ State.reset.rep.status ≠ .busy ∧ ∀ v, w ≠ .cmd v := by
  intro w h
  refine ⟨inv_agenda inv_resetState _, by decide, ?_⟩
  rintro v rfl
  simp at h

theorem witness_HostReadsGiveTheReportAndChangeNothing :
    (doneState.Inv ∧ doneState.rep.status = .done ∧ doneState.rep.outLen = 1 ∧ hostRead (.outByte 0) doneState = 7) ∧
    (finishing.Inv ∧ finishing.engineMoves ∧ finishing.rep.status = .busy ∧ finishing.seq.phase = .dispatch ∧
      finishing.seq.stage = finishing.seq.nStages ∧ finishing.seq.src = [7#8]) ∧
    (State.reset.Inv ∧ State.reset.rep.status ≠ .done ∧ State.reset.rep.status ≠ .error) ∧
    (loadedState.Inv ∧ loadedState.rep.status ≠ .busy ∧ hostRead .op loadedState = 1 ∧ hostRead .plen loadedState = 2 ∧
      hostRead (.nameLen 1) loadedState = 2 ∧ hostRead (.nameByte 1 1) loadedState = 255 ∧
      hostRead (.inByte 2) loadedState = 7 ∧ hostRead .inLen loadedState = 3) ∧
    State.Inv { doneState with agenda := [.read (.outByte 0)] } :=
  ⟨⟨inv_doneState, by decide⟩, ⟨inv_finishing, .inl rfl, by decide⟩, ⟨inv_resetState, by decide⟩,
    ⟨inv_loadedState, by decide⟩, inv_agenda inv_doneState _⟩

/-- The clause for `ERROR`: each kind with the ids at both ends of its rows (R281), and the numbers of R26 and R31. -/
theorem witness_HostReadsGiveTheReportAndChangeNothing_error :
    ∀ p ∈ [(ErrKind.unknownFilter, FilterId.unknown, 1, 15), (.invalidEncoding, .ahx, 2, 1), (.invalidEncoding, .rl, 2, 5),
        (.notImplemented, .ccf, 3, 6), (.notImplemented, .crypt, 3, 10), (.underlyingCodecError, .flate, 4, 4)],
      (errorIn p.1 3 p.2.1).Inv ∧ (errorIn p.1 3 p.2.1).rep.status = .error ∧
      hostRead .errKind (errorIn p.1 3 p.2.1) = p.2.2.1 ∧ hostRead .errStage (errorIn p.1 3 p.2.1) = 3 ∧
      hostRead .errFid (errorIn p.1 3 p.2.1) = p.2.2.2 := by
  intro p h
  exact ⟨inv_errorIn (by revert p; decide) 3, rfl, by revert p; decide⟩

theorem witness_ResetLeavesTheSpecsValues :
    (hostTurn .reset .busy).agenda = [.reset] ∧ State.reset.engineMoves ∧
    ∃ s, step (hostTurn .reset .busy) = .next s ∧ s.engineMoves :=
  ⟨rfl, .inl rfl, _, rfl, .inl rfl⟩

theorem witness_StepKeepsTheInvariant :
    (running .rl [0#8, 7#8]).Inv ∧ ∃ t, step (running .rl [0#8, 7#8]) = .next t ∧ t.seq.dst = [7#8] :=
  ⟨inv_runningRl _, _, rfl, by decide⟩

theorem witness_StepNeverStops : (running .lzw [0xFF#8, 0xFF#8]).Inv := inv_runningLzw _

theorem witness_StartBeginsARun :
    doneState.rep.status ≠ .busy ∧ (hostTurn .engine .busy).rep.status = .busy ∧
    0 < ({ op := 1#1, plen := 2, names := [], inBuf := [(0, 7#8)], inLen := 1 } : HostRegs).inLen := by decide

theorem witness_OperationSelectWritesOp : State.reset.rep.status ≠ .busy ∧ (hostTurn .engine .busy).rep.status = .busy := by
  decide

theorem witness_StubNamesRaiseNotImplemented :
    (Instr.nameStubCcf, 6) ∈ [(Instr.nameStubCcf, 6), (.nameStubJbig2, 7), (.nameStubDct, 8), (.nameStubJpx, 9), (.nameStubCrypt, 10)] := by
  decide

theorem witness_UnrecognisedNamesRaiseUnknownFilter :
    (dispatching [0x41#8] []).name (dispatching [0x41#8] []).seq.stage ∉ recognisedNames.map asciiBytes := by decide

theorem witness_NamesFrame :
    Instr.wellFormed .name .nameLzw = true ∧ ∃ t, exec .nameLzw (dispatching [] [1#8]) = .next t ∧ t.seq.phase = .run :=
  ⟨by decide, _, rfl, by decide⟩

theorem witness_AbortRecordsKindStageAndId :
    (running .ahx [0x47#8]).Inv ∧ (running .ahx [0x47#8]).rep.status = .busy ∧
    ∃ t, step (running .ahx [0x47#8]) = .next t ∧ t.rep.status = .error :=
  ⟨inv_runningAhx _, by decide, _, rfl, by decide⟩

theorem witness_AhxDigitsPairHighNibbleFirst :
    (∀ p ∈ [(0x30#8, 0), (0x39#8, 9)], 0x30 ≤ p.1.toNat ∧ p.1.toNat ≤ 0x39 ∧ p.2 = p.1.toNat - 0x30) ∧
    (∀ p ∈ [(0x41#8, 10), (0x46#8, 15)], 0x41 ≤ p.1.toNat ∧ p.1.toNat ≤ 0x46 ∧ p.2 = p.1.toNat - 0x37) ∧
    (∀ p ∈ [(0x61#8, 10), (0x66#8, 15)], 0x61 ≤ p.1.toNat ∧ p.1.toNat ≤ 0x66 ∧ p.2 = p.1.toNat - 0x57) ∧
    (ahxHolding none []).ahx.hi = none ∧ (ahxHolding (some 15#4) []).ahx.hi = some 15#4 := by decide

theorem witness_AhxWhitespaceAndTerminator :
    (running .ahx [0x3E#8]).seq.fid = .ahx ∧ ∃ t, exec .ahxEod (running .ahx [0x3E#8]) = .next t ∧ t.ahx.eod = true :=
  ⟨by decide, _, rfl, by decide⟩

theorem witness_A85WhitespaceTildeAndEnd :
    (running .a85 [0x3E#8]).seq.fid = .a85 ∧ ∃ t, exec .a85Eod (running .a85 [0x3E#8]) = .next t ∧ t.a85.eod = true :=
  ⟨by decide, _, rfl, by decide⟩

theorem witness_LzwControlCodes :
    (running .lzw []).seq.fid = .lzw ∧ ∃ t, exec .lzwEod (running .lzw []) = .next t ∧ t.lzw.eod = true :=
  ⟨by decide, _, rfl, by decide⟩

theorem witness_RlEndOfData :
    (running .rl [0x80#8]).seq.fid = .rl ∧ ∃ t, exec .rlEod (running .rl [0x80#8]) = .next t ∧ t.rl.eod = true :=
  ⟨by decide, _, rfl, by decide⟩

theorem witness_InvalidBytesRaiseInvalidEncoding :
    Instr.ahxInvalid 0x47#8 ∈ [Instr.ahxInvalid 0x47#8, Instr.a85Invalid 0x47#8] := by decide

/-- An ASCIIHex unit whose terminator has been read. -/
def ahxEnded (h : Option (BitVec 4)) : State := { running .ahx [0x3E#8] with ahx := { hi := h, eod := true } }

theorem witness_AhxStageEnd :
    ((running .ahx []).agenda = [] ∧ (running .ahx []).rep.status = .busy ∧ (running .ahx []).seq.phase = .run ∧
      (running .ahx []).seq.fid = .ahx ∧ (running .ahx []).ahx.eod = false ∧ (running .ahx []).seq.rp = (running .ahx []).seq.src.length) ∧
    (∀ h ∈ [none, some 15#4], (ahxEnded h).agenda = [] ∧ (ahxEnded h).rep.status = .busy ∧ (ahxEnded h).seq.phase = .run ∧
      (ahxEnded h).seq.fid = .ahx ∧ (ahxEnded h).ahx.eod = true) := by decide

theorem unitStart_running (f : FilterId) (h : f ∈ [FilterId.ahx, .a85, .rl, .lzw]) (data : Bytes) :
    (running f data).unitStart f data := by
  simp only [List.mem_cons, List.not_mem_nil, or_false] at h
  rcases h with rfl | rfl | rfl | rfl
  · exact ⟨rfl, rfl, rfl, rfl, rfl, rfl, rfl, rfl⟩
  · exact ⟨rfl, rfl, rfl, rfl, rfl, rfl, rfl, rfl⟩
  · exact ⟨rfl, rfl, rfl, rfl, rfl, rfl, rfl, rfl⟩
  · exact ⟨rfl, rfl, rfl, rfl, rfl, rfl, rfl⟩

theorem witness_AsciiHexUnitComputesAHX : (running .ahx [0x39#8, 0x3E#8]).unitStart .ahx [0x39#8, 0x3E#8] :=
  unitStart_running _ (by decide) _

theorem witness_A85ZStandsForFourZeros :
    (a85At 0#32 0 []).a85.pos = 0 ∧ (a85At 0#32 1 []).a85.pos ≠ 0 ∧ (a85At 0#32 4 []).a85.pos ≠ 0 := by decide

theorem witness_A85DigitAccumulates :
    (∀ c ∈ [33#8, 117#8], 33 ≤ c.toNat ∧ c.toNat ≤ 117) ∧
    (a85At 0#32 0 []).a85.pos.val < 4 ∧ (a85At 0#32 3 []).a85.pos.val < 4 ∧ (a85At 0#32 4 []).a85.pos.val = 4 := by decide

theorem witness_A85GroupIsBase85BigEndian :
    (a85At 0#32 0 []).a85.pos = 0 ∧ (a85At 0#32 0 []).a85.tuple = 0#32 ∧
    ∀ d ∈ [33#8, 117#8, 117#8, 33#8, 62#8], 33 ≤ d.toNat ∧ d.toNat ≤ 117 := by decide

/-- An ASCII85 unit at the end of its input. -/
def a85Ended (pos : Fin 5) (tilde eod : Bool) : State :=
  { running .a85 [] with a85 := { tuple := 7#32, pos := pos, tilde := tilde, eod := eod } }

theorem witness_A85StageEnd :
    (∀ pos ∈ [(0 : Fin 5), 1, 2, 4], ∀ tilde ∈ [true, false], ∀ eod ∈ [true, false],
      (a85Ended pos tilde eod).agenda = [] ∧ (a85Ended pos tilde eod).rep.status = .busy ∧
      (a85Ended pos tilde eod).seq.phase = .run ∧ (a85Ended pos tilde eod).seq.fid = .a85 ∧
      (a85Ended pos tilde eod).seq.rp = (a85Ended pos tilde eod).seq.src.length) ∧
    ((a85Ended 0 true false).a85.tilde = true ∧ (a85Ended 0 true false).a85.eod = false) ∧
    (a85Ended 1 false false).a85.pos = 1 ∧
    (¬ ((a85Ended 2 true true).a85.tilde = true ∧ (a85Ended 2 true true).a85.eod = false) ∧ (a85Ended 2 true true).a85.pos ≠ 1) ∧
    (¬ ((a85Ended 0 false false).a85.tilde = true ∧ (a85Ended 0 false false).a85.eod = false) ∧
      (a85Ended 0 false false).a85.pos ≠ 1) := by decide

theorem witness_Ascii85UnitComputesA85 : (running .a85 [0x35#8, 0x6C#8]).unitStart .a85 [0x35#8, 0x6C#8] :=
  unitStart_running _ (by decide) _

/-- A literal and a learned entry as the known code, at the first, the last and no free code. -/
theorem witness_LzwKnownCodesEmitAndLearn :
    (∀ next ∈ [258, 4095, 4096],
      ((∃ l : Byte, Instr.lzwLit 65#8 = .lzwLit l ∧ (65#12 : Code).toNat = l.toNat) ∨ Instr.lzwLit 65#8 = .lzwRef 65#12) ∧
      (lzwAt next (some 45#12) [] []).lzw.prev = some 45#12 ∧
      (lzwAt next (some 45#12) [] []).lzw.entry (65#12 : Code).toNat = [65#8] ∧
      (lzwAt next (some 45#12) [] []).lzw.entry (45#12 : Code).toNat ≠ [] ∧
      Sparse.wf [] (lzwAt next (some 45#12) [] []).lzw.dict ∧ 258 ≤ (lzwAt next (some 45#12) [] []).lzw.next) ∧
    ((lzwAt 259 (some 258#12) [(258, [1#8, 2#8])] []).lzw.entry (258#12 : Code).toNat = [1#8, 2#8] ∧
      Sparse.wf [] (lzwAt 259 (some 258#12) [(258, [1#8, 2#8])] []).lzw.dict) := by
  refine ⟨?_, by decide⟩
  intro next h
  refine ⟨.inl ⟨65#8, rfl, rfl⟩, rfl, ?_, ?_, by simp [lzwAt, Sparse.wf], ?_⟩ <;> revert next <;> decide

theorem witness_LzwUndefinedCodesExtendThePreviousEntry :
    (∀ p ∈ [(258, Instr.lzwKwkwk 258#12, (258#12 : Code)), (4095, .lzwKwkwk 4095#12, 4095#12), (258, .lzwBeyond 4095#12, 4095#12)],
      (p.2.1 = .lzwKwkwk p.2.2 ∨ p.2.1 = .lzwBeyond p.2.2) ∧ (lzwAt p.1 (some 45#12) [] []).lzw.prev = some 45#12 ∧
      (lzwAt p.1 (some 45#12) [] []).lzw.entry (45#12 : Code).toNat = [45#8] ∧
      (lzwAt p.1 (some 45#12) [] []).lzw.next ≤ p.2.2.toNat ∧ 258 ≤ (lzwAt p.1 (some 45#12) [] []).lzw.next) ∧
    Sparse.wf ([] : Bytes) [] := by decide

theorem witness_LzwStepKeepsItsInvariants :
    (∃ t, exec .nameLzw (dispatching [] []) = .next t ∧ t.lzw.next = 258) ∧
    (running .lzw [0x20#8, 0xFF#8]).seq.fid = .lzw ∧ (running .lzw [0x20#8, 0xFF#8]).lzw.Inv 2 ∧
    (running .lzw [0x20#8, 0xFF#8]).unitFinished = false ∧
    (running .lzw [0x20#8, 0xFF#8]).window = some (.lzw 0 .w9 258 false, [0x20#8, 0xFF#8]) ∧
    decode (.lzw 0 .w9 258 false) [0x20#8, 0xFF#8] = .ok (.lzwFirst 65#8) ∧
    ∃ t, exec (.lzwFirst 65#8) (running .lzw [0x20#8, 0xFF#8]) = .next t ∧ t.seq.dst = [65#8] :=
  ⟨⟨_, rfl, by decide⟩, by decide, lzwInv_start _, by decide, by decide, by decide, _, rfl, by decide⟩

theorem witness_LzwDictionaryGrowth :
    (running .lzw [0x20#8, 0xFF#8]).lzw.Inv 2 ∧
    Instr.wellFormed (.lzw 0 .w9 258 false) (.lzwFirst 65#8) = true ∧
    ∃ t, exec (.lzwFirst 65#8) (running .lzw [0x20#8, 0xFF#8]) = .next t ∧ t.lzw.next = 258 :=
  ⟨lzwInv_start _, by decide, _, rfl, by decide⟩

theorem witness_LzwUnitNeverRaises :
    (running .lzw [0xFF#8, 0xFF#8]).Inv ∧ (running .lzw [0xFF#8, 0xFF#8]).engineMoves ∧
    (running .lzw [0xFF#8, 0xFF#8]).rep.status = .busy ∧ (running .lzw [0xFF#8, 0xFF#8]).seq.phase = .run ∧
    (running .lzw [0xFF#8, 0xFF#8]).seq.fid = .lzw :=
  ⟨inv_runningLzw _, .inl rfl, by decide⟩

theorem witness_LzwUnitComputesLZW : (running .lzw [0x80#8, 0x0B#8]).unitStart .lzw [0x80#8, 0x0B#8] :=
  unitStart_running _ (by decide) _

theorem witness_RlLiteralRunCopiesItsPayload :
    (running .rl [0#8, 7#8]).seq.rp + 1 + ((0#7).toNat + 1) ≤ (running .rl [0#8, 7#8]).seq.src.length ∧
    (running .rl [0#8]).seq.src.length < (running .rl [0#8]).seq.rp + 1 + ((0#7).toNat + 1) ∧
    (running .rl [127#8]).seq.src.length < (running .rl [127#8]).seq.rp + 1 + ((127#7).toNat + 1) := by decide

theorem witness_RlRepeatRunRepeatsItsByte :
    (∀ c ∈ [129#8, 255#8], 129 ≤ c.toNat) ∧
    (running .rl [255#8, 7#8]).readByte .src ((running .rl [255#8, 7#8]).seq.rp + 1) = some 7#8 ∧
    (running .rl [255#8]).seq.src.length < (running .rl [255#8]).seq.rp + 2 := by decide

theorem witness_RunLengthUnitComputesRL : (running .rl [255#8, 7#8]).unitStart .rl [255#8, 7#8] :=
  unitStart_running _ (by decide) _

theorem witness_StreamInstructionsFrame :
    (Instr.wellFormed (.ahx []) .ahxEod = true ∧ ∃ t, exec .ahxEod (running .ahx [0x3E#8]) = .next t ∧ t.seq.rp = 1) ∧
    (Instr.wellFormed (.a85 [] false) .a85Z = true ∧ ∃ t, exec .a85Z (running .a85 [0x7A#8]) = .next t ∧ t.seq.rp = 1) ∧
    (Instr.wellFormed (.lzw 0 .w9 258 false) .lzwEod = true ∧ ∃ t, exec .lzwEod (running .lzw []) = .next t ∧ t.lzw.bp = 9) ∧
    (Instr.wellFormed .rl (.rlRep 127#7) = true ∧
      ∃ t, exec (.rlRep 127#7) (running .rl [255#8, 7#8]) = .next t ∧ t.seq.dst = [7#8, 7#8]) :=
  ⟨⟨by decide, _, rfl, by decide⟩, ⟨by decide, _, rfl, by decide⟩, ⟨by decide, _, rfl, by decide⟩, ⟨by decide, _, rfl, by decide⟩⟩

theorem witness_InstructionsThatStoreNothing :
    Instr.ahxEod ∈ [Instr.ahxWs 0x20#8, .ahxEod, .a85Ws 0x20#8, .a85Eod, .a85Tilde, .lzwClear, .lzwEod, .lzwFirstUndef 300#12, .rlEod] ∧
    ∃ t, exec .ahxEod (running .ahx [0x3E#8]) = .next t ∧ t.ahx.eod = true :=
  ⟨by decide, _, rfl, by decide⟩

theorem witness_OperandsCannotChangeDuringARun :
    (hostTurn (.write (.plen 3)) .busy).rep.status = .busy ∧ (hostTurn (.write (.plen 3)) .busy).agenda.head? ≠ some .reset ∧
    ∃ t, step (hostTurn (.write (.plen 3)) .busy) = .next t ∧ t.agenda = [] :=
  ⟨by decide, by decide, _, rfl, by decide⟩

theorem witness_StatusChangesOnlyAsTheSpecSays :
    (∃ t, step (hostTurn (.write (.cmd 1#1)) .idle) = .next t ∧ t.rep.status ≠ .idle) ∧
    (∃ t, step finishing = .next t ∧ t.rep.status ≠ finishing.rep.status) ∧
    (∃ t, step (running .ahx [0x47#8]) = .next t ∧ t.rep.status ≠ (running .ahx [0x47#8]).rep.status) ∧
    (∃ t, step (hostTurn .reset .busy) = .next t ∧ t.rep.status ≠ .busy) :=
  ⟨⟨_, rfl, by decide⟩, ⟨_, rfl, by decide⟩, ⟨_, rfl, by decide⟩, ⟨_, rfl, by decide⟩⟩

theorem witness_OutIsWrittenByTheFinishingStepOnly :
    (finishing.Inv ∧ finishing.agenda.head? ≠ some .reset ∧
      ∃ t, step finishing = .next t ∧ ∃ a, t.readByte .output a ≠ finishing.readByte .output a) ∧
    ((running .rl [0x80#8]).Inv ∧ (running .rl [0x80#8]).agenda.head? ≠ some .reset ∧
      ∃ t, step (running .rl [0x80#8]) = .next t ∧ t.rep.status ≠ .done) :=
  ⟨⟨inv_finishing, by decide, _, rfl, 0, by decide⟩, ⟨inv_runningRl _, by decide, _, rfl, by decide⟩⟩

theorem witness_StageAdvancesByExactlyOne :
    (dispatching [] [7#8]).rep.status = .busy ∧ (dispatching [] [7#8]).agenda.head? ≠ some .reset ∧
    ∃ t, step (dispatching [] [7#8]) = .next t ∧ t.seq.stage = 1 :=
  ⟨by decide, by decide, _, rfl, by decide⟩

theorem witness_EveryRunEnds :
    (running .a85 [0x7E#8]).Inv ∧ (running .a85 [0x7E#8]).rep.status = .busy ∧ (running .a85 [0x7E#8]).agenda = [] :=
  ⟨inv_runningA85 _, by decide, by decide⟩

theorem witness_UnitStageStepBound : ∀ f ∈ [FilterId.ahx, .a85, .rl, .lzw], (running f [0x80#8, 0x0B#8]).unitStart f [0x80#8, 0x0B#8] :=
  fun f h => unitStart_running f h _

theorem witness_RunComputesDecodeAll :
    State.reset.Inv ∧ State.reset.rep.status ≠ .busy ∧ State.reset.agenda = [] ∧
    ∃ s', exec .start State.reset = .next s' ∧ s'.rep.status = .busy :=
  ⟨inv_resetState, by decide, by decide, _, rfl, by decide⟩

/-- Two runs of the empty name on no input, one right after reset and one after a run that ended in error. -/
theorem witness_NoStateCarriesFromRunToRun :
    State.reset.Inv ∧ errorState.Inv ∧ State.reset.rep.status ≠ .busy ∧ errorState.rep.status ≠ .busy ∧
    State.reset.agenda = [] ∧ errorState.agenda = [] ∧ State.reset.ws = errorState.ws ∧
    State.reset.pipeline = errorState.pipeline ∧ State.reset.input = errorState.input ∧
    ∃ s₁ s₂ t₁ t₂, exec .start State.reset = .next s₁ ∧ exec .start errorState = .next s₂ ∧ EndsIn s₁ t₁ ∧ EndsIn s₂ t₂ :=
  ⟨inv_resetState, inv_errorState, by decide, by decide, by decide, by decide, by decide, by decide, by decide,
    _, _, _, _, rfl, rfl, ⟨2, rfl, by decide⟩, ⟨2, rfl, by decide⟩⟩

end Sys2Proof.Tests
end

section
/-! PROOFS, scope (spec/00_scope.md). O16: from a state that meets the invariant every step answers a next state.
A step can stop in two ways. The fetch can find no move: the invariant gives every stage and every unfinished unit one
(R16, R29, R34). Or an LZW code can read an undefined entry: the classes of R212 and R222 (d), (e) rule it out (R47). -/

namespace Sys2Proof.Machine

/-! ## The instructions that can stop -/

/-- The four LZW instructions whose step reads the entry of `L_PREV` (R216, R217); no other one reads a dictionary
entry. -/
def readsEntry : Instr → Bool
  | .lzwLit _ | .lzwRef _ | .lzwKwkwk _ | .lzwBeyond _ => true
  | _ => false

/-- An instruction that reads no dictionary entry answers in every state. -/
theorem exec_answers {i : Instr} (h : readsEntry i = false) (s : State) : ∃ t, exec i s = .next t := by
  cases i
  case lzwLit | lzwRef | lzwKwkwk | lzwBeyond => cases h
  case nameFlate => simp only [exec]; unfold execNameFlate; split <;> exact ⟨_, rfl⟩
  case ahxDigit => simp only [exec]; unfold execAhxDigit; split <;> exact ⟨_, rfl⟩
  case a85Z => simp only [exec]; unfold execA85Z; split <;> exact ⟨_, rfl⟩
  case a85Digit => simp only [exec]; unfold execA85Digit; dsimp only; split <;> exact ⟨_, rfl⟩
  case rlLit => simp only [exec]; unfold execRlLit; split <;> exact ⟨_, rfl⟩
  case rlRep => simp only [exec]; unfold execRlRep; split <;> exact ⟨_, rfl⟩
  all_goals exact ⟨_, rfl⟩

@[simp] theorem readsEntry_decodeName (n : Bytes) : readsEntry (decodeName n) = false := by
  unfold decodeName; split <;> rfl

@[simp] theorem readsEntry_decodeOp (v : BitVec 1) : readsEntry (decodeOp v) = false := by
  unfold decodeOp; split <;> rfl

@[simp] theorem readsEntry_decodeAhx (ws : Bytes) (c : Byte) : readsEntry (decodeAhx ws c) = false := by
  unfold decodeAhx; repeat' split
  all_goals rfl

@[simp] theorem readsEntry_decodeA85 (ws : Bytes) (tilde : Bool) (c : Byte) :
    readsEntry (decodeA85 ws tilde c) = false := by
  unfold decodeA85; repeat' split
  all_goals rfl

@[simp] theorem readsEntry_decodeRl (c : Byte) : readsEntry (decodeRl c) = false := by
  unfold decodeRl; repeat' split
  all_goals rfl

/-! ## The LZW codes -/

/-- The class of an LZW code, as disjoint ranges (R103, R212). -/
theorem decodeLzw_cases (next : Nat) (prev : Bool) (v : Code) :
    (v.toNat = 256 ∧ decodeLzw next prev v = .lzwClear) ∨
    (v.toNat = 257 ∧ decodeLzw next prev v = .lzwEod) ∨
    (prev = false ∧ v.toNat < 256 ∧ decodeLzw next prev v = .lzwFirst (v.setWidth 8)) ∨
    (prev = false ∧ 258 ≤ v.toNat ∧ decodeLzw next prev v = .lzwFirstUndef v) ∨
    (prev = true ∧ v.toNat < 256 ∧ decodeLzw next prev v = .lzwLit (v.setWidth 8)) ∨
    (prev = true ∧ 258 ≤ v.toNat ∧ v.toNat < next ∧ decodeLzw next prev v = .lzwRef v) ∨
    (prev = true ∧ 258 ≤ v.toNat ∧ v.toNat = next ∧ decodeLzw next prev v = .lzwKwkwk v) ∨
    (prev = true ∧ 258 ≤ v.toNat ∧ next < v.toNat ∧ decodeLzw next prev v = .lzwBeyond v) := by
  unfold decodeLzw
  simp only [clearCode_eq, eodCode_eq]
  by_cases h6 : v.toNat = 256
  · simp [h6]
  by_cases h7 : v.toNat = 257
  · simp [h7]
  by_cases h8 : v.toNat < 256
  · cases prev <;> simp [h6, h7, h8]
  have h9 : 258 ≤ v.toNat := by omega
  cases prev with
  | false => simp [h6, h7, h8, h9]
  | true =>
    rcases Nat.lt_trichotomy v.toNat next with h | h | h
    · simp [h6, h7, h8, h9, h]
    · subst h
      simp [h6, h7, h8, h9]
    · simp [h6, h7, h8, h9, h, Nat.not_lt.mpr h.le, Nat.ne_of_gt h]

section
variable {s : State} (h : s.lzw.Inv s.seq.src.length) (hf : lzwFinished s = false)
include h hf

/-- `LZW.CLEAR` (R214). -/
theorem lzwClear_step : ∃ t, execLzwClear s = .next t ∧ LzwMove s t := by
  refine ⟨_, rfl, ⟨⟨le_rfl, by simp⟩, rfl, fun _ => rfl, by simp, ?_, by simp, Sparse.wf_nil,
    (lzwInv_advanceBits h hf).cursor⟩, rfl, rfl, rfl, rfl, ⟨[], List.append_nil _⟩⟩
  intro c hc h8
  exact absurd hc (Nat.not_lt.mpr h8)

/-- `LZW.EOD` (R215). -/
theorem lzwEod_step : ∃ t, execLzwEod s = .next t ∧ LzwMove s t := by
  obtain ⟨h1, h2, h3, h4, h5, h6, h7, h8⟩ := lzwInv_advanceBits h hf
  exact ⟨_, rfl, ⟨h1, h2, h3, h4, h5, h6, h7, h8⟩, rfl, rfl, rfl, rfl, ⟨[], List.append_nil _⟩⟩

/-- `LZW.FIRST` (R213). -/
theorem lzwFirst_step (b : Byte) : ∃ t, execLzwFirst b s = .next t ∧ LzwMove s t := by
  obtain ⟨h1, h2, -, -, h5, h6, h7, h8⟩ := lzwInv_advanceBits h hf
  refine ⟨_, rfl, ⟨h1, h2, by simp, ?_, h5, h6, h7, h8⟩, rfl, rfl, rfl, rfl, ⟨_, rfl⟩⟩
  have hb : b.toNat < 256 := b.isLt
  have hn := h.nextRange
  simp only [setPrev_lzw_prev, Option.mem_some_iff, forall_eq', setPrev_lzw_next, emit_lzw, advanceBits_lzw_next,
    BitVec.toNat_setWidth]
  omega

/-- `LZW.FIRST_UNDEF` (R219). -/
theorem lzwFirstUndef_step (v : Code) : ∃ t, execLzwFirstUndef v s = .next t ∧ LzwMove s t :=
  ⟨_, rfl, lzwInv_advanceBits h hf, rfl, rfl, rfl, rfl, ⟨[], List.append_nil _⟩⟩

/-- Whatever code an unfinished LZW unit reads, its step answers, and with a move of the unit (R47, R222). -/
theorem lzw_step (v : Code) :
    ∃ t, exec (decodeLzw s.lzw.next s.lzw.prev.isSome v) s = .next t ∧ LzwMove s t := by
  have hn := h.nextRange
  have hv : v.toNat < 4096 := v.isLt
  have some_prev (hp : s.lzw.prev.isSome = true) : s.lzw.prev ≠ none := Option.isSome_iff_ne_none.mp hp
  rcases decodeLzw_cases s.lzw.next s.lzw.prev.isSome v with
    ⟨-, e⟩ | ⟨-, e⟩ | ⟨-, -, e⟩ | ⟨-, -, e⟩ | ⟨hp, hl, e⟩ | ⟨hp, h8, hl, e⟩ | ⟨hp, h8, hl, e⟩ | ⟨hp, h8, hl, e⟩ <;>
    rw [e]
  · exact lzwClear_step h hf
  · exact lzwEod_step h hf
  · exact lzwFirst_step h hf _
  · exact lzwFirstUndef_step h hf v
  · have hb : ((v.setWidth 8).setWidth 12 : Code).toNat = v.toNat := by
      simp only [BitVec.toNat_setWidth]; omega
    exact known_step h hf (by omega) (by omega) (by omega) (some_prev hp)
  · exact known_step h hf hl (by omega) (by omega) (some_prev hp)
  · exact undef_step h hf (by omega) (some_prev hp)
  · exact undef_step h hf (by omega) (some_prev hp)

end

/-! ## The fetch of a running unit -/

/-- A byte unit that is not finished has a byte at its cursor (R16, R34). -/
theorem drop_eq_cons_of_not_finished {src : Bytes} {rp : Nat} {eod : Bool} (hr : rp ≤ src.length)
    (hf : (eod || rp == src.length) = false) : ∃ c bs, src.drop rp = c :: bs := by
  simp only [Bool.or_eq_false_iff, beq_eq_false_iff_ne] at hf
  exact ⟨_, _, List.drop_eq_getElem_cons (by omega)⟩

/-- The four units that can run, each with its part of the invariant. -/
theorem unitInv_cases {s : State} (h : s.unitInv) :
    (s.seq.fid = .ahx ∧ s.seq.rp ≤ s.seq.src.length) ∨
    (s.seq.fid = .a85 ∧ s.seq.rp ≤ s.seq.src.length ∧ s.a85.Inv) ∨
    (s.seq.fid = .rl ∧ s.seq.rp ≤ s.seq.src.length) ∨
    (s.seq.fid = .lzw ∧ s.lzw.Inv s.seq.src.length) := by
  unfold State.unitInv at h
  split at h <;> simp_all

/-- A running unit has a window. -/
theorem window_ne_none {s : State} (h : s.unitInv) : s.window ≠ none := by
  rcases unitInv_cases h with ⟨hid, -⟩ | ⟨hid, -⟩ | ⟨hid, -⟩ | ⟨hid, -⟩
  · simp [window_ahx hid]
  · simp [window_a85 hid]
  · simp [window_rl hid]
  · simp [window_lzw hid]

/-- A running unit that is not finished fetches an instruction, and its step answers (R67, R47). -/
theorem unit_answers {s : State} (h : s.unitInv) (hf : s.unitFinished = false) :
    ∃ x bs i t, s.window = some (x, bs) ∧ decode x bs = .ok i ∧ exec i s = .next t := by
  rcases unitInv_cases h with ⟨hid, hr⟩ | ⟨hid, hr, -⟩ | ⟨hid, hr⟩ | ⟨hid, hz⟩ <;>
    simp only [State.unitFinished, hid] at hf
  · obtain ⟨c, bs, hd⟩ := drop_eq_cons_of_not_finished hr hf
    obtain ⟨t, ht⟩ := exec_answers (readsEntry_decodeAhx s.ws c) s
    exact ⟨_, _, _, t, window_ahx hid, by rw [hd]; rfl, ht⟩
  · obtain ⟨c, bs, hd⟩ := drop_eq_cons_of_not_finished hr hf
    obtain ⟨t, ht⟩ := exec_answers (readsEntry_decodeA85 s.ws s.a85.tilde c) s
    exact ⟨_, _, _, t, window_a85 hid, by rw [hd]; rfl, ht⟩
  · obtain ⟨c, bs, hd⟩ := drop_eq_cons_of_not_finished hr hf
    obtain ⟨t, ht⟩ := exec_answers (readsEntry_decodeRl c) s
    exact ⟨_, _, _, t, window_rl hid, by rw [hd]; rfl, ht⟩
  · obtain ⟨t, ht, -⟩ := lzw_step hz hf
      (BitVec.ofNat 12 (readBits (s.seq.src.drop (s.lzw.bp / 8)) (s.lzw.bp % 8) s.lzw.width.bits))
    refine ⟨_, _, _, t, window_lzw hid, if_neg ?_, ht⟩
    have hc := (lzwInv_advanceBits hz hf).cursor
    simp only [advanceBits_lzw_bp] at hc
    simp only [List.length_drop]
    omega

/-! ## The step -/

/-- All a host write can be (R90, R323): nothing, a command or an operation select, or a store. -/
theorem hostAction_cases (w : HostWrite) :
    hostAction w = .quiet ∨ (∃ i, hostAction w = .instr i ∧ readsEntry i = false) ∨ hostAction w = .store w := by
  cases w
  case cmd v =>
    rcases bit_cases v with rfl | rfl
    · exact .inl rfl
    · exact .inr (.inl ⟨.start, rfl, rfl⟩)
  case op v => exact .inr (.inl ⟨_, rfl, readsEntry_decodeOp v⟩)
  all_goals exact .inr (.inr rfl)

/-- The host's move answers in every state. -/
theorem step_answers_of_write {s : State} {w : HostWrite} (ha : nextAction s = hostAction w) :
    ∃ t, step s = .next t := by
  rcases hostAction_cases w with e | ⟨i, e, hi⟩ | e <;> rw [e] at ha
  · exact ⟨_, step_of_quiet ha⟩
  · rw [step_of_instr ha]; exact exec_answers hi _
  · exact ⟨_, step_of_store ha⟩

/-- The engine's move answers in every state that meets the invariant. -/
theorem step_answers_of_engine {s : State} (h : s.Inv) (ha : nextAction s = engineAction s) :
    ∃ t, step s = .next t := by
  rcases engineAction_cases s with ⟨-, e⟩ | ⟨-, -, -, e⟩ | ⟨-, -, -, e⟩ | ⟨hb, -, hlt, -⟩ | ⟨hb, hp, hw, -⟩ |
    ⟨-, -, -, e⟩ | ⟨x, bs, i, hb, hp, hf, hw, hd, e⟩ | ⟨x, bs, er, hb, hp, hf, hw, hd, -⟩
  · exact ⟨_, step_of_quiet (ha.trans e)⟩
  · rw [step_of_instr (ha.trans e)]; exact exec_answers (readsEntry_decodeName _) _
  · exact ⟨_, step_of_finish (ha.trans e)⟩
  · exact absurd (h.stageRange hb) (Nat.not_le.mpr hlt)
  · exact absurd hw (window_ne_none (h.runUnit hb hp))
  · rw [step_of_stageEnd (ha.trans e)]
    rcases stageEnd_cases s.popTurn with ⟨k, -, ht⟩ | ⟨t, -, ht⟩ <;> exact ⟨_, ht⟩
  · obtain ⟨x', bs', i', t, hw', hd', ht⟩ := unit_answers (s := s.popTurn) (h.runUnit hb hp) hf
    cases hw.symm.trans hw'
    cases hd.symm.trans hd'
    exact ⟨t, (step_of_instr (ha.trans e)).trans ht⟩
  · obtain ⟨x', bs', i', t, hw', hd', -⟩ := unit_answers (h.runUnit hb hp) hf
    cases hw.symm.trans hw'
    cases hd.symm.trans hd'

/-- Settles O16, turn by turn: the host's moves and the reset answer in every state, the engine's under the
invariant. -/
theorem stepNeverStops : Obligations.StepNeverStops := by
  unfold Obligations.StepNeverStops
  intro s h
  cases hq : s.agenda with
  | nil => exact step_answers_of_engine h (nextAction_engine (.inl hq))
  | cons turn rest =>
    cases turn with
    | engine => exact step_answers_of_engine h (nextAction_engine (.inr (by rw [hq]; rfl)))
    | write w => exact step_answers_of_write (w := w) (by simp only [nextAction, hq])
    | read r => exact ⟨_, step_of_load (r := r) (by simp only [nextAction, hq])⟩
    | reset => exact ⟨_, step_of_reset (by simp only [nextAction, hq])⟩

end Sys2Proof.Machine
end

section
/-! PROOFS, scope (spec/00_scope.md). O6: a bit field as the weighted sum of its stream bits (R12). -/

namespace Sys2Proof

/-- Stream bit `k` as R12 words it. -/
theorem streamBit_eq_getLsbD (s : Bytes) (k : Nat) :
    streamBit s k = if (s.getD (k / 8) 0#8).getLsbD (7 - k % 8) then 1 else 0 := by
  rw [streamBit, ← Nat.toNat_testBit, BitVec.testBit_toNat, Bool.toNat, Bool.cond_eq_ite]

/-- A field read bit by bit is the sum of its bits by weight: each bit read doubles the weights of those before it. -/
theorem readBits_eq_sum (s : Bytes) (p w : Nat) :
    readBits s p w = ((List.range w).map fun j => streamBit s (p + j) * 2 ^ (w - 1 - j)).sum := by
  induction w with
  | zero => rfl
  | succ w ih =>
    have double : ∀ j ∈ List.range w,
        streamBit s (p + j) * 2 ^ (w + 1 - 1 - j) = 2 * (streamBit s (p + j) * 2 ^ (w - 1 - j)) := by
      intro j hj
      have hj : j < w := List.mem_range.mp hj
      rw [show w + 1 - 1 - j = w - 1 - j + 1 by omega, Nat.pow_succ]
      ring
    rw [readBits, ih, List.range_succ, List.map_append, List.sum_append, List.map_congr_left double,
      List.sum_map_mul_left]
    simp

/-- Settles O6, by the recursion of the reader over the width. -/
theorem bitFieldIsTheWeightedSumOfStreamBits : Obligations.BitFieldIsTheWeightedSumOfStreamBits := by
  unfold Obligations.BitFieldIsTheWeightedSumOfStreamBits
  intro s p w
  simp only [readBits_eq_sum, streamBit_eq_getLsbD]

end Sys2Proof
end

section
/-! PROOFS, state (spec/10_state.md). What a step can do, said once: the frames of the units' instructions, of a stage's
dispatch and of its end, and the list of all moves of a step. -/

namespace Sys2Proof.Machine

/-! ## The working state -/

/-- The change from `s` to `t` is in the working state alone: the sequencer, the units and the dictionary (R42). -/
def WorkingOnly (s t : State) : Prop :=
  t = { s with seq := t.seq, ahx := t.ahx, a85 := t.a85, rl := t.rl, lzw := t.lzw }

namespace WorkingOnly
variable {s t : State} (h : WorkingOnly s t)
include h

theorem host : t.host = s.host := (congrArg State.host h).trans rfl
theorem rep : t.rep = s.rep := (congrArg State.rep h).trans rfl
theorem ws : t.ws = s.ws := (congrArg State.ws h).trans rfl
theorem agenda : t.agenda = s.agenda := (congrArg State.agenda h).trans rfl
theorem draws : t.draws = s.draws := (congrArg State.draws h).trans rfl

end WorkingOnly

/-- The names are host registers. -/
theorem name_of_host {s t : State} (h : t.host = s.host) (i : Nat) : t.name i = s.name i := by
  simp only [State.name, State.nameReg, h]

/-- A byte of `IN`, `OUT` or a name depends on the host registers and `OUT` alone (R52). -/
theorem readByte_of_host_out {s t : State} (hh : t.host = s.host) (ho : t.rep.out = s.rep.out) {sp : Space}
    (hs : sp ≠ .src) (hd : sp ≠ .dst) (a : Nat) : t.readByte sp a = s.readByte sp a := by
  cases sp with
  | src => exact absurd rfl hs
  | dst => exact absurd rfl hd
  | input | output | name => simp only [State.readByte, State.nameReg, hh, ho]

/-! ## The units -/

/-- The unit whose stream format a context is. -/
def ctxUnit : Ctx → Option FilterId
  | .ahx _ => some .ahx
  | .a85 _ _ => some .a85
  | .lzw _ _ _ _ => some .lzw
  | .rl => some .rl
  | .cmd => none
  | .op => none
  | .name => none

/-- The unit that runs an instruction. -/
def instrUnit : Instr → Option FilterId
  | .ahxWs _ | .ahxEod | .ahxDigit _ | .ahxInvalid _ => some .ahx
  | .a85Ws _ | .a85Eod | .a85Tilde | .a85Z | .a85Digit _ | .a85Invalid _ => some .a85
  | .lzwClear | .lzwEod | .lzwFirst _ | .lzwFirstUndef _ | .lzwLit _ | .lzwRef _ | .lzwKwkwk _ | .lzwBeyond _ => some .lzw
  | .rlLit _ | .rlEod | .rlRep _ => some .rl
  | _ => none

theorem ctxUnit_eq_ahx {x : Ctx} : ctxUnit x = some .ahx ↔ ∃ ws, x = .ahx ws := by
  cases x <;> simp [ctxUnit]

theorem ctxUnit_eq_a85 {x : Ctx} : ctxUnit x = some .a85 ↔ ∃ ws tilde, x = .a85 ws tilde := by
  cases x <;> simp [ctxUnit]

theorem ctxUnit_eq_lzw {x : Ctx} : ctxUnit x = some .lzw ↔ ∃ off w next prev, x = .lzw off w next prev := by
  cases x <;> simp [ctxUnit]

theorem ctxUnit_eq_rl {x : Ctx} : ctxUnit x = some .rl ↔ x = .rl := by
  cases x <;> simp [ctxUnit]

/-- A well-formed instruction of a context belongs to the context's unit, row by row of the tables (R94, R97, R103, R106):
either the row excludes the context, or the two are of one unit. -/
theorem instrUnit_of_wellFormed {x : Ctx} {i : Instr} (h : i.wellFormed x = true) : instrUnit i = ctxUnit x := by
  cases i <;> cases x <;> simp [Instr.wellFormed] at h <;> rfl

@[simp] theorem instrUnit_decodeAhx (ws : Bytes) (c : Byte) : instrUnit (decodeAhx ws c) = some .ahx := by
  unfold decodeAhx; repeat' split
  all_goals rfl

@[simp] theorem instrUnit_decodeA85 (ws : Bytes) (tilde : Bool) (c : Byte) :
    instrUnit (decodeA85 ws tilde c) = some .a85 := by
  unfold decodeA85; repeat' split
  all_goals rfl

@[simp] theorem instrUnit_decodeLzw (next : Nat) (prev : Bool) (v : Code) :
    instrUnit (decodeLzw next prev v) = some .lzw := by
  unfold decodeLzw; repeat' split
  all_goals rfl

@[simp] theorem instrUnit_decodeRl (c : Byte) : instrUnit (decodeRl c) = some .rl := by
  unfold decodeRl; repeat' split
  all_goals rfl

/-- What is decoded in a stream's context is an instruction of the stream's unit. -/
theorem instrUnit_of_decode {x : Ctx} {bs : Bytes} {i : Instr} {f : FilterId} (hx : ctxUnit x = some f)
    (h : decode x bs = .ok i) : instrUnit i = some f := by
  cases x with
  | cmd | op | name => cases hx
  | lzw off w next prev =>
    simp only [decode] at h
    split at h <;> cases h
    rw [instrUnit_decodeLzw]; exact hx
  | ahx | a85 | rl =>
    cases bs <;> cases h
    simp only [instrUnit_decodeAhx, instrUnit_decodeA85, instrUnit_decodeRl]
    exact hx

/-- The running unit's window is a window on its own stream (R34, R44). -/
theorem ctxUnit_of_window {s : State} {x : Ctx} {bs : Bytes} (h : s.window = some (x, bs)) :
    ctxUnit x = some s.seq.fid := by
  unfold State.window at h
  split at h <;> cases h <;> simp only [ctxUnit, *]

/-! ## What an instruction of a unit can do -/

/-- What an instruction of the unit `f` that does not raise leaves unchanged (R42, R17, R32), where `n` is the number of
bytes the cursor `RP` moves on. -/
structure UnitMove (f : FilterId) (n : Nat) (s t : State) : Prop where
  working : WorkingOnly s t
  seq : t.seq = { s.seq with rp := s.seq.rp + n, dst := t.seq.dst }
  dst : s.seq.dst <+: t.seq.dst
  ahx : f ≠ .ahx → t.ahx = s.ahx
  a85 : f ≠ .a85 → t.a85 = s.a85
  lzw : f ≠ .lzw → t.lzw = s.lzw
  rl : f ≠ .rl → t.rl = s.rl

namespace UnitMove
variable {f : FilterId} {n m : Nat} {s t u : State}

theorem trans (h : UnitMove f n s t) (h' : UnitMove f m t u) : UnitMove f (n + m) s u where
  working := by
    have e := h'.working
    rw [WorkingOnly, h.working] at e
    exact e
  seq := by rw [h'.seq, h.seq, Nat.add_assoc]
  dst := h.dst.trans h'.dst
  ahx hf := (h'.ahx hf).trans (h.ahx hf)
  a85 hf := (h'.a85 hf).trans (h.a85 hf)
  lzw hf := (h'.lzw hf).trans (h.lzw hf)
  rl hf := (h'.rl hf).trans (h.rl hf)

theorem nStages (h : UnitMove f n s t) : t.seq.nStages = s.seq.nStages := by rw [h.seq]
theorem stage (h : UnitMove f n s t) : t.seq.stage = s.seq.stage := by rw [h.seq]
theorem phase (h : UnitMove f n s t) : t.seq.phase = s.seq.phase := by rw [h.seq]
theorem fid (h : UnitMove f n s t) : t.seq.fid = s.seq.fid := by rw [h.seq]
theorem src (h : UnitMove f n s t) : t.seq.src = s.seq.src := by rw [h.seq]
theorem rp (h : UnitMove f n s t) : t.seq.rp = s.seq.rp + n := by rw [h.seq]

theorem advance (f : FilterId) (n : Nat) (s : State) : UnitMove f n s (s.advance n) :=
  ⟨rfl, rfl, List.prefix_rfl, fun _ => rfl, fun _ => rfl, fun _ => rfl, fun _ => rfl⟩

theorem emit (f : FilterId) (s : State) (bs : Bytes) : UnitMove f 0 s (s.emit bs) :=
  ⟨rfl, rfl, List.prefix_append _ _, fun _ => rfl, fun _ => rfl, fun _ => rfl, fun _ => rfl⟩

theorem setAhx (s : State) (r : AhxRegs) : UnitMove .ahx 0 s { s with ahx := r } :=
  ⟨rfl, rfl, List.prefix_rfl, fun h => absurd rfl h, fun _ => rfl, fun _ => rfl, fun _ => rfl⟩

theorem setA85 (s : State) (r : A85Regs) : UnitMove .a85 0 s { s with a85 := r } :=
  ⟨rfl, rfl, List.prefix_rfl, fun _ => rfl, fun h => absurd rfl h, fun _ => rfl, fun _ => rfl⟩

theorem setRl (s : State) (r : RlRegs) : UnitMove .rl 0 s { s with rl := r } :=
  ⟨rfl, rfl, List.prefix_rfl, fun _ => rfl, fun _ => rfl, fun _ => rfl, fun h => absurd rfl h⟩

theorem setLzw (s : State) (r : LzwRegs) : UnitMove .lzw 0 s { s with lzw := r } :=
  ⟨rfl, rfl, List.prefix_rfl, fun _ => rfl, fun _ => rfl, fun h => absurd rfl h, fun _ => rfl⟩

theorem append (s : State) (e : Bytes) : UnitMove .lzw 0 s (s.append e) := by
  unfold State.append
  split
  · exact setLzw s _
  · exact setLzw s s.lzw

/-- A code that emits and learns an entry (R216, R217). -/
theorem emitAppend (s : State) (bs e : Bytes) (c : Code) :
    UnitMove .lzw 0 s (((s.advanceBits.emit bs).append e).setPrev c) :=
  (((setLzw s _).trans (emit .lzw s.advanceBits bs)).trans (append _ e)).trans (setLzw _ _)

end UnitMove

/-- All an instruction of the unit `f` can do: a move of the unit, which takes no byte of an LZW stream and takes the
cursor of another one not beyond `SRC_LEN` (R16, R34), or the abort, which no LZW step is (R290, R281). -/
inductive UnitStep (f : FilterId) (s t : State) : Prop
  | moved (n : Nat) (hm : UnitMove f n s t) (hz : f = .lzw → n = 0)
      (hr : s.seq.rp < s.seq.src.length → s.seq.rp + n ≤ s.seq.src.length)
  | raised (hf : f ≠ .lzw) (ht : t = s.aborted .invalidEncoding s.seq.fid)

theorem UnitStep.byte {f : FilterId} {s t : State} (hf : f ≠ .lzw) (hm : UnitMove f 1 s t) : UnitStep f s t :=
  .moved 1 hm (fun h => absurd h hf) id

theorem UnitStep.code {s t : State} (hm : UnitMove .lzw 0 s t) : UnitStep .lzw s t :=
  .moved 0 hm (fun _ => rfl) le_of_lt

theorem lzwKnown_unitStep {c : Code} {s t : State} (h : lzwKnown c s = .next t) : UnitStep .lzw s t := by
  rcases lzwKnown_cases c s with ⟨p, b, e, -, -, -, ht⟩ | ⟨f, hf, -⟩
  · cases ht.symm.trans h
    exact .code (.emitAppend s _ _ _)
  · cases hf.symm.trans h

theorem lzwUndef_unitStep {s t : State} (h : lzwUndef s = .next t) : UnitStep .lzw s t := by
  rcases lzwUndef_cases s with ⟨p, b, e, -, -, ht⟩ | ⟨f, hf, -⟩
  · cases ht.symm.trans h
    exact .code (.emitAppend s _ _ _)
  · cases hf.symm.trans h

theorem ahx_unitStep {i : Instr} {s t : State} (hi : instrUnit i = some .ahx) (h : exec i s = .next t) :
    UnitStep .ahx s t := by
  have hf : FilterId.ahx ≠ .lzw := by decide
  cases i <;> cases hi
  case ahxWs => cases h; exact .byte hf (.advance _ 1 s)
  case ahxEod => cases h; exact .byte hf ((UnitMove.setAhx s _).trans (.advance _ 1 _))
  case ahxDigit =>
    simp only [exec, execAhxDigit] at h
    split at h <;> cases h
    · exact .byte hf ((UnitMove.setAhx s _).trans (.advance _ 1 _))
    · exact .byte hf (((UnitMove.setAhx s _).trans (.emit _ _ _)).trans (.advance _ 1 _))
  case ahxInvalid => exact .raised hf (raise_eq_next.mp h)

theorem a85_unitStep {i : Instr} {s t : State} (hi : instrUnit i = some .a85) (h : exec i s = .next t) :
    UnitStep .a85 s t := by
  have hf : FilterId.a85 ≠ .lzw := by decide
  cases i <;> cases hi
  case a85Ws => cases h; exact .byte hf (.advance _ 1 s)
  case a85Eod => cases h; exact .byte hf ((UnitMove.setA85 s _).trans (.advance _ 1 _))
  case a85Tilde => cases h; exact .byte hf ((UnitMove.setA85 s _).trans (.advance _ 1 _))
  case a85Z =>
    simp only [exec, execA85Z] at h
    split at h
    · cases h; exact .byte hf ((UnitMove.emit _ s _).trans (.advance _ 1 _))
    · exact .raised hf (raise_eq_next.mp h)
  case a85Digit =>
    simp only [exec, execA85Digit] at h
    split at h <;> cases h
    · exact .byte hf (((UnitMove.setA85 s _).trans (.emit _ _ _)).trans (.advance _ 1 _))
    · exact .byte hf ((UnitMove.setA85 s _).trans (.advance _ 1 _))
  case a85Invalid => exact .raised hf (raise_eq_next.mp h)

theorem rl_unitStep {i : Instr} {s t : State} (hi : instrUnit i = some .rl) (h : exec i s = .next t) :
    UnitStep .rl s t := by
  have hf : FilterId.rl ≠ .lzw := by decide
  have hz (n : Nat) (e : FilterId.rl = .lzw) : n = 0 := absurd e hf
  cases i <;> cases hi
  case rlLit n =>
    simp only [exec, execRlLit] at h
    split at h
    · exact .raised hf (raise_eq_next.mp h)
    · cases h
      exact .moved (1 + rlLitLen n) (by simpa using (UnitMove.emit .rl s _).trans (.advance _ _ _)) (hz _) (by omega)
  case rlEod => cases h; exact .byte hf ((UnitMove.setRl s _).trans (.advance _ 1 _))
  case rlRep n =>
    simp only [exec, execRlRep] at h
    split at h
    · exact .raised hf (raise_eq_next.mp h)
    · rename_i b hb
      cases h
      have hlt : s.seq.rp + 1 < s.seq.src.length := (List.getElem?_eq_some_iff.mp hb).1
      exact .moved 2 ((UnitMove.emit .rl s _).trans (.advance _ 2 _)) (hz _) (by omega)

theorem lzw_unitStep {i : Instr} {s t : State} (hi : instrUnit i = some .lzw) (h : exec i s = .next t) :
    UnitStep .lzw s t := by
  cases i <;> cases hi
  case lzwClear => cases h; exact .code (.setLzw s _)
  case lzwEod => cases h; exact .code (.setLzw s _)
  case lzwFirst =>
    cases h
    exact .code (((UnitMove.setLzw s _).trans (.emit _ s.advanceBits _)).trans (.setLzw _ _))
  case lzwFirstUndef => cases h; exact .code (.setLzw s _)
  case lzwLit => exact lzwKnown_unitStep h
  case lzwRef => exact lzwKnown_unitStep h
  case lzwKwkwk => exact lzwUndef_unitStep h
  case lzwBeyond => exact lzwUndef_unitStep h

/-- The units that have instructions. -/
theorem instrUnit_range {i : Instr} {f : FilterId} (h : instrUnit i = some f) :
    f = .ahx ∨ f = .a85 ∨ f = .rl ∨ f = .lzw := by
  cases i <;> cases h <;> simp

/-- All an instruction of a unit can do, in every state. -/
theorem unitStep_of_exec {i : Instr} {f : FilterId} {s t : State} (hi : instrUnit i = some f)
    (h : exec i s = .next t) : UnitStep f s t := by
  rcases instrUnit_range hi with rfl | rfl | rfl | rfl
  · exact ahx_unitStep hi h
  · exact a85_unitStep hi h
  · exact rl_unitStep hi h
  · exact lzw_unitStep hi h

/-! ## What dispatch and the stage end can do -/

/-- The stage is over and its output is the next one's input (R137, R138): `STAGE` moves on by one. -/
structure StageMove (s t : State) : Prop where
  working : WorkingOnly s t
  nStages : t.seq.nStages = s.seq.nStages
  stage : t.seq.stage = s.seq.stage + 1
  phase : t.seq.phase = .dispatch

/-- The unit `f` starts on the stage's input, its registers as R53 initialises them. -/
structure UnitEntered (f : FilterId) (s t : State) : Prop where
  working : WorkingOnly s t
  seq : t.seq = { s.seq with fid := f, rp := 0, dst := [], phase := .run }
  inv : t.unitInv

/-- The LZW registers after unit initialisation meet R222. -/
theorem lzwInv_initLzw (s : State) (len : Nat) : s.initLzw.lzw.Inv len where
  nextRange := by simp
  widthOfNext := rfl
  noPrev _ := rfl
  prevDefined := by simp
  entries c hc h8 := absurd hc (Nat.not_lt.mpr h8)
  noOthers := by simp
  dictWf := Sparse.wf_nil
  cursor := Nat.zero_le _

/-- All a dispatch step can do (R137, R272, R282): an abort with a cause of R281, an end of the stage at once, or the start
of the unit the name stands for. -/
theorem exec_decodeName_cases {n : Bytes} {s t : State} (hp : s.seq.phase = .dispatch)
    (h : exec (decodeName n) s = .next t) :
    (∃ k f, errorCause k f = true ∧ t = s.aborted k f) ∨ StageMove s t ∨ UnitEntered (lookup n) s t := by
  have raised {k f} (hc : errorCause k f = true) (hr : raise k f s = .next t) :
      ∃ k f, errorCause k f = true ∧ t = s.aborted k f := ⟨k, f, hc, raise_eq_next.mp hr⟩
  unfold decodeName at h
  cases hn : lookup n <;> rw [hn] at h
  case identity => cases h; exact .inr (.inl ⟨rfl, rfl, rfl, hp⟩)
  case ahx => cases h; exact .inr (.inr ⟨rfl, rfl, Nat.zero_le _⟩)
  case a85 => cases h; exact .inr (.inr ⟨rfl, rfl, Nat.zero_le _, fun _ => rfl, Bool.noConfusion⟩)
  case rl => cases h; exact .inr (.inr ⟨rfl, rfl, Nat.zero_le _⟩)
  case lzw => cases h; exact .inr (.inr ⟨rfl, rfl, lzwInv_initLzw s _⟩)
  case flate =>
    simp only [exec, execNameFlate] at h
    split at h
    · exact .inl (raised rfl h)
    · cases h; exact .inr (.inl ⟨rfl, rfl, rfl, hp⟩)
  case ccf => exact .inl (raised rfl h)
  case jbig2 => exact .inl (raised rfl h)
  case dct => exact .inl (raised rfl h)
  case jpx => exact .inl (raised rfl h)
  case crypt => exact .inl (raised rfl h)
  case unknown => exact .inl (raised rfl h)

/-- A finish rule that succeeds only emits (R171, R198). -/
theorem unitFinish_ok {s u : State} (h : s.unitFinish = .ok u) : ∃ bs, u = s.emit bs := by
  have same : ∃ bs, s = s.emit bs := ⟨[], by simp [State.emit]⟩
  unfold State.unitFinish at h
  split at h
  · unfold ahxFinish at h
    split at h
    · split at h <;> cases h
      · exact ⟨_, rfl⟩
      · exact same
    · cases h
  · unfold a85Finish at h
    split at h
    · cases h
    · split at h
      · cases h
      · split at h <;> cases h
        · exact ⟨_, rfl⟩
        · exact same
  · cases h
    exact same

/-- A finish rule that fails is the ASCIIHex or the ASCII85 unit's, and of kind 2 (R171, R198, R281). -/
theorem unitFinish_error {s : State} {k : ErrKind} (h : s.unitFinish = .error k) :
    errorCause k s.seq.fid = true := by
  unfold State.unitFinish ahxFinish a85Finish at h
  repeat' split at h
  all_goals cases h
  all_goals simp [errorCause, *]

/-- All the stage end can do to the state (R138). -/
theorem stageEnd_moves {s t : State} (h : stageEnd s = .next t) :
    (∃ k f, errorCause k f = true ∧ t = s.aborted k f) ∨ StageMove s t := by
  rcases stageEnd_cases s with ⟨k, hk, ht⟩ | ⟨u, hu, ht⟩ <;> cases ht.symm.trans h
  · exact .inl ⟨k, _, unitFinish_error hk, rfl⟩
  · obtain ⟨bs, rfl⟩ := unitFinish_ok hu
    exact .inr ⟨rfl, rfl, rfl, rfl⟩

/-! ## What the host can do -/

/-- A host write changes host registers alone (R323). -/
theorem hostStore_eq (w : HostWrite) (s : State) : hostStore w s = { s with host := (hostStore w s).host } := by
  by_cases hb : s.rep.status = .busy <;> cases w <;> simp [hostStore, writeOp, State.unlessBusy, hb, State.setName]

/-- The `BUSY` lock (R330). -/
theorem hostStore_of_busy {s : State} (w : HostWrite) (h : s.rep.status = .busy) : hostStore w s = s := by
  cases w with
  | cmd => rfl
  | _ => exact unlessBusy_of_busy _ h

/-- A host read changes no register (R70). -/
theorem hostLoad_eq (r : HostReg) (s : State) : hostLoad r s = { s with draws := (hostLoad r s).draws } := by
  unfold hostLoad
  split <;> rfl

/-! ## What a step can do -/

/-- The moves of a step, each with its guard (R19, R135 to R139, R301, R320, R330). -/
inductive StepMove (s : State) : State → Prop
  | quiet : StepMove s s.popTurn
  | start (ha : s.agenda.head? = some (.write (.cmd 1#1))) : StepMove s (s.popTurn.unlessBusy s.popTurn.started)
  | store (w : HostWrite) : StepMove s (hostStore w s.popTurn)
  | load (r : HostReg) : StepMove s (hostLoad r s.popTurn)
  | reset (ha : s.agenda.head? = some .reset) : StepMove s s.popTurn.resetInput
  | finish (hb : s.rep.status = .busy) (hp : s.seq.phase = .dispatch) (hs : s.seq.stage = s.seq.nStages) :
      StepMove s s.popTurn.finished
  | abort (hb : s.rep.status = .busy) (k : ErrKind) (f : FilterId) (hc : errorCause k f = true) :
      StepMove s (s.popTurn.aborted k f)
  | nextStage {t : State} (hb : s.rep.status = .busy) (hs : s.seq.phase = .run ∨ s.seq.stage < s.seq.nStages)
      (hm : StageMove s.popTurn t) : StepMove s t
  | enter {t : State} (hb : s.rep.status = .busy) (hs : s.seq.stage < s.seq.nStages)
      (hm : UnitEntered (lookup (s.name s.seq.stage)) s.popTurn t) : StepMove s t
  | unit {t : State} {x : Ctx} {bs : Bytes} {i : Instr} {n : Nat} (hb : s.rep.status = .busy)
      (hp : s.seq.phase = .run) (hf : s.unitFinished = false) (hw : s.window = some (x, bs))
      (hd : decode x bs = .ok i) (ht : exec i s.popTurn = .next t) (hm : UnitMove s.seq.fid n s.popTurn t)
      (hr : s.seq.rp < s.seq.src.length → s.seq.rp + n ≤ s.seq.src.length) : StepMove s t

/-- A unit that raises has an id that R281 lists with kind 2. -/
theorem errorCause_of_instrUnit {i : Instr} {f : FilterId} (hi : instrUnit i = some f) (hf : f ≠ .lzw) :
    errorCause .invalidEncoding f = true := by
  rcases instrUnit_range hi with rfl | rfl | rfl | rfl
  · rfl
  · rfl
  · rfl
  · exact absurd rfl hf

/-- The engine's moves. -/
theorem stepMove_of_engine {s t : State} (ha : nextAction s = engineAction s) (h : step s = .next t) : StepMove s t := by
  rcases engineAction_cases s with ⟨-, e⟩ | ⟨hb, hp, hlt, e⟩ | ⟨hb, hp, hs, e⟩ | ⟨-, -, -, e⟩ | ⟨-, -, -, e⟩ |
    ⟨hb, hp, -, e⟩ | ⟨x, bs, i, hb, hp, hf, hw, hd, e⟩ | ⟨x, bs, er, -, -, -, -, -, e⟩ <;> have ha := ha.trans e
  · cases (step_of_quiet ha).symm.trans h
    exact .quiet
  · rcases exec_decodeName_cases (s := s.popTurn) hp ((step_of_instr ha).symm.trans h) with ⟨k, f, hc, rfl⟩ | hm | hm
    · exact .abort hb k f hc
    · exact .nextStage hb (.inr hlt) hm
    · exact .enter hb hlt hm
  · cases (step_of_finish ha).symm.trans h
    exact .finish hb hp hs
  · cases (step_of_stuck ha).symm.trans h
  · cases (step_of_stuck ha).symm.trans h
  · rcases stageEnd_moves ((step_of_stageEnd ha).symm.trans h) with ⟨k, f, hc, rfl⟩ | hm
    · exact .abort hb k f hc
    · exact .nextStage hb (.inl hp) hm
  · have ht := (step_of_instr ha).symm.trans h
    have hi := instrUnit_of_decode (ctxUnit_of_window hw) hd
    cases unitStep_of_exec hi ht with
    | moved n hm _ hr => exact .unit hb hp hf hw hd ht hm hr
    | raised hl ht' =>
      subst ht'
      exact .abort hb _ _ (errorCause_of_instrUnit hi hl)
  · cases (step_of_stuck ha).symm.trans h

/-- A host write's moves. -/
theorem stepMove_of_write {s t : State} {w : HostWrite} (hq : s.agenda.head? = some (.write w))
    (ha : nextAction s = hostAction w) (h : step s = .next t) : StepMove s t := by
  cases w
  case cmd v =>
    rcases bit_cases v with rfl | rfl
    · cases (step_of_quiet ha).symm.trans h
      exact .quiet
    · cases (step_of_instr (i := .start) ha).symm.trans h
      exact .start hq
  case op v =>
    rcases bit_cases v with rfl | rfl
    · cases (step_of_instr (i := .decode) ha).symm.trans h
      exact .store (.op 0#1)
    · cases (step_of_instr (i := .decodeAll) ha).symm.trans h
      exact .store (.op 1#1)
  all_goals
    cases (step_of_store ha).symm.trans h
    exact .store _

/-- All a step can do. -/
theorem stepMove_of_step {s t : State} (h : step s = .next t) : StepMove s t := by
  cases hq : s.agenda with
  | nil => exact stepMove_of_engine (nextAction_engine (.inl hq)) h
  | cons turn rest =>
    have hd : s.agenda.head? = some turn := by rw [hq]; rfl
    cases turn with
    | engine => exact stepMove_of_engine (nextAction_engine (.inr hd)) h
    | write w => exact stepMove_of_write hd (by simp only [nextAction, hq]) h
    | read r =>
      cases (step_of_load (r := r) (by simp only [nextAction, hq])).symm.trans h
      exact .load r
    | reset =>
      cases (step_of_reset (s := s) (by simp only [nextAction, hq])).symm.trans h
      exact .reset hd

end Sys2Proof.Machine
end

section
/-! PROOFS, state (spec/10_state.md). O15: every step keeps the invariant. The host's moves, the abort and the finishing step
keep it by the laws of the operations; the rest is the running unit's own registers (R34, R36, R222). -/

namespace Sys2Proof.Machine

/-! ## The running unit's registers -/

/-- The ASCII85 registers keep U5: position 0 is reached by the fifth digit alone, which clears the tuple, and the end flag
is set after a tilde alone. -/
theorem a85Inv_of_exec {i : Instr} {s t : State} (hi : instrUnit i = some .a85)
    (he : i = .a85Eod → s.a85.tilde = true) (h : s.a85.Inv) (ht : exec i s = .next t) : t.a85.Inv := by
  cases i <;> cases hi
  case a85Ws => cases ht; exact h
  case a85Eod => cases ht; exact ⟨h.clearAtZero, fun _ => he rfl⟩
  case a85Tilde => cases ht; exact ⟨h.clearAtZero, fun _ => rfl⟩
  case a85Z =>
    simp only [exec, execA85Z] at ht
    split at ht <;> cases ht <;> exact h
  case a85Digit =>
    simp only [exec, execA85Digit] at ht
    split at ht <;> cases ht
    · exact ⟨fun _ => rfl, h.eodAfterTilde⟩
    · rename_i h4
      have succ_ne_zero : ∀ p : Fin 5, p ≠ 4 → p + 1 ≠ 0 := by decide
      exact ⟨fun h0 => absurd h0 (succ_ne_zero _ h4), h.eodAfterTilde⟩
  case a85Invalid => cases ht; exact h

/-- The end marker is read after a tilde alone (R97, R191). -/
theorem tilde_of_decodeA85_eq_eod {ws : Bytes} {tilde : Bool} {c : Byte} (h : decodeA85 ws tilde c = .a85Eod) :
    tilde = true := by
  unfold decodeA85 at h
  cases tilde with
  | true => rfl
  | false =>
    simp only [Bool.false_eq_true, if_false] at h
    repeat' split at h
    all_goals cases h

/-- A byte unit that is not finished has its cursor below `SRC_LEN`. -/
theorem rp_lt_of_not_finished {rp len : Nat} {eod : Bool} (hr : rp ≤ len) (hf : (eod || rp == len) = false) :
    rp < len := by
  simp only [Bool.or_eq_false_iff, beq_eq_false_iff_ne] at hf
  omega

/-- A move of an unfinished unit keeps the unit's part of the invariant. -/
theorem unitInv_of_unitMove {s t : State} {x : Ctx} {bs : Bytes} {i : Instr} {n : Nat} (h : s.unitInv)
    (hf : s.unitFinished = false) (hw : s.window = some (x, bs)) (hd : decode x bs = .ok i) (ht : exec i s = .next t)
    (hm : UnitMove s.seq.fid n s t) (hr : s.seq.rp < s.seq.src.length → s.seq.rp + n ≤ s.seq.src.length) :
    t.unitInv := by
  have cursor {eod : Bool} (hle : s.seq.rp ≤ s.seq.src.length)
      (hf : (eod || s.seq.rp == s.seq.src.length) = false) : t.seq.rp ≤ t.seq.src.length := by
    rw [hm.rp, hm.src]
    exact hr (rp_lt_of_not_finished hle hf)
  rcases unitInv_cases h with ⟨hid, hle⟩ | ⟨hid, hle, ha⟩ | ⟨hid, hle⟩ | ⟨hid, hz⟩ <;>
    simp only [State.unitFinished, hid] at hf <;> simp only [State.unitInv, hm.fid, hid]
  · exact cursor hle hf
  · refine ⟨cursor hle hf, ?_⟩
    cases (window_a85 hid).symm.trans hw
    have eod_after_tilde (e : i = .a85Eod) : s.a85.tilde = true := by
      subst e
      cases hs : s.seq.src.drop s.seq.rp with
      | nil => rw [hs] at hd; cases hd
      | cons c rest => rw [hs] at hd; exact tilde_of_decodeA85_eq_eod (Except.ok.inj hd)
    exact a85Inv_of_exec (instrUnit_of_decode rfl hd) eod_after_tilde ha ht
  · exact cursor hle hf
  · cases (window_lzw hid).symm.trans hw
    simp only [decode] at hd
    split at hd <;> cases hd
    obtain ⟨u, hu, hmu⟩ := lzw_step hz hf _
    cases ht.symm.trans hu
    rw [hm.src]
    exact hmu.inv

/-! ## The engine's moves -/

/-- The end of a stage keeps the invariant (R29). -/
theorem inv_stageMove {s t : State} (h : s.Inv) (hb : s.rep.status = .busy)
    (hs : s.seq.phase = .run ∨ s.seq.stage < s.seq.nStages) (hm : StageMove s t) : t.Inv := by
  have hlt : s.seq.stage < s.seq.nStages := hs.elim (fun hp => (h.runStage hb hp).1) id
  refine inv_run h hm.working.host hm.working.rep ?_ ?_
  · rw [hm.stage, hm.nStages]; exact hlt
  · rw [hm.phase]; exact nofun

/-- The start of a unit keeps the invariant (R137). -/
theorem inv_unitEntered {s t : State} (h : s.Inv) (hs : s.seq.stage < s.seq.nStages)
    (hm : UnitEntered (lookup (s.name s.seq.stage)) s t) : t.Inv := by
  refine inv_run h hm.working.host hm.working.rep ?_ fun _ => ⟨?_, ?_, hm.inv⟩ <;> rw [hm.seq]
  · exact hs.le
  · exact hs
  · rw [name_of_host hm.working.host]

/-- A move of a unit that stays in its part of the invariant keeps the whole. -/
theorem inv_unitMove {s t : State} {f : FilterId} {n : Nat} (h : s.Inv) (hb : s.rep.status = .busy)
    (hp : s.seq.phase = .run) (hm : UnitMove f n s t) (hu : t.unitInv) : t.Inv := by
  obtain ⟨hlt, hfid⟩ := h.runStage hb hp
  refine inv_run h hm.working.host hm.working.rep ?_ fun _ => ⟨?_, ?_, hu⟩
  · rw [hm.stage, hm.nStages]; exact hlt.le
  · rw [hm.stage, hm.nStages]; exact hlt
  · rw [hm.fid, hm.stage, name_of_host hm.working.host]; exact hfid

/-- Settles O15, move by move. -/
theorem stepKeepsTheInvariant : Obligations.StepKeepsTheInvariant := by
  unfold Obligations.StepKeepsTheInvariant
  intro s t h hstep
  have hu : s.popTurn.Inv := inv_popTurn h
  cases stepMove_of_step hstep with
  | quiet => exact hu
  | start => exact inv_unlessBusy hu fun _ => inv_started hu
  | store w => exact inv_hostStore hu w
  | load r => exact inv_hostLoad hu r
  | reset => exact inv_reset _
  | finish hb => exact inv_finished hu hb
  | abort _ k f hc => exact inv_aborted hu hc
  | nextStage hb hs hm => exact inv_stageMove hu hb hs hm
  | enter _ hs hm => exact inv_unitEntered hu hs hm
  | unit hb hp hf hw hd ht hm hr =>
    exact inv_unitMove hu hb hp hm (unitInv_of_unitMove (s := s.popTurn) (h.runUnit hb hp) hf hw hd ht hm hr)

end Sys2Proof.Machine
end

section
/-! PROOFS, state (spec/10_state.md). O49, O52, O53, O54: what the streams' instructions leave unchanged, and what a step can
do to `STATUS`, `OUT`, `STAGE` and `SRC`, read off the moves of a step. -/

namespace Sys2Proof.Machine

/-! ## The frame of the streams -/

/-- The host registers, `OUT` and the model's own fields are out of the units' reach, even of one that raises. -/
theorem UnitStep.outside {f : FilterId} {s t : State} (h : UnitStep f s t) :
    t.host = s.host ∧ t.ws = s.ws ∧ t.agenda = s.agenda ∧ t.draws = s.draws ∧ t.rep.out = s.rep.out := by
  cases h with
  | moved n hm =>
    have hw := hm.working
    exact ⟨hw.host, hw.ws, hw.agenda, hw.draws, by rw [hw.rep]⟩
  | raised _ ht => subst ht; exact ⟨rfl, rfl, rfl, rfl, rfl⟩

/-- A step that does not end in `ERROR` is a move of the unit, and the LZW unit's move leaves `RP`. -/
theorem UnitStep.unitMove {f : FilterId} {s t : State} (h : UnitStep f s t) (he : t.rep.status ≠ .error) :
    ∃ n, UnitMove f n s t ∧ (f = .lzw → t.seq.rp = s.seq.rp) := by
  cases h with
  | moved n hm hz => exact ⟨n, hm, fun hf => by rw [hm.rp, hz hf, Nat.add_zero]⟩
  | raised _ ht => exact absurd (by rw [ht]; rfl) he

/-- The bytes of `DST` below its old length stay. -/
theorem UnitMove.readByte_dst {f : FilterId} {n : Nat} {s t : State} (h : UnitMove f n s t) {a : Nat}
    (ha : a < s.seq.dst.length) : t.readByte .dst a = s.readByte .dst a := by
  obtain ⟨bs, hbs⟩ := h.dst
  simp only [State.readByte, ← hbs, List.getElem?_append_left ha]

/-- The four stream formats are the contexts of a unit. -/
theorem ctxUnit_of_stream {x : Ctx} (h : (∃ ws, x = .ahx ws) ∨ (∃ ws tilde, x = .a85 ws tilde) ∨
    (∃ off w next prev, x = .lzw off w next prev) ∨ x = .rl) : ∃ f, ctxUnit x = some f := by
  rcases h with ⟨ws, rfl⟩ | ⟨ws, tilde, rfl⟩ | ⟨off, w, next, prev, rfl⟩ | rfl <;> exact ⟨_, rfl⟩

/-- Settles O49: all an instruction of a unit can do is a move of the unit or an abort. -/
theorem streamInstructionsFrame : Obligations.StreamInstructionsFrame := by
  unfold Obligations.StreamInstructionsFrame
  intro s t x i hx hwf ht
  obtain ⟨f, hf⟩ := ctxUnit_of_stream hx
  have hstep : UnitStep f s t := unitStep_of_exec ((instrUnit_of_wellFormed hwf).trans hf) ht
  obtain ⟨hhost, hws, hagenda, hdraws, hout⟩ := hstep.outside
  refine ⟨hhost, hws, hagenda, hdraws, fun sp a hs hd => readByte_of_host_out hhost hout hs hd a, fun he => ?_⟩
  obtain ⟨n, hm, hrp⟩ := hstep.unitMove he
  refine ⟨hm.working.rep, hm.nStages, hm.stage, hm.phase, hm.fid, ?_, ?_, ?_, ?_, ?_, ?_, fun a ha => hm.readByte_dst ha⟩
  · intro hl
    exact hrp (Option.some.inj (hf.symm.trans (ctxUnit_eq_lzw.mpr hl)))
  · intro hne
    exact hm.ahx fun e => (ctxUnit_eq_ahx.mp (e ▸ hf)).elim hne
  · intro hne
    refine hm.a85 fun e => ?_
    obtain ⟨ws, tilde, hx⟩ := ctxUnit_eq_a85.mp (e ▸ hf)
    exact hne ws tilde hx
  · intro hne
    refine hm.lzw fun e => ?_
    obtain ⟨off, w, next, prev, hx⟩ := ctxUnit_eq_lzw.mp (e ▸ hf)
    exact hne off w next prev hx
  · intro hne
    exact hm.rl fun e => hne (ctxUnit_eq_rl.mp (e ▸ hf))
  · intro a
    simp only [State.readByte, hm.src]

/-! ## The report -/

/-- A host write leaves the report. -/
@[simp] theorem hostStore_rep (w : HostWrite) (s : State) : (hostStore w s).rep = s.rep := by
  rw [hostStore_eq]

/-- A host read leaves the report. -/
@[simp] theorem hostLoad_rep (r : HostReg) (s : State) : (hostLoad r s).rep = s.rep := by
  rw [hostLoad_eq]

/-- A host read leaves the sequencer. -/
@[simp] theorem hostLoad_seq (r : HostReg) (s : State) : (hostLoad r s).seq = s.seq := by
  rw [hostLoad_eq]

/-- `START` under the lock leaves the state or begins a run (R135, R331). -/
theorem unlessBusy_started_cases (s : State) :
    (s.rep.status = .busy ∧ s.unlessBusy s.started = s) ∨ (s.rep.status ≠ .busy ∧ s.unlessBusy s.started = s.started) := by
  by_cases hb : s.rep.status = .busy
  · exact .inl ⟨hb, unlessBusy_of_busy _ hb⟩
  · exact .inr ⟨hb, unlessBusy_of_ne _ hb⟩

/-- A cause of R281 is a kind of error. -/
theorem errKind_ne_none {k : ErrKind} {f : FilterId} (h : errorCause k f = true) : k ≠ .none := by
  rintro rfl
  cases h

/-- Settles O52: the moves that change `STATUS` are the four. -/
theorem statusChangesOnlyAsTheSpecSays : Obligations.StatusChangesOnlyAsTheSpecSays := by
  unfold Obligations.StatusChangesOnlyAsTheSpecSays
  intro s t hstep hne
  cases stepMove_of_step hstep with
  | quiet => exact absurd rfl hne
  | start ha =>
    rcases unlessBusy_started_cases s.popTurn with ⟨-, e⟩ | ⟨-, e⟩ <;> rw [e] at hne ⊢
    · exact absurd rfl hne
    · exact .inl ⟨rfl, ha, rfl, rfl⟩
  | store w => exact absurd (by rw [hostStore_rep]; rfl) hne
  | load r => exact absurd (by rw [hostLoad_rep]; rfl) hne
  | reset ha => exact .inr (.inr (.inr ⟨rfl, ha⟩))
  | finish hb hp hs => exact .inr (.inl ⟨rfl, hb, hp, hs⟩)
  | abort hb k f hc => exact .inr (.inr (.inl ⟨rfl, hb, errKind_ne_none hc, rfl⟩))
  | nextStage _ _ hm => exact absurd (by rw [hm.working.rep]; rfl) hne
  | enter _ _ hm => exact absurd (by rw [hm.working.rep]; rfl) hne
  | unit _ _ _ _ _ _ hm => exact absurd (by rw [hm.working.rep]; rfl) hne

/-- `OUT` is the finishing step's and the reset's (R24, R139). -/
theorem StepMove.out_eq_or_finish {s t : State} (h : StepMove s t) (hr : s.agenda.head? ≠ some .reset) :
    t.rep.out = s.rep.out ∨
    (s.rep.status = .busy ∧ s.seq.phase = .dispatch ∧ s.seq.stage = s.seq.nStages ∧ t.rep.status = .done) := by
  cases h with
  | quiet => exact .inl rfl
  | start => rcases unlessBusy_started_cases s.popTurn with ⟨-, e⟩ | ⟨-, e⟩ <;> rw [e] <;> exact .inl rfl
  | store w => rw [hostStore_rep]; exact .inl rfl
  | load r => rw [hostLoad_rep]; exact .inl rfl
  | reset ha => exact absurd ha hr
  | finish hb hp hs => exact .inr ⟨hb, hp, hs, rfl⟩
  | abort => exact .inl rfl
  | nextStage _ _ hm => rw [hm.working.rep]; exact .inl rfl
  | enter _ _ hm => rw [hm.working.rep]; exact .inl rfl
  | unit _ _ _ _ _ _ hm => rw [hm.working.rep]; exact .inl rfl

/-- Settles O53: the moves that write `OUT`, and R332 by O15. -/
theorem outIsWrittenByTheFinishingStepOnly : Obligations.OutIsWrittenByTheFinishingStepOnly := by
  unfold Obligations.OutIsWrittenByTheFinishingStepOnly
  intro s t h hstep hr
  refine ⟨?_, (stepKeepsTheInvariant s t h hstep).noOutput⟩
  rintro ⟨a, ha⟩
  rcases (stepMove_of_step hstep).out_eq_or_finish hr with hout | hfin
  · exact absurd (by simp only [State.readByte, hout]) ha
  · exact hfin

/-! ## The stage counter -/

/-- Settles O54: while `BUSY` the host's moves leave the sequencer, and the engine's are listed. -/
theorem stageAdvancesByExactlyOne : Obligations.StageAdvancesByExactlyOne := by
  unfold Obligations.StageAdvancesByExactlyOne
  intro s t hb hr hstep
  cases stepMove_of_step hstep with
  | quiet => exact .inl ⟨rfl, rfl⟩
  | start => rw [unlessBusy_of_busy (s := s.popTurn) _ hb]; exact .inl ⟨rfl, rfl⟩
  | store w => rw [hostStore_of_busy (s := s.popTurn) w hb]; exact .inl ⟨rfl, rfl⟩
  | load r => rw [hostLoad_seq]; exact .inl ⟨rfl, rfl⟩
  | reset ha => exact absurd ha hr
  | finish => exact .inl ⟨rfl, rfl⟩
  | abort => exact .inr (.inr rfl)
  | nextStage _ _ hm => exact .inr (.inl hm.stage)
  | enter _ _ hm => rw [hm.seq]; exact .inl ⟨rfl, rfl⟩
  | unit _ _ _ _ _ _ hm => exact .inl ⟨hm.stage, hm.src⟩

end Sys2Proof.Machine
end

section
/-! PROOFS, state (spec/10_state.md). O12 and O18: what the host reads, and the operation select. -/

namespace Sys2Proof.Machine

/-! ## Host reads -/

/-- A byte read as a number gives back the byte. -/
theorem byte_of_number {b : Byte} {n : Nat} (h : n = b.toNat) : some b = some (BitVec.ofNat 8 n) ∧ n < 256 := by
  subst h
  exact ⟨by rw [BitVec.ofNat_toNat, BitVec.setWidth_eq], b.isLt⟩

/-- In `DONE` the bytes of `OUT` below `OUT_LEN` read as held (R24). -/
theorem hostRead_outByte {s : State} (hd : s.rep.status = .done) {a : Nat} (ha : a < s.rep.outLen) :
    hostRead (.outByte a) s = (s.rep.out.read a).toNat := by
  simp [hostRead, readDraws, hd, ha]

section
variable {s : State} (hb : s.rep.status ≠ .busy)
include hb

/-! Outside `BUSY` the operands read as held (R22, R23). -/

theorem hostRead_plen : hostRead .plen s = s.host.plen := by simp [hostRead, readDraws, hb]

theorem hostRead_inLen : hostRead .inLen s = s.host.inLen := by simp [hostRead, readDraws, hb]

theorem hostRead_nameLen (i : Nat) : hostRead (.nameLen i) s = (s.nameReg i).len := by simp [hostRead, readDraws, hb]

theorem hostRead_nameByte (i j : Nat) : hostRead (.nameByte i j) s = ((s.nameReg i).bytes.read j).toNat := by
  simp [hostRead, readDraws, hb]

theorem hostRead_inByte (a : Nat) : hostRead (.inByte a) s = (s.host.inBuf.read a).toNat := by
  simp [hostRead, readDraws, hb]

end

/-- `OP` reads as its bit (R21). -/
theorem hostRead_op (s : State) : hostRead .op s = if s.host.op = 1#1 then 1 else 0 := by
  rcases bit_cases s.host.op with h | h <;> simp [hostRead, h]

/-- Right after the finishing step `OUT` reads as `SRC` (R139). -/
theorem hostRead_outByte_finished {s : State} (h : s.Inv) {a : Nat} (ha : a < s.seq.src.length) :
    hostRead (.outByte a) s.finished = s.seq.src[a].toNat := by
  have hread := Memory.read_writeAll_inside h.outWf (a := 0) ha
  rw [Nat.zero_add] at hread
  rw [hostRead_outByte (s := s.finished) rfl ha, finished_rep_out, hread]

/-- The engine's move at the end of the last stage is the finishing step (R139). -/
theorem engineAction_finish {s : State} (hb : s.rep.status = .busy) (hp : s.seq.phase = .dispatch)
    (hs : s.seq.stage = s.seq.nStages) : engineAction s = .finish := by
  simp [engineAction, hb, hp, hs]

/-- Settles O12, register by register. -/
theorem hostReadsGiveTheReportAndChangeNothing : Obligations.HostReadsGiveTheReportAndChangeNothing := by
  unfold Obligations.HostReadsGiveTheReportAndChangeNothing
  intro s h
  refine ⟨rfl, ?_, h.noOutput, fun hd => ⟨rfl, fun a ha => byte_of_number (hostRead_outByte hd ha)⟩, ?_, ?_, ?_, ?_, ?_⟩
  · cases hst : s.rep.status <;> simp [hostRead, Status.code, hst]
  · intro hm hb hp hs
    have ht := step_of_finish ((nextAction_engine hm).trans (engineAction_finish hb hp hs))
    refine ⟨_, ht, rfl, rfl, fun a ha => ?_⟩
    simp only [State.readByte, List.getElem?_eq_getElem ha]
    exact byte_of_number (hostRead_outByte_finished (inv_popTurn h) ha)
  · intro hne
    obtain ⟨hk, hs, hf⟩ := h.noError hne
    simp [hostRead, hk, hs, hf, ErrKind.code, FilterId.code]
  · intro he
    have hk : s.rep.errKind ≠ .none := errKind_ne_none (h.errorOf he)
    refine ⟨?_, ?_, rfl, ?_⟩
    · cases hk : s.rep.errKind <;> simp [hostRead, ErrKind.code, hk]
    · cases hk' : s.rep.errKind <;> simp_all [hostRead, ErrKind.code]
    · cases hf : s.rep.errFid <;> simp [hostRead, FilterId.code, hf]
  · intro hb
    exact ⟨hostRead_op s, hostRead_plen hb, hostRead_inLen hb, hostRead_nameLen hb,
      fun i j => byte_of_number (hostRead_nameByte hb i j), fun a => byte_of_number (hostRead_inByte hb a)⟩
  · intro r rest hq
    refine ⟨_, step_of_load (r := r) (by simp only [nextAction, hq]), ?_⟩
    rw [hostLoad_eq]
    simp [State.popTurn, hq]

/-! ## The operation select -/

/-- Settles O18, by the lock. -/
theorem operationSelectWritesOp : Obligations.OperationSelectWritesOp := by
  unfold Obligations.OperationSelectWritesOp
  intro s
  refine ⟨fun hb => ?_, fun hb => ?_⟩ <;> simp only [exec, execDecode, execDecodeAll, writeOp]
  · rw [unlessBusy_of_ne _ hb, unlessBusy_of_ne _ hb]
    exact ⟨rfl, rfl⟩
  · rw [unlessBusy_of_busy _ hb, unlessBusy_of_busy _ hb]
    exact ⟨rfl, rfl⟩

end Sys2Proof.Machine
end

section
/-! PROOFS, memory (spec/20_memory.md). O34: the bytes of a group of five base-85 digits (R61, R98, R99). -/

namespace Sys2Proof.Machine

/-! ## The digit instruction -/

/-- A digit before the fifth joins the group (R195). -/
theorem exec_a85Digit_of_ne {s : State} (h : s.a85.pos ≠ 4) (c : Byte) :
    exec (.a85Digit c) s = .next (State.advance { s with a85 := { s.a85 with
      tuple := a85Add s.a85.tuple s.a85.pos.val c, pos := s.a85.pos + 1 } } 1) := by
  simp only [exec, execA85Digit, if_neg h]

/-- The fifth digit emits the group and clears it (R195). -/
theorem exec_a85Digit_of_eq {s : State} (h : s.a85.pos = 4) (c : Byte) :
    exec (.a85Digit c) s = .next ((State.emit { s with a85 := { s.a85 with tuple := 0#32, pos := 0 } }
      (a85Bytes (a85Add s.a85.tuple 4 c))).advance 1) := by
  simp [exec, execA85Digit, h]

/-! ## A group's value -/

/-- Adding a digit to an accumulator adds its weighted value to the number the accumulator holds (R186). -/
theorem a85Add_ofNat (v p : Nat) (c : Byte) :
    a85Add (BitVec.ofNat 32 v) p c = BitVec.ofNat 32 (v + (c.toNat - 33) * 85 ^ (4 - p)) := by
  rw [a85Add, a85Weight, BitVec.ofNat_add]

/-- The bytes of `a85Bytes` are those of the tuple, high byte first (R61). -/
theorem a85Bytes_bigEndian (t : BitVec 32) :
    ∃ b0 b1 b2 b3 : Byte, a85Bytes t = [b0, b1, b2, b3] ∧
      b0.toNat * 2 ^ 24 + b1.toNat * 2 ^ 16 + b2.toNat * 2 ^ 8 + b3.toNat = t.toNat := by
  refine ⟨_, _, _, _, rfl, ?_⟩
  have ht := t.isLt
  simp only [BitVec.extractLsb'_toNat, Nat.shiftRight_eq_div_pow]
  omega

/-- The unit has come from `s` to `t` within one group: `p` digits of it stand in the accumulator with the sum `v`, and
nothing has been emitted. -/
structure A85Pending (s t : State) (p : Fin 5) (v : Nat) : Prop where
  pos : t.a85.pos = p
  tuple : t.a85.tuple = BitVec.ofNat 32 v
  dst : t.seq.dst = s.seq.dst

namespace A85Pending
variable {s t : State} {v : Nat}

/-- A digit before the fifth adds its weighted value to the group's sum (R98). -/
theorem digit {p : Fin 5} (h : A85Pending s t p v) (hp : p ≠ 4) (c : Byte) :
    ∃ u, exec (.a85Digit c) t = .next u ∧ A85Pending s u (p + 1) (v + (c.toNat - 33) * 85 ^ (4 - p.val)) := by
  obtain ⟨rfl, htuple, hdst⟩ := h
  refine ⟨_, exec_a85Digit_of_ne hp c, rfl, ?_, hdst⟩
  simp only [advance_a85, htuple, a85Add_ofNat]

/-- The fifth digit emits the group's sum modulo `2^32`, high byte first, and clears the group (R99, R61). -/
theorem fifth (h : A85Pending s t 4 v) (c : Byte) :
    ∃ u, exec (.a85Digit c) t = .next u ∧ u.a85.pos = 0 ∧ u.a85.tuple = 0#32 ∧
      ∃ b0 b1 b2 b3 : Byte, u.seq.dst = s.seq.dst ++ [b0, b1, b2, b3] ∧
        b0.toNat * 2 ^ 24 + b1.toNat * 2 ^ 16 + b2.toNat * 2 ^ 8 + b3.toNat = (v + (c.toNat - 33)) % 2 ^ 32 := by
  obtain ⟨hpos, htuple, hdst⟩ := h
  obtain ⟨b0, b1, b2, b3, hbytes, hvalue⟩ := a85Bytes_bigEndian (a85Add t.a85.tuple 4 c)
  refine ⟨_, exec_a85Digit_of_eq hpos c, rfl, rfl, b0, b1, b2, b3, ?_, ?_⟩
  · simp only [advance_seq_dst, emit_seq_dst, hdst, hbytes]
  · rw [hvalue, htuple, a85Add_ofNat, BitVec.toNat_ofNat, Nat.sub_self, Nat.pow_zero, Nat.mul_one]

end A85Pending

/-- Settles O34, digit by digit from the empty group. -/
theorem a85GroupIsBase85BigEndian : Obligations.A85GroupIsBase85BigEndian := by
  unfold Obligations.A85GroupIsBase85BigEndian
  intro s d0 d1 d2 d3 d4 hpos htuple _
  have h0 : A85Pending s s 0 0 := ⟨hpos, htuple, rfl⟩
  obtain ⟨s1, e1, h1⟩ := h0.digit (by decide) d0
  obtain ⟨s2, e2, h2⟩ := h1.digit (by decide) d1
  obtain ⟨s3, e3, h3⟩ := h2.digit (by decide) d2
  obtain ⟨s4, e4, h4⟩ := h3.digit (by decide) d3
  obtain ⟨s5, e5, hpos5, htuple5, b0, b1, b2, b3, hdst, hvalue⟩ := h4.fifth d4
  refine ⟨s1, s2, s3, s4, s5, e1, e2, e3, e4, e5, hpos5, htuple5, b0, b1, b2, b3, hdst, ?_⟩
  simpa using hvalue

end Sys2Proof.Machine
end

section
/-! PROOFS, encoding (spec/30_encoding.md). O5: the rows of the filter names (R91, R92, R136). -/

namespace Sys2Proof.Machine

/-- The spellings of R91 and the decoder's byte lists are the same, row by row. -/
theorem asciiBytes_of_mem_zip :
    ∀ p ∈ namedFilters.zip recognisedNames, p.1 ∈ namedFilters ∧ nameBytes p.1 = asciiBytes p.2 := by decide

theorem map_nameBytes : namedFilters.map nameBytes = recognisedNames.map asciiBytes := by decide

theorem lookup_nameBytes : ∀ f ∈ namedFilters, lookup (nameBytes f) = f := by decide

theorem unknown_not_mem_namedFilters : FilterId.unknown ∉ namedFilters := by decide

/-- All that `lookup` can answer: a row whose bytes are the name, or `unknown` where no row's are (R92, R136). -/
theorem lookup_cases (n : Bytes) :
    (lookup n ∈ namedFilters ∧ nameBytes (lookup n) = n) ∨
    (lookup n = .unknown ∧ n ∉ namedFilters.map nameBytes) := by
  unfold lookup
  cases hf : namedFilters.find? fun f => nameBytes f == n with
  | none => exact .inr ⟨rfl, by simpa using hf⟩
  | some f => exact .inl ⟨List.mem_of_find?_eq_some hf, by simpa using List.find?_some hf⟩

/-- A name is looked up as a row exactly when it is the row's bytes (R92). -/
theorem lookup_eq_iff {f : FilterId} (hf : f ∈ namedFilters) (n : Bytes) : lookup n = f ↔ n = nameBytes f := by
  constructor
  · rintro rfl
    rcases lookup_cases n with ⟨-, hn⟩ | ⟨hu, -⟩
    · exact hn.symm
    · exact absurd (hu ▸ hf) unknown_not_mem_namedFilters
  · rintro rfl
    exact lookup_nameBytes f hf

/-- A name is unknown exactly when it is none of the eleven spellings (R136). -/
theorem lookup_eq_unknown_iff (n : Bytes) : lookup n = .unknown ↔ n ∉ recognisedNames.map asciiBytes := by
  rw [← map_nameBytes]
  rcases lookup_cases n with ⟨hl, hn⟩ | ⟨hu, hn⟩
  · exact iff_of_false (fun hu => unknown_not_mem_namedFilters (hu ▸ hl))
      (not_not_intro (List.mem_map.mpr ⟨_, hl, hn⟩))
  · exact iff_of_true hu hn

/-- Settles O5, from the rows in both spellings. -/
theorem lookupMatchesWholeSpellingsOnly : Obligations.LookupMatchesWholeSpellingsOnly := by
  unfold Obligations.LookupMatchesWholeSpellingsOnly
  refine fun n => ⟨fun p hp => ?_, lookup_eq_unknown_iff n⟩
  obtain ⟨hmem, hbytes⟩ := asciiBytes_of_mem_zip p hp
  rw [← hbytes]
  exact lookup_eq_iff hmem n

end Sys2Proof.Machine
end

section
/-! PROOFS, encoding (spec/30_encoding.md). O1 to O4: the decoder, the encoder and the classes of the tables agree. For
each context three facts: what the decoder reads is well-formed, a stream byte is encoded as itself, and a well-formed
instruction is read back from its encoding. -/

namespace Sys2Proof.Machine

/-! ## Host registers and names -/

theorem wellFormed_decodeCmd {v : BitVec 1} {i : Instr} (h : decodeCmd v = .ok i) : i.wellFormed .cmd = true := by
  unfold decodeCmd at h
  split at h
  · cases h; rfl
  · cases h

theorem wellFormed_decodeOp (v : BitVec 1) : (decodeOp v).wellFormed .op = true := by
  unfold decodeOp; split <;> rfl

theorem wellFormed_decodeName (n : Bytes) : (decodeName n).wellFormed .name = true := by
  unfold decodeName
  cases hn : lookup n
  case unknown => exact decide_eq_true ⟨rfl, (lookup_eq_unknown_iff n).mp hn⟩
  all_goals rfl

theorem decode_encode_cmd {i : Instr} (h : i.wellFormed .cmd = true) : decode .cmd (encode .cmd i) = .ok i := by
  cases i
  case start => rfl
  all_goals simp [Instr.wellFormed] at h

theorem decode_encode_op {i : Instr} (h : i.wellFormed .op = true) : decode .op (encode .op i) = .ok i := by
  cases i
  case decode | decodeAll => rfl
  all_goals simp [Instr.wellFormed] at h

theorem decode_encode_name {i : Instr} (h : i.wellFormed .name = true) : decode .name (encode .name i) = .ok i := by
  cases i
  case nameUnknown n =>
    have hu : lookup n = .unknown := (lookup_eq_unknown_iff n).mpr (of_decide_eq_true h).2
    simp only [encode, decode, decodeName, hu]
  case nameIdentity | nameAhx | nameA85 | nameLzw | nameFlate | nameRl | nameStubCcf | nameStubJbig2 | nameStubDct |
    nameStubJpx | nameStubCrypt => rfl
  all_goals simp [Instr.wellFormed] at h

/-! ## The byte classes -/

/-- The decoder's whitespace test is membership in `WS` (R9 row P9). -/
theorem isWs_eq_wsMember (ws : Bytes) (c : Byte) : isWs ws c = wsMember ws c := by
  rw [Bool.eq_iff_iff]
  simp only [isWs, wsMember, Bool.or_eq_true, Bool.and_eq_true, Bool.not_eq_true', ← Bool.not_eq_true, beq_iff_eq,
    List.contains_iff_mem, Nat.ble_eq, decide_eq_true_eq]

/-- The decoder's digit test is the class of R94. -/
theorem isHexDigit_eq_hexMember (c : Byte) : isHexDigit c = hexMember c := by
  rw [Bool.eq_iff_iff]
  simp [isHexDigit, hexMember, or_assoc]

/-- The base-85 digits are `!` to `u` (R97). -/
theorem isA85Digit_iff (c : Byte) : isA85Digit c = true ↔ 33 ≤ c.toNat ∧ c.toNat ≤ 117 := by
  simp [isA85Digit]

/-- No printing character is whitespace, whatever the list (R9 row P9). -/
theorem isWs_of_printing (ws : Bytes) {c : Byte} (h : 33 ≤ c.toNat ∧ c.toNat ≤ 126) : isWs ws c = false := by
  have h20 : c ≠ 0x20#8 := by rintro rfl; simp at h
  simp [isWs, h20, h]

/-! ## ASCIIHex -/

theorem wellFormed_decodeAhx (ws : Bytes) (c : Byte) : (decodeAhx ws c).wellFormed (.ahx ws) = true := by
  simp only [decodeAhx, isWs_eq_wsMember, isHexDigit_eq_hexMember]
  split_ifs with hw he hd
  · exact hw
  · rfl
  · exact hd
  · exact decide_eq_true ⟨hw, he, hd⟩

theorem encode_decodeAhx (ws : Bytes) (c : Byte) : encode (.ahx ws) (decodeAhx ws c) = [c] := by
  unfold decodeAhx
  split_ifs with hw he hd
  · rfl
  · rw [he]; rfl
  · rfl
  · rfl

theorem decode_encode_ahx {ws : Bytes} {i : Instr} (h : i.wellFormed (.ahx ws) = true) :
    decode (.ahx ws) (encode (.ahx ws) i) = .ok i := by
  cases i
  case ahxWs c =>
    have hw : wsMember ws c = true := h
    simp only [encode, decode, decodeAhx, isWs_eq_wsMember, hw, if_true]
  case ahxEod => simp [encode, decode, decodeAhx, isWs_of_printing]
  case ahxDigit c =>
    have hd : hexMember c = true := h
    have hr := of_decide_eq_true hd
    have he : c ≠ 0x3E#8 := by rintro rfl; exact absurd hd (by decide)
    simp [encode, decode, decodeAhx, isWs_of_printing ws (c := c) (by omega), he, isHexDigit_eq_hexMember, hd]
  case ahxInvalid c =>
    obtain ⟨hw, he, hd⟩ := of_decide_eq_true h
    simp only [encode, decode, decodeAhx, isWs_eq_wsMember, isHexDigit_eq_hexMember, if_neg hw, if_neg he, if_neg hd]
  all_goals simp [Instr.wellFormed] at h

/-! ## ASCII85 -/

theorem wellFormed_decodeA85 (ws : Bytes) (tilde : Bool) (c : Byte) :
    (decodeA85 ws tilde c).wellFormed (.a85 ws tilde) = true := by
  simp only [decodeA85, isWs_eq_wsMember, isA85Digit_iff]
  split_ifs with hw ht he he hz hd
  · exact hw
  · exact ht
  · exact decide_eq_true ⟨hw, by rwa [if_pos ht]⟩
  · simp [Instr.wellFormed, ht]
  · simp [Instr.wellFormed, ht]
  · simp [Instr.wellFormed, ht, hd]
  · exact decide_eq_true ⟨hw, by rw [if_neg ht]; bv_omega⟩

theorem encode_decodeA85 (ws : Bytes) (tilde : Bool) (c : Byte) :
    encode (.a85 ws tilde) (decodeA85 ws tilde c) = [c] := by
  unfold decodeA85
  split_ifs with hw ht he he hz hd
  · rfl
  · rw [he]; rfl
  · rfl
  · rw [he]; rfl
  · rw [hz]; rfl
  · rfl
  · rfl

theorem decode_encode_a85 {ws : Bytes} {tilde : Bool} {i : Instr} (h : i.wellFormed (.a85 ws tilde) = true) :
    decode (.a85 ws tilde) (encode (.a85 ws tilde) i) = .ok i := by
  cases i
  case a85Ws c =>
    have hw : wsMember ws c = true := h
    simp only [encode, decode, decodeA85, isWs_eq_wsMember, hw, if_true]
  case a85Eod =>
    have ht : tilde = true := h
    simp [encode, decode, decodeA85, isWs_of_printing, ht]
  case a85Tilde | a85Z =>
    have ht : tilde = false := Bool.not_eq_true' tilde |>.mp h
    simp [encode, decode, decodeA85, isWs_of_printing, ht]
  case a85Digit c =>
    obtain ⟨ht, hr⟩ := of_decide_eq_true h
    have he : c ≠ 0x7E#8 := by rintro rfl; simp at hr
    have hz : c ≠ 0x7A#8 := by rintro rfl; simp at hr
    have hd : isA85Digit c = true := (isA85Digit_iff c).mpr hr
    have ht : tilde = false := Bool.not_eq_true' tilde |>.mp ht
    simp [encode, decode, decodeA85, isWs_of_printing ws (c := c) (by omega), ht, he, hz, hd]
  case a85Invalid c =>
    obtain ⟨hw, hc⟩ := of_decide_eq_true h
    cases tilde with
    | true =>
      rw [if_pos rfl] at hc
      simp only [encode, decode, decodeA85, isWs_eq_wsMember, if_neg hw, if_true, if_neg hc]
    | false =>
      rw [if_neg (by decide)] at hc
      have he : c ≠ 0x7E#8 := by bv_omega
      have hz : c ≠ 0x7A#8 := by bv_omega
      have hd : ¬ isA85Digit c = true := by rw [isA85Digit_iff]; omega
      simp only [encode, decode, decodeA85, isWs_eq_wsMember, if_neg hw, Bool.false_eq_true, if_false, if_neg he,
        if_neg hz, if_neg hd]
  all_goals simp [Instr.wellFormed] at h

/-! ## RunLength -/

/-- The byte of a `RL.REP` unit is its length field with the top bit set (R106, R107). -/
theorem rlRep_toNat (n : BitVec 7) : (0x80#8 ||| n.setWidth 8).toNat = 128 + n.toNat := by
  revert n; decide

theorem wellFormed_decodeRl (c : Byte) : (decodeRl c).wellFormed .rl = true := by
  unfold decodeRl
  split_ifs with hl he
  · rfl
  · rfl
  · exact decide_eq_true ⟨rfl, by bv_omega⟩

theorem encode_decodeRl (c : Byte) : encode .rl (decodeRl c) = [c] := by
  have hc := c.isLt
  unfold decodeRl
  split_ifs with hl he <;> refine congrArg (· :: []) (BitVec.eq_of_toNat_eq ?_)
  · simp only [BitVec.toNat_setWidth]; omega
  · exact he.symm
  · rw [rlRep_toNat, BitVec.toNat_setWidth]; omega

theorem decode_encode_rl {i : Instr} (h : i.wellFormed .rl = true) : decode .rl (encode .rl i) = .ok i := by
  cases i
  case rlLit n =>
    have hn := n.isLt
    have hbyte : (n.setWidth 8).toNat = n.toNat := by rw [BitVec.toNat_setWidth]; omega
    have hfield : (n.setWidth 8).setWidth 7 = n := BitVec.eq_of_toNat_eq (by rw [BitVec.toNat_setWidth, hbyte]; omega)
    simp only [encode, decode, decodeRl, hbyte, if_pos hn, hfield]
  case rlEod => rfl
  case rlRep n =>
    obtain ⟨-, hn⟩ := of_decide_eq_true h
    have hfield : (0x80#8 ||| n.setWidth 8).setWidth 7 = n :=
      BitVec.eq_of_toNat_eq (by rw [BitVec.toNat_setWidth, rlRep_toNat]; omega)
    simp only [encode, decode, decodeRl, rlRep_toNat, hfield]
    rw [if_neg (by omega), if_neg (by bv_omega)]
  all_goals simp [Instr.wellFormed] at h

/-! ## LZW -/

/-- Byte `q` of the bytes that carry a code: the code's bits shifted to their place in the bits of all the bytes. -/
theorem packCode_getD {off w q : Nat} (v : Nat) (hq : q < (off + w + 7) / 8) :
    (packCode off w v).getD q 0#8 =
      BitVec.ofNat 8 (v * 2 ^ (8 * ((off + w + 7) / 8) - off - w) / 2 ^ (8 * ((off + w + 7) / 8 - 1 - q))) := by
  simp [packCode, hq]

/-- Stream bit `off + j` of a packed code is the code's bit `w - 1 - j`: the most significant bit comes first
(R62, R102). -/
theorem streamBit_packCode {off w j : Nat} (v : Nat) (hj : j < w) :
    streamBit (packCode off w v) (off + j) = v / 2 ^ (w - 1 - j) % 2 := by
  have hq : (off + j) / 8 < (off + w + 7) / 8 := by omega
  rw [streamBit, packCode_getD v hq, BitVec.toNat_ofNat]
  set n := (off + w + 7) / 8
  have hbit : 7 - (off + j) % 8 + 8 * (n - 1 - (off + j) / 8) = (w - 1 - j) + (8 * n - off - w) := by omega
  have hlow : 7 - (off + j) % 8 < 8 := by omega
  rw [← Nat.toNat_testBit, ← Nat.toNat_testBit, Nat.testBit_mod_two_pow, Nat.testBit_div_two_pow, hbit,
    Nat.testBit_mul_two_pow]
  simp [hlow]

/-- The first `j` bits read from a packed code are its `j` most significant ones. -/
theorem readBits_packCode_leading {off w v : Nat} (hv : v < 2 ^ w) :
    ∀ j ≤ w, readBits (packCode off w v) off j = v / 2 ^ (w - j)
  | 0, _ => (Nat.div_eq_of_lt hv).symm
  | j + 1, hj => by
    have hhalf : v / 2 ^ (w - j) = v / 2 ^ (w - (j + 1)) / 2 := by
      rw [Nat.div_div_eq_div_mul, ← Nat.pow_succ]
      congr 2; omega
    rw [readBits, readBits_packCode_leading hv j (by omega), streamBit_packCode v hj, hhalf, Nat.sub_right_comm,
      Nat.sub_sub]
    exact Nat.div_add_mod _ 2

/-- Reading a packed code at its bit offset gives the code back (R62, R102). -/
theorem readBits_packCode {off w v : Nat} (hv : v < 2 ^ w) : readBits (packCode off w v) off w = v := by
  simpa using readBits_packCode_leading (off := off) hv w le_rfl

/-- What the decoder reads from a code that the encoder packed (R102, R103). -/
theorem decode_encodeCode {off : Nat} {w : LzwWidth} {next : Nat} {prev : Bool} {v : Nat} (hv : v < 2 ^ w.bits) :
    decode (.lzw off w next prev) (encodeCode (.lzw off w next prev) v) =
      .ok (decodeLzw next prev (BitVec.ofNat 12 v)) := by
  have hlen : ¬ 8 * (packCode off w.bits v).length < off + w.bits := by
    simp only [packCode, List.length_map, List.length_range]
    omega
  simp only [decode, encodeCode, if_neg hlen, readBits_packCode hv]

/-- The same for a code of the operand type, in the width the tables give (R101). -/
theorem decode_encodeCode_toNat {off : Nat} {w : LzwWidth} {next : Nat} {prev : Bool} {v : Code}
    (hv : v.toNat < 2 ^ codeBits w) :
    decode (.lzw off w next prev) (encodeCode (.lzw off w next prev) v.toNat) = .ok (decodeLzw next prev v) := by
  rw [← Laws.Length.codeBits_eq] at hv
  rw [decode_encodeCode hv, BitVec.ofNat_toNat, BitVec.setWidth_eq]

/-- Every width holds the literals and the two control codes (R101). -/
theorem lt_two_pow_bits (w : LzwWidth) {v : Nat} (hv : v < 512) : v < 2 ^ w.bits :=
  hv.trans_le (Nat.pow_le_pow_right two_pos (bits_pos w).1)

/-- A code below 256 is a literal, whether or not a previous code is held (R103). -/
theorem decodeLzw_literal (next : Nat) (prev : Bool) (b : Byte) :
    decodeLzw next prev (BitVec.ofNat 12 b.toNat) = if prev then .lzwLit b else .lzwFirst b := by
  have hb := b.isLt
  have hv : (BitVec.ofNat 12 b.toNat).toNat = b.toNat := by rw [BitVec.toNat_ofNat]; omega
  have hw : (BitVec.ofNat 12 b.toNat).setWidth 8 = b :=
    BitVec.eq_of_toNat_eq (by rw [BitVec.toNat_setWidth, hv]; omega)
  simp only [decodeLzw, hv, hw, clearCode_eq, eodCode_eq, if_pos hb, if_neg (show ¬ b.toNat = 256 by omega),
    if_neg (show ¬ b.toNat = 257 by omega)]
  cases prev <;> rfl

/-- The classes of a code from 258 on (R103). -/
theorem decodeLzw_of_ge {next : Nat} {prev : Bool} {v : Code} (h : 258 ≤ v.toNat) :
    decodeLzw next prev v =
      if prev then (if v.toNat < next then .lzwRef v else if v.toNat = next then .lzwKwkwk v else .lzwBeyond v)
      else .lzwFirstUndef v := by
  simp only [decodeLzw, clearCode_eq, eodCode_eq, if_neg (show ¬ v.toNat = 256 by omega),
    if_neg (show ¬ v.toNat = 257 by omega), if_neg (show ¬ v.toNat < 256 by omega)]
  cases prev <;> rfl

theorem wellFormed_decodeLzw (off : Nat) (w : LzwWidth) (next : Nat) (prev : Bool) {v : Code}
    (hv : v.toNat < 2 ^ w.bits) : (decodeLzw next prev v).wellFormed (.lzw off w next prev) = true := by
  rw [Laws.Length.codeBits_eq] at hv
  rcases decodeLzw_cases next prev v with
    ⟨-, e⟩ | ⟨-, e⟩ | ⟨rfl, -, e⟩ | ⟨rfl, h8, e⟩ | ⟨rfl, -, e⟩ | ⟨rfl, h8, hl, e⟩ | ⟨rfl, h8, hl, e⟩ |
    ⟨rfl, h8, hl, e⟩ <;> rw [e]
  · rfl
  · rfl
  · rfl
  · exact decide_eq_true ⟨rfl, h8, hv⟩
  · rfl
  all_goals exact decide_eq_true ⟨rfl, h8, hl, hv⟩

theorem decode_encode_lzw {off : Nat} {w : LzwWidth} {next : Nat} {prev : Bool} {i : Instr}
    (h : i.wellFormed (.lzw off w next prev) = true) :
    decode (.lzw off w next prev) (encode (.lzw off w next prev) i) = .ok i := by
  cases i
  case lzwClear | lzwEod =>
    rw [encode, decode_encodeCode (lt_two_pow_bits w (by decide))]
    rfl
  case lzwFirst b | lzwLit b =>
    have hb := b.isLt
    rw [encode, decode_encodeCode (lt_two_pow_bits w (by omega)), decodeLzw_literal]
    simpa [Instr.wellFormed] using h
  case lzwFirstUndef v =>
    obtain ⟨hp, h8, hv⟩ := of_decide_eq_true h
    rw [encode, decode_encodeCode_toNat hv, decodeLzw_of_ge h8, if_neg (by simpa using hp)]
  case lzwRef v =>
    obtain ⟨hp, h8, hl, hv⟩ := of_decide_eq_true h
    rw [encode, decode_encodeCode_toNat hv, decodeLzw_of_ge h8, if_pos hp, if_pos hl]
  case lzwKwkwk v =>
    obtain ⟨hp, h8, hl, hv⟩ := of_decide_eq_true h
    rw [encode, decode_encodeCode_toNat hv, decodeLzw_of_ge h8, if_pos hp, if_neg hl.not_lt, if_pos hl]
  case lzwBeyond v =>
    obtain ⟨hp, h8, hl, hv⟩ := of_decide_eq_true h
    rw [encode, decode_encodeCode_toNat hv, decodeLzw_of_ge h8, if_pos hp, if_neg hl.not_gt, if_neg hl.ne']
  all_goals simp [Instr.wellFormed] at h

/-! ## Every context -/

/-- Settles O2, context by context. -/
theorem decodeOfEncodeIsTheInstruction : Obligations.DecodeOfEncodeIsTheInstruction := by
  unfold Obligations.DecodeOfEncodeIsTheInstruction
  intro x i h
  cases x with
  | cmd => exact decode_encode_cmd h
  | op => exact decode_encode_op h
  | name => exact decode_encode_name h
  | ahx ws => exact decode_encode_ahx h
  | a85 ws tilde => exact decode_encode_a85 h
  | lzw off w next prev => exact decode_encode_lzw h
  | rl => exact decode_encode_rl h

/-- Settles O3, context by context; a register or a byte stream has a first byte, and an LZW code a whole width. -/
theorem decodedInstructionsAreWellFormed : Obligations.DecodedInstructionsAreWellFormed := by
  unfold Obligations.DecodedInstructionsAreWellFormed
  intro x bs i h
  cases x with
  | name =>
    cases h
    exact wellFormed_decodeName bs
  | lzw off w next prev =>
    rw [decode] at h
    split at h
    · cases h
    · cases h
      have hr : readBits bs off w.bits < 2 ^ w.bits := readBits_lt bs off w.bits
      exact wellFormed_decodeLzw off w next prev ((BitVec.toNat_ofNat ..).trans_lt ((Nat.mod_le ..).trans_lt hr))
  | cmd =>
    cases bs with
    | nil => cases h
    | cons c bs => exact wellFormed_decodeCmd h
  | op =>
    cases bs with
    | nil => cases h
    | cons c bs => cases h; exact wellFormed_decodeOp _
  | ahx ws =>
    cases bs with
    | nil => cases h
    | cons c bs => cases h; exact wellFormed_decodeAhx ws c
  | a85 ws tilde =>
    cases bs with
    | nil => cases h
    | cons c bs => cases h; exact wellFormed_decodeA85 ws tilde c
  | rl =>
    cases bs with
    | nil => cases h
    | cons c bs => cases h; exact wellFormed_decodeRl c

/-- A byte that the decoder reads as an instruction which is encoded as the byte stands for that one alone. -/
theorem existsUnique_of_decode {x : Ctx} {c : Byte} {i : Instr} (hd : decode x [c] = .ok i) (he : encode x i = [c]) :
    ∃! i : Instr, i.wellFormed x = true ∧ encode x i = [c] := by
  refine ⟨i, ⟨decodedInstructionsAreWellFormed x [c] i hd, he⟩, ?_⟩
  rintro j ⟨hj, ej⟩
  have hdj := decodeOfEncodeIsTheInstruction x j hj
  rw [ej, hd] at hdj
  exact (Except.ok.inj hdj).symm

/-- Settles O4, from O2 and O3 with the encoding of the decoded byte. -/
theorem everyStreamByteHasExactlyOneClass : Obligations.EveryStreamByteHasExactlyOneClass := by
  unfold Obligations.EveryStreamByteHasExactlyOneClass
  exact fun ws tilde c => ⟨existsUnique_of_decode rfl (encode_decodeAhx ws c),
    existsUnique_of_decode rfl (encode_decodeA85 ws tilde c), existsUnique_of_decode rfl (encode_decodeRl c)⟩

/-- Settles O1, word by word by running the decoder. -/
theorem wordsOfTheTablesDecode : Obligations.WordsOfTheTablesDecode := by
  unfold Obligations.WordsOfTheTablesDecode
  decide

end Sys2Proof.Machine
end

section
/-! PROOFS, encoding (spec/30_encoding.md). O60: the empty name as a stage (R111, R134). -/

namespace Sys2Proof.Machine

/-- With the stage of an error forgotten, `decodeAll` is the fold of `decode` over the names (R131). -/
theorem fnDecodeFrom_mapError (ws : Bytes) (i : Nat) (names : List Bytes) (d : Bytes) :
    (fnDecodeFrom ws i names d).mapError Prod.fst = names.foldlM (fun cur n => fnDecode ws n cur) d := by
  induction names generalizing i d with
  | nil => rfl
  | cons n ns ih =>
    rw [fnDecodeFrom, List.foldlM_cons]
    cases fnDecode ws n d with
    | error k => rfl
    | ok b => exact ih (i + 1) b

/-- An empty name gives its stage's input (R134). -/
theorem fnDecode_nil (ws d : Bytes) : fnDecode ws [] d = .ok d := rfl

/-- Settles O60: in the fold over the names the empty one is a step that changes nothing. -/
theorem emptyNameIsTheNoOperationStage : Obligations.EmptyNameIsTheNoOperationStage := by
  unfold Obligations.EmptyNameIsTheNoOperationStage
  intro ws a b d
  have h : (fnDecodeAll ws (a ++ [] :: b) d).mapError Prod.fst = (fnDecodeAll ws (a ++ b) d).mapError Prod.fst := by
    simp only [fnDecodeAll, fnDecodeFrom_mapError, List.foldlM_append, List.foldlM_cons, fnDecode_nil]
    rfl
  revert h
  generalize fnDecodeAll ws (a ++ [] :: b) d = r
  generalize fnDecodeAll ws (a ++ b) d = r'
  cases r <;> cases r' <;> exact id

end Sys2Proof.Machine
end

section
/-! PROOFS, dispatcher (spec/40_dispatcher.md). O7, O8, O17, O19, O20, O24: what a step fetches and runs, the command that
begins a run, the filter names one by one, and the finishing step. -/

namespace Sys2Proof.Machine

/-! ## The fetch -/

/-- The engine's move at a stage to dispatch is the stage's name (R137). -/
theorem engineAction_dispatch {s : State} (hb : s.rep.status = .busy) (hp : s.seq.phase = .dispatch)
    (hs : s.seq.stage < s.seq.nStages) : engineAction s = .instr (decodeName (s.name s.seq.stage)) := by
  simp [engineAction, hb, hp, hs]

/-- The engine's move in an unfinished unit is the instruction at the unit's cursor (R138). -/
theorem engineAction_unit {s : State} {x : Ctx} {bs : Bytes} {i : Instr} (hb : s.rep.status = .busy)
    (hp : s.seq.phase = .run) (hf : s.unitFinished = false) (hw : s.window = some (x, bs)) (hd : decode x bs = .ok i) :
    engineAction s = .instr i := by
  simp [engineAction, hb, hp, hf, hw, hd]

/-- Only the four units have a finished test, and each of them has a window (R138). -/
theorem window_of_finished {s : State} (h : s.unitFinished = true) : ∃ x bs, s.window = some (x, bs) := by
  unfold State.unitFinished at h
  split at h
  case h_1 hid => exact ⟨_, _, window_ahx hid⟩
  case h_2 hid => exact ⟨_, _, window_a85 hid⟩
  case h_3 hid => exact ⟨_, _, window_lzw hid⟩
  case h_4 hid => exact ⟨_, _, window_rl hid⟩
  case h_5 => cases h

/-- The engine's move in a finished unit is the stage end (R138). -/
theorem engineAction_stageEnd {s : State} (hb : s.rep.status = .busy) (hp : s.seq.phase = .run)
    (hf : s.unitFinished = true) : engineAction s = .stageEnd := by
  obtain ⟨x, bs, hw⟩ := window_of_finished hf
  simp [engineAction, hb, hp, hf, hw]

/-- A bit in a byte and out again. -/
theorem bit_of_byte (v : BitVec 1) : (v.setWidth 8).setWidth 1 = v := by
  rcases bit_cases v with rfl | rfl <;> rfl

/-- Settles O7: each of the four situations fixes the next action. -/
theorem stepRunsTheDecodedInstruction : Obligations.StepRunsTheDecodedInstruction := by
  unfold Obligations.StepRunsTheDecodedInstruction
  intro s
  refine ⟨fun hm hb hp hs i hd => ?_, fun hm hb hp hf x bs i hw hd => ?_, fun v rest i hq hd => ?_,
    fun v rest i hq hd => ?_⟩
  · cases hd
    exact step_of_instr ((nextAction_engine hm).trans (engineAction_dispatch hb hp hs))
  · exact step_of_instr ((nextAction_engine hm).trans (engineAction_unit hb hp hf hw hd))
  · have hd : decodeCmd v = .ok i := by rw [← bit_of_byte v]; exact hd
    have ha : nextAction s = .instr i := by simp only [nextAction, hq, hostAction, hd]
    rw [step_of_instr ha, State.popTurn, hq, List.tail_cons]
  · cases hd
    have ha : nextAction s = .instr (decodeOp ((v.setWidth 8).setWidth 1)) := by
      simp only [nextAction, hq, hostAction, bit_of_byte]
    rw [step_of_instr ha, State.popTurn, hq, List.tail_cons]

/-! ## The command -/

/-- `IN[0:IN_LEN]` has the bytes of `IN` (R23). -/
theorem input_getElem? (s : State) {a : Nat} (ha : a < s.host.inLen) : s.input[a]? = some (s.host.inBuf.read a) := by
  simp [State.input, Memory.bytes, ha]

/-- Settles O17: outside `BUSY` the state is `State.started`, and `SRC` is the one space it writes. -/
theorem startBeginsARun : Obligations.StartBeginsARun := by
  unfold Obligations.StartBeginsARun
  intro s
  refine ⟨fun hb => ⟨s.started, by rw [exec, execStart, unlessBusy_of_ne _ hb], rfl, rfl, rfl, rfl, ?_, ?_, rfl, rfl,
    rfl, rfl, rfl, rfl, rfl, ?_⟩, fun hb => by rw [exec, execStart, unlessBusy_of_busy _ hb]⟩
  · simp [State.input, Memory.bytes]
  · exact fun a ha => input_getElem? s ha
  · intro sp a hs
    cases sp with
    | src => exact absurd rfl hs
    | dst | input | output | name => rfl

/-! ## The names -/

/-- All a filter name can do (R137, R272, R282): raise, end the stage at once, or initialise its unit and start it. -/
inductive NameStep (s : State) : Instr → State → Prop
  | raised (i : Instr) (k : ErrKind) (f : FilterId) : NameStep s i (s.aborted k f)
  | identity : NameStep s .nameIdentity (s.skipStage .identity)
  | flate (b : Bytes) : NameStep s .nameFlate (s.passStage .flate b)
  | ahx : NameStep s .nameAhx (s.initAhx.enterUnit .ahx)
  | a85 : NameStep s .nameA85 (s.initA85.enterUnit .a85)
  | lzw : NameStep s .nameLzw (s.initLzw.enterUnit .lzw)
  | rl : NameStep s .nameRl (s.initRl.enterUnit .rl)

theorem nameStep_of_raise {i : Instr} {k : ErrKind} {f : FilterId} {s t : State} (h : raise k f s = .next t) :
    NameStep s i t :=
  raise_eq_next.mp h ▸ .raised i k f

theorem nameStep_of_exec {i : Instr} {s t : State} (hi : i.wellFormed .name = true) (h : exec i s = .next t) :
    NameStep s i t := by
  cases i
  case nameIdentity => cases h; exact .identity
  case nameAhx => cases h; exact .ahx
  case nameA85 => cases h; exact .a85
  case nameLzw => cases h; exact .lzw
  case nameRl => cases h; exact .rl
  case nameFlate =>
    simp only [exec, execNameFlate] at h
    split at h
    · exact nameStep_of_raise h
    · cases h; exact .flate _
  case nameStubCcf | nameStubJbig2 | nameStubDct | nameStubJpx | nameStubCrypt | nameUnknown =>
    exact nameStep_of_raise h
  all_goals simp [Instr.wellFormed] at hi

/-- The host registers, `OUT` and the model's own fields are out of the names' reach, even of one that raises. -/
theorem NameStep.outside {i : Instr} {s t : State} (h : NameStep s i t) :
    t.host = s.host ∧ t.ws = s.ws ∧ t.agenda = s.agenda ∧ t.draws = s.draws ∧ t.rep.out = s.rep.out := by
  cases h <;> exact ⟨rfl, rfl, rfl, rfl, rfl⟩

/-- Settles O24, name by name: a unit's registers change under its own name alone, and `SRC` under `FlateDecode` alone. -/
theorem namesFrame : Obligations.NamesFrame := by
  unfold Obligations.NamesFrame
  intro s t i hwf ht
  have hstep := nameStep_of_exec hwf ht
  obtain ⟨hhost, hws, hagenda, hdraws, hout⟩ := hstep.outside
  refine ⟨hhost, hws, hagenda, hdraws, fun sp a hs hd => readByte_of_host_out hhost hout hs hd a, fun he => ?_⟩
  cases hstep with
  | raised => exact absurd rfl he
  | identity => exact ⟨rfl, rfl, fun _ => rfl, fun _ => rfl, fun _ => rfl, fun _ => rfl, fun _ _ => rfl⟩
  | flate b => exact ⟨rfl, rfl, fun _ => rfl, fun _ => rfl, fun _ => rfl, fun _ => rfl, fun h => absurd rfl h⟩
  | ahx => exact ⟨rfl, rfl, fun h => absurd rfl h, fun _ => rfl, fun _ => rfl, fun _ => rfl, fun _ _ => rfl⟩
  | a85 => exact ⟨rfl, rfl, fun _ => rfl, fun h => absurd rfl h, fun _ => rfl, fun _ => rfl, fun _ _ => rfl⟩
  | rl => exact ⟨rfl, rfl, fun _ => rfl, fun _ => rfl, fun h => absurd rfl h, fun _ => rfl, fun _ _ => rfl⟩
  | lzw => exact ⟨rfl, rfl, fun _ => rfl, fun _ => rfl, fun _ => rfl, fun h => absurd rfl h, fun _ _ => rfl⟩

/-- Settles O19: the meaning of the empty name is `State.skipStage`. -/
theorem identityStageOnlyAdvances : Obligations.IdentityStageOnlyAdvances := by
  unfold Obligations.IdentityStageOnlyAdvances
  exact fun s => rfl

/-- Settles O20: the meanings are `State.enterUnit` after the unit's initialisation, and of the dictionary only the
literals are defined below 258. -/
theorem unitNamesInitialiseTheirUnit : Obligations.UnitNamesInitialiseTheirUnit := by
  unfold Obligations.UnitNamesInitialiseTheirUnit
  refine fun s => ⟨rfl, rfl, rfl, s.initLzw.enterUnit .lzw, rfl, rfl, rfl, rfl, rfl, rfl, rfl, rfl, ?_, ?_⟩
  · exact fun c hc => entry_literal _ hc
  · exact fun c hc => entry_undefined _ hc (Nat.lt_or_ge c 258)

/-! ## The finishing step -/

/-- Settles O8: the step is `State.finished`, which writes the span of `OUT` below `SRC_LEN`. -/
theorem finishingStepDeliversTheResult : Obligations.FinishingStepDeliversTheResult := by
  unfold Obligations.FinishingStepDeliversTheResult
  intro s h hm hb hp hs
  refine ⟨_, step_of_finish ((nextAction_engine hm).trans (engineAction_finish hb hp hs)), rfl, rfl, fun a ha => ?_,
    fun a ha => ?_, rfl, rfl, rfl, rfl⟩
  · have hread := Memory.read_writeAll_inside h.outWf (a := 0) ha
    rw [Nat.zero_add] at hread
    exact (congrArg some hread).trans (List.getElem?_eq_getElem ha).symm
  · have hread := Memory.read_writeAll_outside h.outWf (a := 0) (bs := s.seq.src) (.inr ((Nat.zero_add _).le.trans ha))
    exact congrArg some hread

end Sys2Proof.Machine
end

section
/-! PROOFS, dispatcher (spec/40_dispatcher.md). O59: a pipeline of two lists (R144). -/

namespace Sys2Proof.Machine

/-- The fold over two lists is the one after the other, at the stages where each stands (R131). -/
theorem fnDecodeFrom_append (ws : Bytes) (i : Nat) (a b : List Bytes) (d : Bytes) :
    fnDecodeFrom ws i (a ++ b) d = fnDecodeFrom ws i a d >>= fnDecodeFrom ws (i + a.length) b := by
  induction a generalizing i d with
  | nil => rfl
  | cons n ns ih =>
    rw [List.cons_append, fnDecodeFrom, fnDecodeFrom]
    cases fnDecode ws n d with
    | error k => rfl
    | ok x =>
      rw [List.length_cons, ← Nat.add_assoc, Nat.add_right_comm]
      exact ih (i + 1) x

/-- A fold from a later stage gives the same value, an error's stage being counted from there. -/
theorem fnDecodeFrom_add (ws : Bytes) (i j : Nat) (names : List Bytes) (d : Bytes) :
    fnDecodeFrom ws (i + j) names d = (fnDecodeFrom ws i names d).mapError fun e => (e.1, e.2 + j) := by
  induction names generalizing i d with
  | nil => rfl
  | cons n ns ih =>
    rw [fnDecodeFrom, fnDecodeFrom]
    cases fnDecode ws n d with
    | error k => rfl
    | ok x =>
      rw [Nat.add_right_comm]
      exact ih (i + 1) x

/-- Settles O59, from the fold over two lists and the shift of its stages. -/
theorem decodeAllComposes : Obligations.DecodeAllComposes := by
  unfold Obligations.DecodeAllComposes
  intro ws a b d
  simp only [fnDecodeAll, fnDecodeFrom_append]
  cases fnDecodeFrom ws 0 a d with
  | error e => rfl
  | ok x =>
    refine (fnDecodeFrom_add ws 0 a.length b x).trans ?_
    dsimp only
    cases fnDecodeFrom ws 0 b x <;> rfl

end Sys2Proof.Machine
end

section
/-! PROOFS, dispatcher (spec/40_dispatcher.md). Runs of several steps, and the three rules by which a running unit's stage is
shown to end with a value: a move of the unit, a raise, and the stage end (R138). -/

namespace Sys2Proof.Machine

/-! ## Runs -/

/-- A run of one step more is a step and a run, of any machine. -/
theorem run_succ (M : Host.Core) {k : Nat} {s t : M.State} :
    M.run (k + 1) s = .next t ↔ ∃ u, M.step s = .next u ∧ M.run k u = .next t := by
  rw [Host.Core.run]
  cases M.step s <;> simp

theorem runSteps_succ {k : Nat} {s t : State} :
    runSteps (k + 1) s = .next t ↔ ∃ u, step s = .next u ∧ runSteps k u = .next t :=
  run_succ core

theorem runSteps_one {s t : State} (h : step s = .next t) : runSteps 1 s = .next t :=
  runSteps_succ.mpr ⟨t, h, rfl⟩

theorem runSteps_add {k m : Nat} {s t u : State} (hk : runSteps k s = .next u) (hm : runSteps m u = .next t) :
    runSteps (m + k) s = .next t := by
  induction k generalizing s with
  | zero => cases hk; exact hm
  | succ k ih =>
    obtain ⟨v, hv, hk⟩ := runSteps_succ.mp hk
    exact runSteps_succ.mpr ⟨v, hv, ih hk⟩

/-- What every step keeps holds at the end of a run. -/
theorem runSteps_keeps {P : State → Prop} (hP : ∀ s t, P s → step s = .next t → P t) {k : Nat} {s t : State}
    (h : runSteps k s = .next t) (hs : P s) : P t := by
  induction k generalizing s with
  | zero => cases h; exact hs
  | succ k ih =>
    obtain ⟨u, hu, hk⟩ := runSteps_succ.mp h
    exact ih hk (hP s u hs hu)

theorem EndsIn.of_runSteps {k : Nat} {s t u : State} (hk : runSteps k s = .next u) (h : EndsIn u t) : EndsIn s t := by
  obtain ⟨m, hm, hb⟩ := h
  exact ⟨_, runSteps_add hk hm, hb⟩

/-- Every step takes its own turn off the agenda. -/
theorem StepMove.agenda {s t : State} (h : StepMove s t) : t.agenda = s.agenda.tail := by
  cases h with
  | quiet | reset | finish | abort => rfl
  | start => rcases unlessBusy_started_cases s.popTurn with ⟨-, e⟩ | ⟨-, e⟩ <;> rw [e] <;> rfl
  | store w => rw [hostStore_eq]; rfl
  | load r => rw [hostLoad_eq]; rfl
  | nextStage _ _ hm => exact hm.working.agenda
  | enter _ _ hm => exact hm.working.agenda
  | unit _ _ _ _ _ _ hm => exact hm.working.agenda

/-- Once the engine alone moves, it alone moves. -/
theorem agenda_nil_of_step {s t : State} (h : s.agenda = []) (hs : step s = .next t) : t.agenda = [] := by
  rw [(stepMove_of_step hs).agenda, h, List.tail_nil]

/-- With no turn on the agenda none is taken off. -/
theorem popTurn_of_nil {s : State} (h : s.agenda = []) : s.popTurn = s := by
  simp only [State.popTurn, h, List.tail_nil]
  rw [← h]

/-! ## A unit that runs alone -/

/-- The unit `f` runs and the engine is the only one to move. -/
structure UnitRuns (f : FilterId) (s : State) : Prop where
  status : s.rep.status = .busy
  agenda : s.agenda = []
  phase : s.seq.phase = .run
  fid : s.seq.fid = f

namespace UnitRuns
variable {f : FilterId} {n : Nat} {s t : State} (h : UnitRuns f s)
include h

theorem move (hm : UnitMove f n s t) : UnitRuns f t :=
  ⟨hm.working.rep ▸ h.status, hm.working.agenda ▸ h.agenda, hm.phase ▸ h.phase, hm.fid ▸ h.fid⟩

/-- An unfinished unit runs the instruction at its cursor. -/
theorem step_eq_exec {x : Ctx} {bs : Bytes} {i : Instr} (hf : s.unitFinished = false) (hw : s.window = some (x, bs))
    (hd : decode x bs = .ok i) : step s = exec i s := by
  have ha := (nextAction_engine (.inl h.agenda)).trans (engineAction_unit h.status h.phase hf hw hd)
  rw [step_of_instr ha, popTurn_of_nil h.agenda]

/-- A finished unit takes the stage end. -/
theorem step_eq_stageEnd (hf : s.unitFinished = true) : step s = stageEnd s := by
  have ha := (nextAction_engine (.inl h.agenda)).trans (engineAction_stageEnd h.status h.phase hf)
  rw [step_of_stageEnd ha, popTurn_of_nil h.agenda]

/-- The stage end makes the finish rule's answer the stage's value (R138). -/
theorem yields_of_finished (hf : s.unitFinished = true) :
    StageYields s (s.unitFinish.map fun t => t.seq.dst) := by
  have hs := h.step_eq_stageEnd hf
  rcases stageEnd_cases s with ⟨k, hk, ht⟩ | ⟨t, hk, ht⟩ <;> rw [hk]
  · exact ⟨1, _, runSteps_one (hs.trans ht), rfl, rfl, rfl⟩
  · obtain ⟨bs, rfl⟩ := unitFinish_ok hk
    exact ⟨1, _, runSteps_one (hs.trans ht), rfl, rfl, rfl, rfl, rfl, rfl, rfl⟩

end UnitRuns

/-- A move of the unit leaves the stage's value to the state it leads to. -/
theorem yields_of_move {f : FilterId} {n : Nat} {s t : State} {r : Except ErrKind Bytes} (hs : step s = .next t)
    (hm : UnitMove f n s t) (hy : StageYields t r) : StageYields s r := by
  obtain ⟨k, u, hk, hhost, hws, hr⟩ := hy
  refine ⟨k + 1, u, runSteps_succ.mpr ⟨t, hs, hk⟩, hhost.trans hm.working.host, hws.trans hm.working.ws, ?_⟩
  rw [hm.working.rep, hm.stage, hm.nStages, hm.fid] at hr
  exact hr

/-- A cursor with a byte at it is below `SRC_LEN`, and the bytes from the next one on are the rest. -/
theorem cursor_of_drop_eq_cons {src rest : Bytes} {rp : Nat} {c : Byte} (h : src.drop rp = c :: rest) :
    rp < src.length ∧ src.drop (rp + 1) = rest := by
  refine ⟨?_, by rw [← List.tail_drop, h, List.tail_cons]⟩
  by_contra hge
  rw [List.drop_eq_nil_of_le (Nat.not_lt.mp hge)] at h
  cases h

/-- A raise is the stage's value at once (R290). -/
theorem yields_of_raise {s : State} {k : ErrKind} (hs : step s = raise k s.seq.fid s) : StageYields s (.error k) :=
  ⟨1, _, runSteps_one hs, rfl, rfl, rfl⟩

end Sys2Proof.Machine
end

section
/-! PROOFS, dispatcher (spec/40_dispatcher.md), for the RunLength stage: the unit computes the loop of R250, one control byte
a step. -/

namespace Sys2Proof.Machine

/-- The class of a control byte with its operand as a number (R106, R107). -/
theorem decodeRl_cases (c : Byte) :
    (c.toNat < 128 ∧ ∃ n, decodeRl c = .rlLit n ∧ rlLitLen n = c.toNat + 1) ∨
    (c.toNat = 128 ∧ decodeRl c = .rlEod) ∨
    (128 < c.toNat ∧ ∃ n, decodeRl c = .rlRep n ∧ rlRepCount n = 257 - c.toNat) := by
  have hc := c.isLt
  unfold decodeRl
  split_ifs with hl he
  · exact .inl ⟨hl, _, rfl, by rw [rlLitLen, BitVec.toNat_setWidth]; omega⟩
  · exact .inr (.inl ⟨he, rfl⟩)
  · exact .inr (.inr ⟨by omega, _, rfl, by rw [rlRepCount, BitVec.toNat_setWidth]; omega⟩)

/-- The finished unit's output is the stage's value: the unit has no finish rule (R251). -/
theorem rl_yields_of_finished {s : State} (h : UnitRuns .rl s) (hf : rlFinished s = true) :
    StageYields s (.ok s.seq.dst) := by
  have hfin : s.unitFinish = .ok s := by simp only [State.unitFinish, h.fid]
  have hy := h.yields_of_finished (by simpa only [State.unitFinished, h.fid] using hf)
  rwa [hfin] at hy

/-- The unfinished unit's step is that of the control byte at its cursor (R252). -/
theorem rl_step {s : State} (h : UnitRuns .rl s) (heod : s.rl.eod = false) (hr : s.seq.rp < s.seq.src.length) :
    step s = exec (decodeRl s.seq.src[s.seq.rp]) s := by
  refine h.step_eq_exec ?_ (window_rl h.fid) (by rw [List.drop_eq_getElem_cons hr]; rfl)
  simp [State.unitFinished, h.fid, rlFinished, heod, hr.ne]

/-- A literal run copies its payload and goes on, or raises if the payload is cut short (R254). -/
theorem rlLit_yields {s : State} {n : BitVec 7} {fuel : Nat} (hs : step s = exec (.rlLit n) s)
    (next : ∀ m t, 1 ≤ m → UnitMove .rl m s t → t.rl = s.rl → t.seq.rp ≤ t.seq.src.length →
      StageYields t (rlLoop s.seq.src fuel t.seq.rp t.seq.dst)) :
    StageYields s (if s.seq.rp + 1 + rlLitLen n > s.seq.src.length then .error .invalidEncoding
      else rlLoop s.seq.src fuel (s.seq.rp + 1 + rlLitLen n)
        (s.seq.dst ++ (s.seq.src.drop (s.seq.rp + 1)).take (rlLitLen n))) := by
  simp only [exec, execRlLit] at hs
  split_ifs at hs ⊢ with hp
  · exact yields_of_raise hs
  · have hm := (UnitMove.emit .rl s (s.memReads (s.seq.rp + 1) (rlLitLen n))).trans
      (.advance .rl (1 + rlLitLen n) _)
    have hy := next _ _ (by omega) hm rfl
      (by simp only [advance_seq_rp, emit_seq_rp, advance_seq_src, emit_seq_src]; omega)
    rw [advance_seq_rp, emit_seq_rp, ← Nat.add_assoc] at hy
    exact yields_of_move hs hm hy

/-- A repeat run repeats its byte and goes on, or raises if there is none (R255). -/
theorem rlRep_yields {s : State} {n : BitVec 7} {fuel : Nat} (hs : step s = exec (.rlRep n) s)
    (next : ∀ m t, 1 ≤ m → UnitMove .rl m s t → t.rl = s.rl → t.seq.rp ≤ t.seq.src.length →
      StageYields t (rlLoop s.seq.src fuel t.seq.rp t.seq.dst)) :
    StageYields s (match s.seq.src[s.seq.rp + 1]? with
      | none => .error .invalidEncoding
      | some b => rlLoop s.seq.src fuel (s.seq.rp + 2) (s.seq.dst ++ List.replicate (rlRepCount n) b)) := by
  simp only [exec, execRlRep, State.memRead] at hs
  cases hb : s.seq.src[s.seq.rp + 1]? with
  | none =>
    rw [hb] at hs
    exact yields_of_raise hs
  | some b =>
    rw [hb] at hs
    have hlt : s.seq.rp + 1 < s.seq.src.length := (List.getElem?_eq_some_iff.mp hb).1
    have hm := (UnitMove.emit .rl s (List.replicate (rlRepCount n) b)).trans (.advance .rl 2 _)
    exact yields_of_move hs hm (next _ _ (by omega) hm rfl hlt)

/-- From any state of the unfinished unit the stage's value is that of the loop at the cursor and the output so far, with
fuel for the bytes left. -/
theorem rl_yields {fuel : Nat} {s : State} (h : UnitRuns .rl s) (heod : s.rl.eod = false)
    (hr : s.seq.rp ≤ s.seq.src.length) (hfuel : s.seq.src.length ≤ s.seq.rp + fuel) :
    StageYields s (rlLoop s.seq.src fuel s.seq.rp s.seq.dst) := by
  induction fuel generalizing s with
  | zero => exact rl_yields_of_finished h (by simp [rlFinished]; omega)
  | succ fuel ih =>
    rcases hr.eq_or_lt with hend | hlt
    · have hnone : s.seq.src[s.seq.rp]? = none := List.getElem?_eq_none hend.ge
      simp only [rlLoop, hnone]
      exact rl_yields_of_finished h (by simp [rlFinished, hend])
    have next (m : Nat) (t : State) (hm1 : 1 ≤ m) (hm : UnitMove .rl m s t) (hrl : t.rl = s.rl)
        (hrt : t.seq.rp ≤ t.seq.src.length) : StageYields t (rlLoop s.seq.src fuel t.seq.rp t.seq.dst) := by
      have hy := ih (h.move hm) (hrl ▸ heod) hrt (by rw [hm.src, hm.rp]; omega)
      rwa [hm.src] at hy
    have hs := rl_step h heod hlt
    set c := s.seq.src[s.seq.rp] with hc
    have hget : s.seq.src[s.seq.rp]? = some c := List.getElem?_eq_getElem hlt
    rcases decodeRl_cases c with ⟨hl, n, e, hn⟩ | ⟨he, e⟩ | ⟨hg, n, e, hn⟩ <;> rw [e] at hs
    · simp only [rlLoop, hget, if_neg hl.ne, if_pos hl, Nat.add_assoc _ c.toNat 1, ← hn]
      exact rlLit_yields hs next
    · simp only [rlLoop, hget, if_pos he]
      have hm := (UnitMove.setRl s { eod := true }).trans (.advance .rl 1 _)
      exact yields_of_move hs hm (rl_yields_of_finished (h.move hm) rfl)
    · simp only [rlLoop, hget, if_neg hg.ne', if_neg hg.not_gt, ← hn]
      exact rlRep_yields hs next

/-- The RunLength unit computes `RL` (R250). -/
theorem rlUnit_yields {s : State} {data : Bytes} (h : s.unitStart .rl data) : StageYields s (fnRl data) := by
  obtain ⟨hb, ha, hp, hf, rfl, hdst, hrp, hrl⟩ := h
  have hy := rl_yields (fuel := s.seq.src.length) ⟨hb, ha, hp, hf⟩ (by rw [hrl]) (by omega) (by omega)
  rwa [hrp, hdst] at hy

end Sys2Proof.Machine
end

section
/-! PROOFS, dispatcher (spec/40_dispatcher.md), for the ASCIIHex stage: the unit computes R160, one byte a step. A digit that
the unit holds stands for itself in front of the bytes that are left. -/

namespace Sys2Proof.Machine

/-! ## The function, byte by byte -/

theorem stripWs_cons_of_ws {ws : Bytes} {c : Byte} (h : isWs ws c = true) (data : Bytes) :
    stripWs ws (c :: data) = stripWs ws data := by
  simp [stripWs, h]

theorem stripWs_cons_of_not_ws {ws : Bytes} {c : Byte} (h : isWs ws c = false) (data : Bytes) :
    stripWs ws (c :: data) = c :: stripWs ws data := by
  simp [stripWs, h]

/-- A hexadecimal digit is neither whitespace nor the terminator (R94). -/
theorem not_ws_of_isHexDigit (ws : Bytes) {c : Byte} (h : isHexDigit c = true) :
    isWs ws c = false ∧ c ≠ 0x3E#8 := by
  have hr : hexMember c = true := isHexDigit_eq_hexMember c ▸ h
  have hr := of_decide_eq_true hr
  refine ⟨isWs_of_printing ws (by omega), ?_⟩
  rintro rfl
  exact absurd h (by decide)

/-- The digits the unit holds, with `HX_HI` as they leave it (R169). -/
inductive AhxHeld : Option (BitVec 4) → Bytes → Prop
  | none : AhxHeld none []
  | digit (d : Byte) (hd : isHexDigit d = true) : AhxHeld (some (hexval d)) [d]

theorem AhxHeld.stripWs {hi : Option (BitVec 4)} {l : Bytes} (h : AhxHeld hi l) (ws data : Bytes) :
    stripWs ws (l ++ data) = l ++ stripWs ws data := by
  cases h with
  | none => rfl
  | digit d hd => exact stripWs_cons_of_not_ws (not_ws_of_isHexDigit ws hd).1 data

section
variable {ws : Bytes} {hi : Option (BitVec 4)} {l : Bytes} (h : AhxHeld hi l)
include h

/-- Without a terminator the value is an error (R163). -/
theorem fnAhx_held : fnAhx ws l = .error .invalidEncoding := by
  cases h with
  | none => rfl
  | digit d hd => simp [fnAhx, stripWs, (not_ws_of_isHexDigit ws hd).2.symm]

theorem fnAhx_held_ws {c : Byte} (hc : isWs ws c = true) (data : Bytes) :
    fnAhx ws (l ++ c :: data) = fnAhx ws (l ++ data) := by
  simp only [fnAhx, h.stripWs, stripWs_cons_of_ws hc]

/-- At the terminator the digits held are all there is (R162). -/
theorem fnAhx_held_eod (data : Bytes) : fnAhx ws (l ++ 0x3E#8 :: data) = .ok (hexPairs l) := by
  have hws : isWs ws 0x3E#8 = false := isWs_of_printing ws (by decide)
  simp only [fnAhx, h.stripWs, stripWs_cons_of_not_ws hws]
  cases h with
  | none => simp [hexPairs]
  | digit d hd => simp [hd, (not_ws_of_isHexDigit ws hd).2]

theorem fnAhx_held_invalid {c : Byte} (hc : isWs ws c = false) (he : c ≠ 0x3E#8) (hd : isHexDigit c = false)
    (data : Bytes) : fnAhx ws (l ++ c :: data) = .error .invalidEncoding := by
  simp only [fnAhx, h.stripWs, stripWs_cons_of_not_ws hc]
  cases h with
  | none => simp [he, hd]
  | digit d hd' => simp [he, hd, (not_ws_of_isHexDigit ws hd').2]

end

/-- Two digits give their byte and leave the rest (R164). -/
theorem fnAhx_pair {ws : Bytes} {d e : Byte} (hd : isHexDigit d = true) (he : isHexDigit e = true) (data : Bytes) :
    fnAhx ws (d :: e :: data) = (fnAhx ws data).map (hexPair (hexval d) (hexval e) :: ·) := by
  obtain ⟨hdw, hde⟩ := not_ws_of_isHexDigit ws hd
  obtain ⟨hew, hee⟩ := not_ws_of_isHexDigit ws he
  simp only [fnAhx, stripWs_cons_of_not_ws hdw, stripWs_cons_of_not_ws hew, List.contains_cons, List.takeWhile_cons]
  simp only [hde, hee, hde.symm, hee.symm, bne_iff_ne, ne_eq, not_false_eq_true, if_true, beq_eq_false_iff_ne.mpr,
    Bool.false_or, List.all_cons, hd, he, Bool.true_and, hexPairs]
  split
  · split <;> rfl
  · rfl

/-! ## The unit, byte by byte -/

/-- The class of an ASCIIHex byte, as disjoint cases (R94). -/
theorem decodeAhx_cases (ws : Bytes) (c : Byte) :
    (isWs ws c = true ∧ decodeAhx ws c = .ahxWs c) ∨
    (c = 0x3E#8 ∧ decodeAhx ws c = .ahxEod) ∨
    (isHexDigit c = true ∧ decodeAhx ws c = .ahxDigit c) ∨
    (isWs ws c = false ∧ c ≠ 0x3E#8 ∧ isHexDigit c = false ∧ decodeAhx ws c = .ahxInvalid c) := by
  unfold decodeAhx
  split_ifs with hw he hd
  · exact .inl ⟨hw, rfl⟩
  · exact .inr (.inl ⟨he, rfl⟩)
  · exact .inr (.inr (.inl ⟨hd, rfl⟩))
  · exact .inr (.inr (.inr ⟨by simpa using hw, he, by simpa using hd, rfl⟩))

/-- The unfinished unit's step is that of the byte at its cursor (R166). -/
theorem ahx_step {s : State} (h : UnitRuns .ahx s) (heod : s.ahx.eod = false) {c : Byte} {rest : Bytes}
    (hd : s.seq.src.drop s.seq.rp = c :: rest) : step s = exec (decodeAhx s.ws c) s := by
  refine h.step_eq_exec ?_ (window_ahx h.fid) (by rw [hd]; rfl)
  simp [State.unitFinished, h.fid, ahxFinished, heod, (cursor_of_drop_eq_cons hd).1.ne]

/-- The finished unit gives its finish rule's answer (R171). -/
theorem ahx_yields_of_finished {s : State} (h : UnitRuns .ahx s) (hf : ahxFinished s = true) :
    StageYields s ((ahxFinish s).map fun t => t.seq.dst) := by
  have hfin : s.unitFinish = ahxFinish s := by simp only [State.unitFinish, h.fid]
  have hy := h.yields_of_finished (by simpa only [State.unitFinished, h.fid] using hf)
  rwa [hfin] at hy

/-- After the terminator the digit held fills the low nibble of a last byte (R165, R171). -/
theorem ahx_yields_of_eod {s : State} {l : Bytes} (h : UnitRuns .ahx s) (heod : s.ahx.eod = true)
    (hl : AhxHeld s.ahx.hi l) : StageYields s (.ok (s.seq.dst ++ hexPairs l)) := by
  have hy := ahx_yields_of_finished h (by simp [ahxFinished, heod])
  generalize hhi : s.ahx.hi = hi at hl
  cases hl <;> simpa [ahxFinish, heod, hhi, Except.map, hexPairs] using hy

/-- A digit is held if none is, and else completes a byte (R169). -/
theorem ahxDigit_yields {s : State} {c : Byte} {l rest : Bytes} (hs : step s = exec (.ahxDigit c) s)
    (hc : isHexDigit c = true) (heod : s.ahx.eod = false) (hl : AhxHeld s.ahx.hi l)
    (next : ∀ t l', UnitMove .ahx 1 s t → t.ahx.eod = false → AhxHeld t.ahx.hi l' →
      StageYields t ((fnAhx s.ws (l' ++ rest)).map (t.seq.dst ++ ·))) :
    StageYields s ((fnAhx s.ws (l ++ c :: rest)).map (s.seq.dst ++ ·)) := by
  simp only [exec, execAhxDigit] at hs
  generalize hhi : s.ahx.hi = hi at hl hs
  cases hl with
  | none =>
    have hm := (UnitMove.setAhx s { s.ahx with hi := some (hexval c) }).trans (.advance .ahx 1 _)
    exact yields_of_move hs hm (next _ _ hm heod (.digit c hc))
  | digit d hd =>
    have hm := ((UnitMove.setAhx s { s.ahx with hi := none }).trans
      (.emit .ahx _ [hexPair (hexval d) (hexval c)])).trans (.advance .ahx 1 _)
    have hy := next _ _ hm heod .none
    refine yields_of_move hs hm ?_
    rw [List.singleton_append, fnAhx_pair hd hc]
    revert hy
    cases hv : fnAhx s.ws rest <;> simp [Except.map, hv]

/-- From any state of the unfinished unit the stage's value is the output so far with the function's value of the digit held
and the bytes left. -/
theorem ahx_yields {s : State} {data l : Bytes} (h : UnitRuns .ahx s) (heod : s.ahx.eod = false)
    (hr : s.seq.rp ≤ s.seq.src.length) (hdata : s.seq.src.drop s.seq.rp = data) (hl : AhxHeld s.ahx.hi l) :
    StageYields s ((fnAhx s.ws (l ++ data)).map (s.seq.dst ++ ·)) := by
  induction data generalizing s l with
  | nil =>
    have hend : s.seq.src.length ≤ s.seq.rp := List.drop_eq_nil_iff.mp hdata
    have hy := ahx_yields_of_finished h (by simp [ahxFinished]; omega)
    rw [List.append_nil, fnAhx_held hl]
    simpa [ahxFinish, heod, Except.map] using hy
  | cons c rest ih =>
    obtain ⟨hlt, hrest⟩ := cursor_of_drop_eq_cons hdata
    have next (t : State) (l' : Bytes) (hm : UnitMove .ahx 1 s t) (heod : t.ahx.eod = false)
        (hl : AhxHeld t.ahx.hi l') : StageYields t ((fnAhx s.ws (l' ++ rest)).map (t.seq.dst ++ ·)) :=
      hm.working.ws ▸ ih (h.move hm) heod (by rwa [hm.rp, hm.src]) (by rwa [hm.rp, hm.src]) hl
    have hs := ahx_step h heod hdata
    rcases decodeAhx_cases s.ws c with ⟨hw, e⟩ | ⟨rfl, e⟩ | ⟨hd, e⟩ | ⟨hw, he, hd, e⟩ <;> rw [e] at hs
    · rw [fnAhx_held_ws hl hw]
      have hm := UnitMove.advance .ahx 1 s
      exact yields_of_move hs hm (next _ _ hm heod hl)
    · rw [fnAhx_held_eod hl]
      have hm := (UnitMove.setAhx s { s.ahx with eod := true }).trans (.advance .ahx 1 _)
      exact yields_of_move hs hm (ahx_yields_of_eod (h.move hm) rfl hl)
    · exact ahxDigit_yields hs hd heod hl next
    · rw [fnAhx_held_invalid hl hw he hd]
      exact yields_of_raise hs

/-- The ASCIIHex unit computes `AHX` (R160). -/
theorem ahxUnit_yields {s : State} {data : Bytes} (h : s.unitStart .ahx data) : StageYields s (fnAhx s.ws data) := by
  obtain ⟨hb, ha, hp, hf, rfl, hdst, hrp, hahx⟩ := h
  have hy := ahx_yields (l := []) ⟨hb, ha, hp, hf⟩ (by rw [hahx]) (by omega) rfl (by rw [hahx]; exact .none)
  rw [hrp, hdst] at hy
  revert hy
  cases hv : fnAhx s.ws s.seq.src <;> simp [Except.map, hv]

end Sys2Proof.Machine
end

section
/-! PROOFS, dispatcher (spec/40_dispatcher.md), for the ASCII85 stage: the unit computes R180, one byte a step. A tilde that
the unit holds stands for itself in front of the bytes that are left. -/

namespace Sys2Proof.Machine

/-! ## The function, byte by byte -/

/-- `A85` (R180) from an accumulator, a position and the output so far. -/
def a85From (ws : Bytes) (tuple : BitVec 32) (pos : Nat) (out data : Bytes) : Except ErrKind Bytes :=
  let t := cutMarker (stripWs ws data)
  if t.all fun c => isA85Digit c || c == 0x7A#8 then a85Loop t tuple pos out else .error .invalidEncoding

theorem fnA85_eq (ws data : Bytes) : fnA85 ws data = a85From ws 0#32 0 [] data := rfl

/-- The tilde the unit holds, as `A_TILDE` says (R193). -/
def heldTilde (tilde : Bool) : Bytes := if tilde then [0x7E#8] else []

theorem not_ws_tilde (ws : Bytes) : isWs ws 0x7E#8 = false := isWs_of_printing ws (by decide)

theorem stripWs_heldTilde (ws : Bytes) (tilde : Bool) (data : Bytes) :
    stripWs ws (heldTilde tilde ++ data) = heldTilde tilde ++ stripWs ws data := by
  cases tilde with
  | false => rfl
  | true => exact stripWs_cons_of_not_ws (not_ws_tilde ws) data

/-- A byte other than a tilde begins no end marker (R182). -/
theorem cutMarker_cons_of_ne {c : Byte} (h : c ≠ 0x7E#8) (data : Bytes) :
    cutMarker (c :: data) = c :: cutMarker data := by
  cases data <;> simp [cutMarker, h]

section
variable (ws : Bytes) (tuple : BitVec 32) (pos : Nat) (out : Bytes)

theorem a85From_ws {c : Byte} (hc : isWs ws c = true) (tilde : Bool) (data : Bytes) :
    a85From ws tuple pos out (heldTilde tilde ++ c :: data) = a85From ws tuple pos out (heldTilde tilde ++ data) := by
  simp only [a85From, stripWs_heldTilde, stripWs_cons_of_ws hc]

/-- The end marker ends the data (R182). -/
theorem a85From_marker (data : Bytes) :
    a85From ws tuple pos out (0x7E#8 :: 0x3E#8 :: data) = a85Loop [] tuple pos out := by
  have hg : isWs ws 0x3E#8 = false := isWs_of_printing ws (by decide)
  simp [a85From, stripWs_cons_of_not_ws, not_ws_tilde, hg, cutMarker]

/-- A tilde that is the last byte is an error (R183, R194). -/
theorem a85From_tilde : a85From ws tuple pos out [0x7E#8] = .error .invalidEncoding := by
  rw [a85From, stripWs_cons_of_not_ws (not_ws_tilde ws)]
  rfl

/-- A tilde with another byte than `>` after it is an error (R194). -/
theorem a85From_tilde_invalid {c : Byte} (hc : isWs ws c = false) (hg : c ≠ 0x3E#8) (data : Bytes) :
    a85From ws tuple pos out (0x7E#8 :: c :: data) = .error .invalidEncoding := by
  have ht : isA85Digit 0x7E#8 = false := by decide
  simp [a85From, stripWs_cons_of_not_ws, not_ws_tilde, hc, cutMarker, hg, ht]

theorem a85From_invalid {c : Byte} (hc : isWs ws c = false) (ht : c ≠ 0x7E#8) (hz : c ≠ 0x7A#8)
    (hd : isA85Digit c = false) (data : Bytes) : a85From ws tuple pos out (c :: data) = .error .invalidEncoding := by
  simp [a85From, stripWs_cons_of_not_ws hc, cutMarker_cons_of_ne ht, hz, hd]

/-- `z` at position 0 is four zero bytes, and an error elsewhere (R184). -/
theorem a85From_z (data : Bytes) :
    a85From ws tuple pos out (0x7A#8 :: data) =
      if pos = 0 then a85From ws tuple pos (out ++ [0#8, 0#8, 0#8, 0#8]) data else .error .invalidEncoding := by
  have hw : isWs ws 0x7A#8 = false := isWs_of_printing ws (by decide)
  by_cases hp : pos = 0 <;>
    simp [a85From, stripWs_cons_of_not_ws hw, cutMarker_cons_of_ne, a85Loop, hp]

/-- A digit joins the group, and the fifth one emits it (R185, R187). -/
theorem a85From_digit {c : Byte} (hd : isA85Digit c = true) (data : Bytes) :
    a85From ws tuple pos out (c :: data) =
      if pos + 1 = 5 then a85From ws 0#32 0 (out ++ a85Bytes (a85Add tuple pos c)) data
      else a85From ws (a85Add tuple pos c) (pos + 1) out data := by
  have hr := (isA85Digit_iff c).mp hd
  have hw : isWs ws c = false := isWs_of_printing ws (by omega)
  have ht : c ≠ 0x7E#8 := by rintro rfl; simp at hr
  have hz : c ≠ 0x7A#8 := by rintro rfl; simp at hr
  by_cases hp : pos + 1 = 5 <;>
    simp only [a85From, stripWs_cons_of_not_ws hw, cutMarker_cons_of_ne ht, a85Loop, if_neg hz, hp, if_true, if_false,
      List.all_cons, hd, Bool.true_or, Bool.true_and]

end

/-! ## The unit, byte by byte -/

/-- The class of an ASCII85 byte, as disjoint cases (R97, R191). -/
theorem decodeA85_cases (ws : Bytes) (tilde : Bool) (c : Byte) :
    (isWs ws c = true ∧ decodeA85 ws tilde c = .a85Ws c) ∨
    (tilde = true ∧ c = 0x3E#8 ∧ decodeA85 ws tilde c = .a85Eod) ∨
    (tilde = true ∧ isWs ws c = false ∧ c ≠ 0x3E#8 ∧ decodeA85 ws tilde c = .a85Invalid c) ∨
    (tilde = false ∧ c = 0x7E#8 ∧ decodeA85 ws tilde c = .a85Tilde) ∨
    (tilde = false ∧ c = 0x7A#8 ∧ decodeA85 ws tilde c = .a85Z) ∨
    (tilde = false ∧ isA85Digit c = true ∧ decodeA85 ws tilde c = .a85Digit c) ∨
    (tilde = false ∧ isWs ws c = false ∧ c ≠ 0x7E#8 ∧ c ≠ 0x7A#8 ∧ isA85Digit c = false ∧
      decodeA85 ws tilde c = .a85Invalid c) := by
  unfold decodeA85
  by_cases hw : isWs ws c = true
  · exact .inl ⟨hw, if_pos hw⟩
  rw [if_neg hw]
  have hw : isWs ws c = false := by simpa using hw
  cases tilde with
  | true => by_cases he : c = 0x3E#8 <;> simp [he, hw]
  | false =>
    by_cases he : c = 0x7E#8
    · simp [he]
    by_cases hz : c = 0x7A#8
    · simp [hz]
    by_cases hd : isA85Digit c = true
    · simp [he, hz, hd]
    · simp [he, hz, hd, hw]

/-- The unfinished unit's step is that of the byte at its cursor (R191). -/
theorem a85_step {s : State} (h : UnitRuns .a85 s) (heod : s.a85.eod = false) {c : Byte} {rest : Bytes}
    (hd : s.seq.src.drop s.seq.rp = c :: rest) : step s = exec (decodeA85 s.ws s.a85.tilde c) s := by
  refine h.step_eq_exec ?_ (window_a85 h.fid) (by rw [hd]; rfl)
  simp [State.unitFinished, h.fid, a85Finished, heod, (cursor_of_drop_eq_cons hd).1.ne]

/-- The finished unit gives its finish rule's answer (R198). -/
theorem a85_yields_of_finished {s : State} (h : UnitRuns .a85 s) (hf : a85Finished s = true) :
    StageYields s ((a85Finish s).map fun t => t.seq.dst) := by
  have hfin : s.unitFinish = a85Finish s := by simp only [State.unitFinish, h.fid]
  have hy := h.yields_of_finished (by simpa only [State.unitFinished, h.fid] using hf)
  rwa [hfin] at hy

/-- Unless a tilde is held, the finish rule's answer is that of the loop of R180 at its end (R188, R189, R198). -/
theorem a85Finish_eq_loop {s : State} (h : ¬ (s.a85.tilde = true ∧ s.a85.eod = false)) :
    (a85Finish s).map (fun t => t.seq.dst) = a85Loop [] s.a85.tuple s.a85.pos.val s.seq.dst := by
  have hpos : s.a85.pos = 1 ↔ s.a85.pos.val = 1 := Fin.ext_iff
  simp only [a85Finish, if_neg h, a85Loop, hpos]
  split_ifs <;> rfl

/-- At a position before the fifth the next one is one more. -/
theorem pos_succ : ∀ p : Fin 5, p ≠ 4 → (p + 1).val = p.val + 1 := by decide

/-- The value of `A85` that the unit's registers leave for the bytes still to be read. -/
def State.a85Value (s : State) (data : Bytes) : Except ErrKind Bytes :=
  a85From s.ws s.a85.tuple s.a85.pos.val s.seq.dst (heldTilde s.a85.tilde ++ data)

theorem a85Value_of_not_tilde {s : State} (h : s.a85.tilde = false) (data : Bytes) :
    s.a85Value data = a85From s.ws s.a85.tuple s.a85.pos.val s.seq.dst data := by
  rw [State.a85Value, h]
  rfl

theorem a85Value_of_tilde {s : State} (h : s.a85.tilde = true) (data : Bytes) :
    s.a85Value data = a85From s.ws s.a85.tuple s.a85.pos.val s.seq.dst (0x7E#8 :: data) := by
  rw [State.a85Value, h]
  rfl

section
variable {s : State} {rest : Bytes} (ht : s.a85.tilde = false) (heod : s.a85.eod = false)
  (next : ∀ t, UnitMove .a85 1 s t → t.a85.eod = false → StageYields t (t.a85Value rest))
include ht heod next

/-- `z` emits four zero bytes at position 0 and raises elsewhere (R196). -/
theorem a85Z_yields (hs : step s = exec .a85Z s) : StageYields s (s.a85Value (0x7A#8 :: rest)) := by
  rw [a85Value_of_not_tilde ht, a85From_z]
  by_cases hp : s.a85.pos = 0
  · rw [if_pos (by rw [hp]; rfl)]
    have hm := (UnitMove.emit .a85 s [0#8, 0#8, 0#8, 0#8]).trans (.advance .a85 1 _)
    have hy := next _ hm heod
    rw [a85Value_of_not_tilde (by exact ht)] at hy
    exact yields_of_move (hs.trans (if_pos hp)) hm hy
  · have hv : s.a85.pos.val ≠ 0 := fun hv => hp (Fin.ext hv)
    rw [if_neg hv]
    exact yields_of_raise (hs.trans (if_neg hp))

/-- A digit joins the group, and the fifth one emits it (R195). -/
theorem a85Digit_yields {c : Byte} (hd : isA85Digit c = true) (hs : step s = exec (.a85Digit c) s) :
    StageYields s (s.a85Value (c :: rest)) := by
  rw [a85Value_of_not_tilde ht, a85From_digit _ _ _ _ hd]
  by_cases hp : s.a85.pos = 4
  · have hm := ((UnitMove.setA85 s { s.a85 with tuple := 0#32, pos := 0 }).trans
      (.emit .a85 _ (a85Bytes (a85Add s.a85.tuple 4 c)))).trans (.advance .a85 1 _)
    have hy := next _ hm heod
    rw [a85Value_of_not_tilde (by exact ht)] at hy
    have hv : s.a85.pos.val = 4 := congrArg Fin.val hp
    rw [hv, if_pos rfl]
    exact yields_of_move (hs.trans (exec_a85Digit_of_eq hp c)) hm hy
  · have hv : s.a85.pos.val + 1 ≠ 5 := fun hv => hp (Fin.ext (Nat.succ.inj hv))
    have hm := (UnitMove.setA85 s { s.a85 with
        tuple := a85Add s.a85.tuple s.a85.pos.val c, pos := s.a85.pos + 1 }).trans
      (.advance .a85 1 _)
    have hy := next _ hm heod
    rw [a85Value_of_not_tilde (by exact ht)] at hy
    rw [if_neg hv, ← pos_succ _ hp]
    exact yields_of_move (hs.trans (exec_a85Digit_of_ne hp c)) hm hy

end

/-- At the end of the input a tilde held is an error, and else the finish rule gives the loop's answer (R198). -/
theorem a85_yields_of_end {s : State} (h : UnitRuns .a85 s) (heod : s.a85.eod = false)
    (hend : s.seq.rp = s.seq.src.length) : StageYields s (s.a85Value []) := by
  have hy := a85_yields_of_finished h (by simp [a85Finished, hend])
  cases ht : s.a85.tilde with
  | true =>
    rw [a85Finish, if_pos ⟨ht, heod⟩] at hy
    rw [a85Value_of_tilde ht, a85From_tilde]
    exact hy
  | false =>
    rw [a85Finish_eq_loop (by simp [ht])] at hy
    rw [a85Value_of_not_tilde ht]
    exact hy

/-- From any state of the unfinished unit the stage's value is the one its registers leave for the bytes left. -/
theorem a85_yields {s : State} {data : Bytes} (h : UnitRuns .a85 s) (heod : s.a85.eod = false)
    (hr : s.seq.rp ≤ s.seq.src.length) (hdata : s.seq.src.drop s.seq.rp = data) : StageYields s (s.a85Value data) := by
  induction data generalizing s with
  | nil => exact a85_yields_of_end h heod (hr.antisymm (List.drop_eq_nil_iff.mp hdata))
  | cons c rest ih =>
    obtain ⟨hlt, hrest⟩ := cursor_of_drop_eq_cons hdata
    have next (t : State) (hm : UnitMove .a85 1 s t) (heod : t.a85.eod = false) :
        StageYields t (t.a85Value rest) :=
      ih (h.move hm) heod (by rwa [hm.rp, hm.src]) (by rwa [hm.rp, hm.src])
    have hs := a85_step h heod hdata
    rcases decodeA85_cases s.ws s.a85.tilde c with ⟨hw, e⟩ | ⟨ht, rfl, e⟩ | ⟨ht, hw, hg, e⟩ | ⟨ht, rfl, e⟩ |
      ⟨ht, rfl, e⟩ | ⟨ht, hd, e⟩ | ⟨ht, hw, he, hz, hd, e⟩ <;> rw [e] at hs
    · rw [State.a85Value, a85From_ws _ _ _ _ hw]
      have hm := UnitMove.advance .a85 1 s
      exact yields_of_move hs hm (next _ hm heod)
    · rw [a85Value_of_tilde ht, a85From_marker]
      have hm := (UnitMove.setA85 s { s.a85 with eod := true }).trans (.advance .a85 1 _)
      have hy := a85_yields_of_finished (h.move hm) rfl
      rw [a85Finish_eq_loop (by simp)] at hy
      exact yields_of_move hs hm hy
    · rw [a85Value_of_tilde ht, a85From_tilde_invalid _ _ _ _ hw hg]
      exact yields_of_raise hs
    · have hm := (UnitMove.setA85 s { s.a85 with tilde := true }).trans (.advance .a85 1 _)
      have hy := next _ hm heod
      rw [a85Value_of_tilde rfl] at hy
      rw [a85Value_of_not_tilde ht]
      exact yields_of_move hs hm hy
    · exact a85Z_yields ht heod next hs
    · exact a85Digit_yields ht heod next hd hs
    · rw [a85Value_of_not_tilde ht, a85From_invalid _ _ _ _ hw he hz hd]
      exact yields_of_raise hs

/-- The ASCII85 unit computes `A85` (R180). -/
theorem a85Unit_yields {s : State} {data : Bytes} (h : s.unitStart .a85 data) : StageYields s (fnA85 s.ws data) := by
  obtain ⟨hb, ha, hp, hf, rfl, hdst, hrp, ha85⟩ := h
  have hy := a85_yields ⟨hb, ha, hp, hf⟩ (by rw [ha85]) (by omega) rfl
  rwa [State.a85Value, hrp, hdst, ha85] at hy

end Sys2Proof.Machine
end

section
/-! PROOFS, dispatcher (spec/40_dispatcher.md), for the LZW stage: the unit computes the loop of R210, one code a step. The
dictionary is the table of the learned sequences, and the previous code stands for its sequence. -/

namespace Sys2Proof.Machine

/-! ## Bit fields -/

theorem streamBit_drop (s : Bytes) (q k : Nat) : streamBit (s.drop q) k = streamBit s (8 * q + k) := by
  have hbyte : (8 * q + k) / 8 = q + k / 8 := by omega
  have hbit : (8 * q + k) % 8 = k % 8 := by omega
  simp only [streamBit, hbyte, hbit, List.getD_eq_getElem?_getD, List.getElem?_drop]

/-- A field read from a later byte on is the field that many bits later (R12). -/
theorem readBits_drop (s : Bytes) (q p w : Nat) : readBits (s.drop q) p w = readBits s (8 * q + p) w := by
  induction w with
  | zero => rfl
  | succ w ih => rw [readBits, readBits, ih, streamBit_drop, Nat.add_assoc]

/-! ## The table of learned sequences -/

/-- The unit's dictionary is the table of the learned sequences (R45). -/
structure LzwTable (z : LzwRegs) (learned : List Bytes) : Prop where
  next : z.next = 258 + learned.length
  entry : ∀ c < z.next, c ≠ 256 → c ≠ 257 → lzwEntry learned c = z.entry c

theorem lzwEntry_append_old {learned : List Bytes} {c : Nat} (hc : c < 258 + learned.length) (h6 : c ≠ 256)
    (h7 : c ≠ 257) (e : Bytes) : lzwEntry (learned ++ [e]) c = lzwEntry learned c := by
  unfold lzwEntry
  split_ifs with h8
  · rfl
  · have hi : c - 258 < learned.length := by omega
    simp [List.getD_eq_getElem?_getD, List.getElem?_append_left hi]

theorem lzwEntry_append_new (learned : List Bytes) (e : Bytes) :
    lzwEntry (learned ++ [e]) (258 + learned.length) = e := by
  simp [lzwEntry, List.getD_eq_getElem?_getD, show ¬ 258 + learned.length < 256 by omega]

/-- `Append` leaves the entries below `L_NEXT` (R218). -/
theorem entry_append_old {s : State} (hwf : Sparse.wf [] s.lzw.dict) (e : Bytes) {c : Nat} (hc : c < s.lzw.next) :
    (s.append e).lzw.entry c = s.lzw.entry c := by
  rcases append_cases s e with ⟨-, ha⟩ | ⟨-, ha⟩
  · have hlt : c < s.lzw.next + 1 := Nat.lt_succ_of_lt hc
    simp only [ha, LzwRegs.entry, hc, hlt, if_true, Sparse.get_set_other hwf hc.ne]
  · rw [ha]

/-- `Append` defines the entry at the old `L_NEXT` while the dictionary is not full (R218). -/
theorem entry_append_new {s : State} (hwf : Sparse.wf [] s.lzw.dict) (e : Bytes) (h8 : 258 ≤ s.lzw.next)
    (hn : s.lzw.next < 4096) : (s.append e).lzw.entry s.lzw.next = e := by
  rcases append_cases s e with ⟨-, ha⟩ | ⟨hfull, -⟩
  · rw [ha, entry_learned _ h8 (Nat.lt_succ_self _)]
    exact Sparse.get_set_same hwf _ _
  · omega

/-- `Append` learns the sequence, or neither does once there is no code left (R218, R220). -/
theorem LzwTable.append {s : State} {learned : List Bytes} (h : LzwTable s.lzw learned)
    (hwf : Sparse.wf [] s.lzw.dict) (e : Bytes) : LzwTable (s.append e).lzw (lzwLearn learned e) := by
  have hnext := h.next
  rcases append_cases s e with ⟨hn, ha⟩ | ⟨hn, ha⟩
  · have hlearn : lzwLearn learned e = learned ++ [e] := if_pos (by simp only [firstFree_eq, dictSize_eq]; omega)
    rw [hlearn]
    refine ⟨by simp only [ha, List.length_append, List.length_singleton]; omega, fun c hc h6 h7 => ?_⟩
    have hc : c < s.lzw.next + 1 := by rwa [ha] at hc
    rcases Nat.lt_succ_iff_lt_or_eq.mp hc with hlt | rfl
    · rw [lzwEntry_append_old (hnext ▸ hlt) h6 h7, entry_append_old hwf e hlt, h.entry c hlt h6 h7]
    · rw [entry_append_new hwf e (by omega) hn, hnext, lzwEntry_append_new]
  · have hlearn : lzwLearn learned e = learned := if_neg (by simp only [firstFree_eq, dictSize_eq]; omega)
    rw [hlearn, ha]
    exact h

/-! ## The unit -/

/-- The finished unit's output is the stage's value: the unit has no finish rule (R221). -/
theorem lzw_yields_of_finished {s : State} (h : UnitRuns .lzw s) (hf : lzwFinished s = true) :
    StageYields s (.ok s.seq.dst) := by
  have hfin : s.unitFinish = .ok s := by simp only [State.unitFinish, h.fid]
  have hy := h.yields_of_finished (by simpa only [State.unitFinished, h.fid] using hf)
  rwa [hfin] at hy

/-- The unfinished unit's step is that of the code at its cursor (R211). -/
theorem lzw_step_eq_exec {s : State} (h : UnitRuns .lzw s) (hf : lzwFinished s = false) :
    step s = exec (decodeLzw s.lzw.next s.lzw.prev.isSome
      (BitVec.ofNat 12 (readBits s.seq.src s.lzw.bp s.lzw.width.bits))) s := by
  have hunit : s.unitFinished = false := by simpa only [State.unitFinished, h.fid] using hf
  refine h.step_eq_exec hunit (window_lzw h.fid) ?_
  have hw := bits_pos s.lzw.width
  simp only [lzwFinished, Bool.or_eq_false_iff, decide_eq_false_iff_not] at hf
  rw [decode, if_neg (by simp only [List.length_drop]; omega), readBits_drop, Nat.div_add_mod]

/-! ## The loop, code by code -/

/-- What the loop of R210 carries besides the cursor: the learned sequences, the previous sequence and the output. -/
structure LzwCarry where
  learned : List Bytes
  prev : Option Bytes
  out : Bytes

/-- What the loop carries after a code other than end-of-data (R213 to R220). -/
def LzwCarry.after (m : LzwCarry) (code : Nat) : LzwCarry :=
  if code = 256 then ⟨[], none, m.out⟩
  else
    match m.prev with
    | none =>
      if code < 256 then ⟨m.learned, some (lzwEntry m.learned code), m.out ++ lzwEntry m.learned code⟩
      else ⟨m.learned, none, m.out⟩
    | some p =>
      let e := if code < 258 + m.learned.length then lzwEntry m.learned code else p ++ p.take 1
      ⟨lzwLearn m.learned (p ++ e.take 1), some e, m.out ++ e⟩

section
variable {data : Bytes} {bp w : Nat} {m : LzwCarry} (hw : (lzwWidthFor (258 + m.learned.length)).bits = w)
include hw

theorem lzwLoop_of_end (hend : 8 * data.length < bp + w) (fuel : Nat) :
    lzwLoop data fuel bp m.learned m.prev m.out = m.out := by
  cases fuel with
  | zero => rfl
  | succ fuel => simp only [lzwLoop, firstFree_eq, hw, if_pos hend]

theorem lzwLoop_of_eod (hend : ¬ 8 * data.length < bp + w) (hc : readBits data bp w = 257) (fuel : Nat) :
    lzwLoop data (fuel + 1) bp m.learned m.prev m.out = m.out := by
  simp only [lzwLoop, firstFree_eq, clearCode_eq, eodCode_eq, hw, if_neg hend, hc]
  rfl

theorem lzwLoop_of_code (hend : ¬ 8 * data.length < bp + w) (hc : readBits data bp w ≠ 257) (fuel : Nat) :
    lzwLoop data (fuel + 1) bp m.learned m.prev m.out =
      lzwLoop data fuel (bp + w) (m.after (readBits data bp w)).learned (m.after (readBits data bp w)).prev
        (m.after (readBits data bp w)).out := by
  obtain ⟨learned, prev, out⟩ := m
  simp only [lzwLoop, firstFree_eq, clearCode_eq, eodCode_eq, hw, if_neg hend, if_neg hc, LzwCarry.after]
  by_cases h6 : readBits data bp w = 256
  · simp only [if_pos h6]
  · cases prev with
    | none => by_cases h8 : readBits data bp w < 256 <;> simp only [h6, h8, if_true, if_false]
    | some p => simp only [if_neg h6]

end

/-! ## The unit, code by code -/

/-- What the loop of R210 carries is what the unit's registers hold. -/
structure LzwHolds (s : State) (m : LzwCarry) : Prop where
  eod : s.lzw.eod = false
  table : LzwTable s.lzw m.learned
  prev : m.prev = s.lzw.prev.map fun p => s.lzw.entry p.toNat
  out : m.out = s.seq.dst

/-- With nothing learned the dictionary is the literals. -/
theorem lzwTable_nil {z : LzwRegs} (h : z.next = 258) : LzwTable z [] := by
  refine ⟨h, fun c hc h6 h7 => ?_⟩
  have h8 : c < 256 := by omega
  rw [entry_literal _ h8, lzwEntry, if_pos h8]

section
variable {s t : State} {m : LzwCarry} (h : LzwHolds s m)
include h

theorem lzwClear_holds (ht : exec .lzwClear s = .next t) : LzwHolds t ⟨[], none, m.out⟩ := by
  cases ht
  exact ⟨h.eod, lzwTable_nil rfl, rfl, h.out⟩

theorem lzwFirst_holds {b : Byte} (ht : exec (.lzwFirst b) s = .next t) :
    LzwHolds t ⟨m.learned, some [b], m.out ++ [b]⟩ := by
  cases ht
  refine ⟨h.eod, ⟨h.table.next, h.table.entry⟩, ?_, by rw [h.out]; rfl⟩
  have hb : (b.setWidth 12).toNat = b.toNat := by rw [BitVec.toNat_setWidth]; omega
  simp [hb, entry_literal _ b.isLt]

theorem lzwFirstUndef_holds {v : Code} (ht : exec (.lzwFirstUndef v) s = .next t) : LzwHolds t m := by
  cases ht
  exact ⟨h.eod, ⟨h.table.next, h.table.entry⟩, h.prev, h.out⟩

/-- A code that emits a sequence, learns another and becomes the previous code (R216, R217). -/
theorem emitAppend_holds (hwf : Sparse.wf [] s.lzw.dict) {bs e : Bytes} {c : Code}
    (hc : ((s.advanceBits.emit bs).append e).lzw.entry c.toNat = bs) :
    LzwHolds (((s.advanceBits.emit bs).append e).setPrev c) ⟨lzwLearn m.learned e, some bs, m.out ++ bs⟩ := by
  have htable : LzwTable ((s.advanceBits.emit bs).append e).lzw (lzwLearn m.learned e) :=
    LzwTable.append (s := s.advanceBits.emit bs) ⟨h.table.next, h.table.entry⟩ hwf e
  refine ⟨by simpa using h.eod, ⟨htable.next, htable.entry⟩, ?_, by simp [h.out]⟩
  rw [setPrev_lzw_prev, Option.map_some]
  exact congrArg some hc.symm

/-- A known code (R216). -/
theorem lzwKnown_holds (hwf : Sparse.wf [] s.lzw.dict) {c : Code} (hc : c.toNat < s.lzw.next) (h6 : c.toNat ≠ 256)
    (h7 : c.toNat ≠ 257) (ht : lzwKnown c s = .next t) : LzwHolds t (m.after c.toNat) := by
  rcases lzwKnown_cases c s with ⟨p, b, e, hp, hbe, -, ht'⟩ | ⟨f, hf, -⟩
  · cases ht'.symm.trans ht
    have hprev : m.prev = some (s.lzw.entry p.toNat) := by rw [h.prev, hp]; rfl
    have hnext := h.table.next
    have hentry : lzwEntry m.learned c.toNat = b :: e := (h.table.entry _ hc h6 h7).trans hbe
    simp only [LzwCarry.after, if_neg h6, hprev, if_pos (hnext ▸ hc), hentry]
    exact emitAppend_holds h hwf ((entry_append_old (s := s.advanceBits.emit (b :: e)) hwf _ hc).trans hbe)
  · cases hf.symm.trans ht

/-- An undefined code (R217). -/
theorem lzwUndef_holds (hwf : Sparse.wf [] s.lzw.dict) (h8 : 258 ≤ s.lzw.next) {code : Nat} (hc : s.lzw.next ≤ code)
    (hlt : code < 4096) (ht : lzwUndef s = .next t) : LzwHolds t (m.after code) := by
  rcases lzwUndef_cases s with ⟨p, b, e, hp, hbe, ht'⟩ | ⟨f, hf, -⟩
  · cases ht'.symm.trans ht
    have hprev : m.prev = some (b :: e) := by rw [h.prev, hp, Option.map_some, hbe]
    have hnext := h.table.next
    have hcode : (BitVec.ofNat 12 s.lzw.next).toNat = s.lzw.next := by rw [BitVec.toNat_ofNat]; omega
    have h6 : ¬ code = 256 := by omega
    have hge : ¬ code < 258 + m.learned.length := by omega
    simp only [LzwCarry.after, if_neg h6, hprev, if_neg hge]
    refine emitAppend_holds h hwf ?_
    rw [hcode]
    exact entry_append_new (s := s.advanceBits.emit (b :: e ++ [b])) hwf _ h8 (show s.lzw.next < 4096 by omega)
  · cases hf.symm.trans ht

/-- Every code but end-of-data does to what the unit holds what the loop does to what it carries (R212 to R220). -/
theorem lzwCode_holds (hz : s.lzw.Inv s.seq.src.length) {v : Code} (h7 : v.toNat ≠ 257)
    (ht : exec (decodeLzw s.lzw.next s.lzw.prev.isSome v) s = .next t) : LzwHolds t (m.after v.toNat) := by
  have hn := hz.nextRange.1
  have hv : v.toNat < 4096 := v.isLt
  have none_of (hp : s.lzw.prev.isSome = false) : m.prev = none := by
    rw [h.prev, Option.isNone_iff_eq_none.mp (Option.isSome_eq_false_iff.mp hp)]
    rfl
  rcases decodeLzw_cases s.lzw.next s.lzw.prev.isSome v with
    ⟨hc, e⟩ | ⟨hc, e⟩ | ⟨hp, hc, e⟩ | ⟨hp, hc, e⟩ | ⟨-, hc, e⟩ | ⟨-, hc, hl, e⟩ | ⟨-, hc, hl, e⟩ | ⟨-, hc, hl, e⟩ <;>
    rw [e] at ht
  · rw [LzwCarry.after, if_pos hc]
    exact lzwClear_holds h ht
  · exact absurd hc h7
  · have hb : [v.setWidth 8] = lzwEntry m.learned v.toNat := by
      rw [lzwEntry, if_pos hc]
      rfl
    simp only [LzwCarry.after, if_neg (show ¬ v.toNat = 256 by omega), none_of hp, if_pos hc, ← hb]
    exact lzwFirst_holds h ht
  · have h6 : ¬ v.toNat = 256 := by omega
    have h8 : ¬ v.toNat < 256 := by omega
    simp only [LzwCarry.after, if_neg h6, none_of hp, if_neg h8]
    rw [← none_of hp]
    exact lzwFirstUndef_holds h ht
  · have hb : (v.setWidth 8).setWidth 12 = v := BitVec.eq_of_toNat_eq (by simp only [BitVec.toNat_setWidth]; omega)
    simp only [exec, execLzwLit, hb] at ht
    exact lzwKnown_holds h hz.dictWf (by omega) (by omega) h7 ht
  · exact lzwKnown_holds h hz.dictWf hl (by omega) h7 ht
  · exact lzwUndef_holds h hz.dictWf hn hl.ge hv ht
  · exact lzwUndef_holds h hz.dictWf hn hl.le hv ht

end

/-- A code of the unfinished unit answers with a move of the unit (R47, R222). -/
theorem lzw_moves {s : State} (hz : s.lzw.Inv s.seq.src.length) (hf : lzwFinished s = false) (v : Code) :
    ∃ t, exec (decodeLzw s.lzw.next s.lzw.prev.isSome v) s = .next t ∧ LzwMove s t ∧ UnitMove .lzw 0 s t := by
  obtain ⟨t, ht, hm⟩ := lzw_step hz hf v
  refine ⟨t, ht, hm, ?_⟩
  cases unitStep_of_exec (instrUnit_decodeLzw _ _ _) ht with
  | moved n hu hn => exact hn rfl ▸ hu
  | raised hne => exact absurd rfl hne

/-- From any state of the unfinished unit the stage's value is that of the loop from what the unit holds, with fuel for the
bits left. -/
theorem lzw_yields {fuel : Nat} {s : State} {m : LzwCarry} (h : UnitRuns .lzw s) (hz : s.lzw.Inv s.seq.src.length)
    (hh : LzwHolds s m) (hfuel : 8 * s.seq.src.length ≤ s.lzw.bp + fuel) :
    StageYields s (.ok (lzwLoop s.seq.src fuel s.lzw.bp m.learned m.prev m.out)) := by
  have hbits := bits_pos s.lzw.width
  have hcur := hz.cursor
  have hw : (lzwWidthFor (258 + m.learned.length)).bits = s.lzw.width.bits := by
    rw [hz.widthOfNext, hh.table.next]
  induction fuel generalizing s m with
  | zero =>
    rw [lzwLoop, hh.out]
    exact lzw_yields_of_finished h (by simp [lzwFinished]; omega)
  | succ fuel ih =>
    by_cases hend : 8 * s.seq.src.length < s.lzw.bp + s.lzw.width.bits
    · rw [lzwLoop_of_end hw hend, hh.out]
      exact lzw_yields_of_finished h (by simp [lzwFinished]; omega)
    have hf : lzwFinished s = false := by simp [lzwFinished, hh.eod]; omega
    have hs := lzw_step_eq_exec h hf
    set code := readBits s.seq.src s.lzw.bp s.lzw.width.bits with hcode
    have hlt : code < 4096 := (readBits_lt ..).trans_le (Nat.pow_le_pow_right two_pos hbits.2)
    have hv : (BitVec.ofNat 12 code).toNat = code := by rw [BitVec.toNat_ofNat]; omega
    obtain ⟨t, ht, hm, hu⟩ := lzw_moves hz hf (BitVec.ofNat 12 code)
    refine yields_of_move (hs.trans ht) hu ?_
    have hsrc := hu.src
    by_cases h7 : code = 257
    · have heod : decodeLzw s.lzw.next s.lzw.prev.isSome (BitVec.ofNat 12 code) = .lzwEod := by rw [h7]; rfl
      rw [lzwLoop_of_eod hw hend h7, hh.out]
      rw [heod] at ht
      cases ht
      exact lzw_yields_of_finished (h.move hu) rfl
    · have hh' := lzwCode_holds hh hz (by rwa [hv]) ht
      rw [hv] at hh'
      have hz' : t.lzw.Inv t.seq.src.length := hsrc ▸ hm.inv
      rw [lzwLoop_of_code hw hend h7, ← hcode, ← hsrc, ← hm.bp]
      refine ih (h.move hu) hz' hh' ?_ (bits_pos _) hz'.cursor ?_
      · rw [hsrc, hm.bp]
        omega
      · rw [hz'.widthOfNext, hh'.table.next]

/-- The LZW unit computes `LZW` (R210). -/
theorem lzwUnit_yields {s : State} {data : Bytes} (h : s.unitStart .lzw data) : StageYields s (.ok (fnLzw data)) := by
  obtain ⟨hb, ha, hp, hf, rfl, hdst, hlzw⟩ := h
  have hz : s.lzw.Inv s.seq.src.length := hlzw ▸ lzwInv_initLzw s _
  have hh : LzwHolds s ⟨[], none, s.seq.dst⟩ := ⟨by rw [hlzw], lzwTable_nil (by rw [hlzw]), by rw [hlzw]; rfl, rfl⟩
  have hy := lzw_yields (fuel := 8 * s.seq.src.length) ⟨hb, ha, hp, hf⟩ hz hh (by omega)
  rwa [hlzw, hdst] at hy

end Sys2Proof.Machine
end

section
/-! PROOFS, dispatcher (spec/40_dispatcher.md). O57: the run that START begins computes `decodeAll` (R141). Each stage gives
the value of `decode` of its name, by the units' own results, and the stages follow the fold of R131. -/

namespace Sys2Proof.Machine

/-! ## One stage, from its dispatch -/

/-- A run stands between two stages and the engine is the only one to move. -/
structure Dispatching (s : State) : Prop where
  status : s.rep.status = .busy
  agenda : s.agenda = []
  phase : s.seq.phase = .dispatch

/-- The stage with the filter id `f` ends with the value `r`: as `StageYields`, for a state in which the stage's name may
not have been looked up yet, so that `FID` still holds an earlier id (R137). -/
def StageGives (f : FilterId) (s : State) (r : Except ErrKind Bytes) : Prop :=
  ∃ k t, runSteps k s = .next t ∧ t.host = s.host ∧ t.ws = s.ws ∧
    match r with
    | .ok b => t.rep = s.rep ∧ t.seq.phase = .dispatch ∧ t.seq.stage = s.seq.stage + 1 ∧
        t.seq.nStages = s.seq.nStages ∧ t.seq.src = b
    | .error e => t.rep =
        { s.rep with status := .error, outLen := 0, errKind := e, errStage := s.seq.stage, errFid := f }

/-- The stage whose unit has just been started gives what the unit yields. -/
theorem gives_of_entered {f : FilterId} {s u : State} {r : Except ErrKind Bytes} (hs : step s = .next u)
    (hu : UnitEntered f s u) (hy : StageYields u r) : StageGives f s r := by
  obtain ⟨k, t, hk, hhost, hws, hr⟩ := hy
  refine ⟨k + 1, t, runSteps_succ.mpr ⟨u, hs, hk⟩, hhost.trans hu.working.host, hws.trans hu.working.ws, ?_⟩
  rw [hu.working.rep, hu.seq] at hr
  exact hr

theorem gives_of_raise {f : FilterId} {k : ErrKind} {s : State} (hs : step s = raise k f s) :
    StageGives f s (.error k) :=
  ⟨1, _, runSteps_one hs, rfl, rfl, rfl⟩

/-- The dispatch step runs the name of the stage (R137). -/
theorem Dispatching.step_eq {s : State} (h : Dispatching s) (hs : s.seq.stage < s.seq.nStages) :
    step s = exec (decodeName (s.name s.seq.stage)) s := by
  have ha := (nextAction_engine (.inl h.agenda)).trans (engineAction_dispatch h.status h.phase hs)
  rw [step_of_instr ha, popTurn_of_nil h.agenda]

/-- Each stage gives the value of `decode` of its name and its input (R132, R137). -/
theorem Dispatching.gives {s : State} (h : Dispatching s) (hs : s.seq.stage < s.seq.nStages) :
    StageGives (lookup (s.name s.seq.stage)) s (fnDecode s.ws (s.name s.seq.stage) s.seq.src) := by
  have hstep := h.step_eq hs
  have entered {u : State} (hu : exec (decodeName (s.name s.seq.stage)) s = .next u) (hp : u.seq.phase = .run)
      (he : u.rep.status ≠ .error) : UnitEntered (lookup (s.name s.seq.stage)) s u := by
    rcases exec_decodeName_cases h.phase hu with ⟨k, f, -, rfl⟩ | hm | hm
    · exact absurd rfl he
    · rw [hm.phase] at hp; cases hp
    · exact hm
  have hne : s.rep.status ≠ .error := by rw [h.status]; decide
  unfold fnDecode
  cases hn : lookup (s.name s.seq.stage) <;> simp only [decodeName, hn] at hstep entered
  case identity => exact ⟨1, _, runSteps_one hstep, rfl, rfl, rfl, h.phase, rfl, rfl, rfl⟩
  case ahx =>
    exact gives_of_entered hstep (entered rfl rfl hne) (ahxUnit_yields ⟨h.status, h.agenda, rfl, rfl, rfl, rfl, rfl, rfl⟩)
  case a85 =>
    exact gives_of_entered hstep (entered rfl rfl hne) (a85Unit_yields ⟨h.status, h.agenda, rfl, rfl, rfl, rfl, rfl, rfl⟩)
  case rl =>
    exact gives_of_entered hstep (entered rfl rfl hne) (rlUnit_yields ⟨h.status, h.agenda, rfl, rfl, rfl, rfl, rfl, rfl⟩)
  case lzw =>
    exact gives_of_entered hstep (entered rfl rfl hne) (lzwUnit_yields ⟨h.status, h.agenda, rfl, rfl, rfl, rfl, rfl⟩)
  case flate =>
    simp only [fnFlate]
    cases hi : Config.inflate s.seq.src with
    | none => exact gives_of_raise (hstep.trans (by simp only [exec, execNameFlate, hi]))
    | some b =>
      have ht : step s = .next (s.passStage .flate b) := hstep.trans (by simp only [exec, execNameFlate, hi])
      exact ⟨1, _, runSteps_one ht, rfl, rfl, rfl, h.phase, rfl, rfl, rfl⟩
  case ccf | jbig2 | dct | jpx | crypt | unknown => exact gives_of_raise hstep

/-! ## The pipeline -/

/-- After the last stage the finishing step shows the stage's output (R139). -/
theorem Dispatching.ends_of_last {s : State} (h : Dispatching s) (hi : s.Inv) (hs : s.seq.stage = s.seq.nStages)
    (names : List Bytes) : ∃ t, EndsIn s t ∧ t.observe = observationOf names (.ok s.seq.src) := by
  have ht := step_of_finish ((nextAction_engine (.inl h.agenda)).trans (engineAction_finish h.status h.phase hs))
  rw [popTurn_of_nil h.agenda] at ht
  refine ⟨s.finished, ⟨1, runSteps_one ht, by rw [finished_rep_status]; decide⟩, ?_⟩
  obtain ⟨hkind, hstage, hfid⟩ := hi.noError (by rw [h.status]; decide)
  have hout : s.finished.output = s.seq.src := Memory.bytes_writeAll hi.outWf s.seq.src
  simp only [State.observe, observationOf, finished_rep_status, hout, finished_rep_errKind, finished_rep_errStage,
    finished_rep_errFid, hkind, hstage, hfid]

/-- From the dispatch of any stage the run ends with the value of the fold over the names that are left. -/
theorem Dispatching.ends {names rest : List Bytes} {s : State} (h : Dispatching s) (hi : s.Inv)
    (hlen : names.length = s.seq.nStages) (hname : ∀ i (hlt : i < names.length), s.name i = names[i])
    (hrest : names.drop s.seq.stage = rest) :
    ∃ t, EndsIn s t ∧ t.observe = observationOf names (fnDecodeFrom s.ws s.seq.stage rest s.seq.src) := by
  induction rest generalizing s with
  | nil =>
    have hend : names.length ≤ s.seq.stage := List.drop_eq_nil_iff.mp hrest
    exact h.ends_of_last hi (le_antisymm (hi.stageRange h.status) (hlen ▸ hend)) names
  | cons n rest ih =>
    have hlt : s.seq.stage < names.length := by
      by_contra hge
      rw [List.drop_eq_nil_of_le (Nat.not_lt.mp hge)] at hrest
      cases hrest
    rw [List.drop_eq_getElem_cons hlt] at hrest
    obtain ⟨hn, hrest⟩ := List.cons_eq_cons.mp hrest
    have hn : s.name s.seq.stage = n := (hname _ hlt).trans hn
    obtain ⟨k, t, hk, hhost, hws, hr⟩ := h.gives (hlen ▸ hlt)
    rw [hn] at hr
    rw [fnDecodeFrom]
    cases hv : fnDecode s.ws n s.seq.src with
    | error e =>
      rw [hv] at hr
      have hrep : t.rep = _ := hr
      refine ⟨t, ⟨k, hk, by rw [hrep]; exact nofun⟩, ?_⟩
      have hget : names.getD s.seq.stage [] = n := by rw [List.getD_eq_getElem _ _ hlt, ← hname _ hlt, hn]
      simp only [State.observe, State.output, observationOf, hrep, hget]
      rfl
    | ok b =>
      rw [hv] at hr
      obtain ⟨hrep, hphase, hstage, hnStages, rfl⟩ := hr
      have ht : Dispatching t :=
        ⟨hrep ▸ h.status, runSteps_keeps (fun _ _ => agenda_nil_of_step) hk h.agenda, hphase⟩
      obtain ⟨u, hu, ho⟩ := ih ht (runSteps_keeps stepKeepsTheInvariant hk hi) (hlen.trans hnStages.symm)
        (fun i hlt => (name_of_host hhost i).trans (hname i hlt)) (hstage ▸ hrest)
      rw [hws, hstage] at ho
      exact ⟨u, hu.of_runSteps hk, ho⟩

/-- Settles O57: `START` leads to the dispatch of the first stage, on the input. -/
theorem runComputesDecodeAll : Obligations.RunComputesDecodeAll := by
  unfold Obligations.RunComputesDecodeAll
  intro s s' hi hb ha ht
  rw [exec, execStart, unlessBusy_of_ne _ hb] at ht
  cases ht
  have h : Dispatching s.started := ⟨rfl, ha, rfl⟩
  exact h.ends (inv_started hi) (by simp [State.pipeline])
    (fun i _ => (name_of_host (started_host s) i).trans (by simp [State.pipeline])) rfl

end Sys2Proof.Machine
end

section
/-! PROOFS, ASCIIHex (spec/41_asciihex.md). O26 to O30: the unit's instructions one by one (R167 to R170), its stage end
(R171), and the function it computes (R172). -/

namespace Sys2Proof.Machine

/-- Settles O30, by the unit's own result. -/
theorem asciiHexUnitComputesAHX : Obligations.AsciiHexUnitComputesAHX := by
  unfold Obligations.AsciiHexUnitComputesAHX
  exact fun s data h => ahxUnit_yields h

/-! ## The digits as numbers -/

/-- A pair's byte, from the number it stands for (R96). -/
theorem hexPair_eq_ofNat (h l : BitVec 4) : hexPair h l = BitVec.ofNat 8 (16 * h.toNat + l.toNat) := by
  rw [← hexPair_toNat, BitVec.ofNat_toNat, BitVec.setWidth_eq]

/-- The value of a digit in each of the three ranges (R95). -/
theorem hexval_toNat_of_digit {c : Byte} {v : Nat}
    (h : (0x30 ≤ c.toNat ∧ c.toNat ≤ 0x39 ∧ v = c.toNat - 0x30) ∨
      (0x41 ≤ c.toNat ∧ c.toNat ≤ 0x46 ∧ v = c.toNat - 0x37) ∨
      (0x61 ≤ c.toNat ∧ c.toNat ≤ 0x66 ∧ v = c.toNat - 0x57)) : (hexval c).toNat = v := by
  rw [hexval_toNat]
  split_ifs <;> omega

/-! ## The instructions -/

/-- A digit is held if none is (R169). -/
theorem exec_ahxDigit_of_none {s : State} (h : s.ahx.hi = none) (c : Byte) :
    exec (.ahxDigit c) s = .next (State.advance { s with ahx := { s.ahx with hi := some (hexval c) } } 1) := by
  simp only [exec, execAhxDigit, h]

/-- A digit completes the pair of the one held (R169). -/
theorem exec_ahxDigit_of_held {s : State} {d : BitVec 4} (h : s.ahx.hi = some d) (c : Byte) :
    exec (.ahxDigit c) s =
      .next ((State.emit { s with ahx := { s.ahx with hi := none } } [hexPair d (hexval c)]).advance 1) := by
  simp only [exec, execAhxDigit, h]

theorem unitFinished_ahx {s : State} (h : s.seq.fid = .ahx) : s.unitFinished = ahxFinished s := by
  simp only [State.unitFinished, h]

/-- Settles O26: the meanings are `State.advance`, after `HX_EOD` is set, which the finished test reads. -/
theorem ahxWhitespaceAndTerminator : Obligations.AhxWhitespaceAndTerminator := by
  unfold Obligations.AhxWhitespaceAndTerminator
  refine fun s c => ⟨rfl, rfl, fun hf t ht => ?_⟩
  cases ht
  exact unitFinished_ahx hf

/-- Settles O27, with the digit's value as the number of its range. -/
theorem ahxDigitsPairHighNibbleFirst : Obligations.AhxDigitsPairHighNibbleFirst := by
  unfold Obligations.AhxDigitsPairHighNibbleFirst
  intro s c v hv
  rw [← hexval_toNat_of_digit hv]
  refine ⟨fun hnone => ?_, fun d hd => ?_⟩
  · rw [exec_ahxDigit_of_none hnone, BitVec.ofNat_toNat, BitVec.setWidth_eq]
    rfl
  · rw [exec_ahxDigit_of_held hd, hexPair_eq_ofNat]
    rfl

/-- Settles O28: both instructions are the raise of InvalidEncoding. -/
theorem invalidBytesRaiseInvalidEncoding : Obligations.InvalidBytesRaiseInvalidEncoding := by
  unfold Obligations.InvalidBytesRaiseInvalidEncoding
  intro s c i hi
  have hraise : exec i s = raise .invalidEncoding s.seq.fid s := by
    simp only [List.mem_cons, List.not_mem_nil, or_false] at hi
    rcases hi with rfl | rfl <;> rfl
  exact ⟨_, hraise, rfl, rfl, rfl, rfl, rfl, rfl⟩

/-! ## The stage end -/

/-- Without a terminator the finish rule raises (R171). -/
theorem ahxFinish_of_not_eod {s : State} (h : s.ahx.eod = false) : ahxFinish s = .error .invalidEncoding := by
  simp [ahxFinish, h]

/-- After the terminator and with no digit held the finish rule leaves the output (R171). -/
theorem ahxFinish_of_none {s : State} (h : s.ahx.eod = true) (hnone : s.ahx.hi = none) : ahxFinish s = .ok s := by
  simp only [ahxFinish, h, hnone, if_true]

/-- After the terminator a digit held is a byte with high nibble 0 (R171, R165). -/
theorem ahxFinish_of_held {s : State} {d : BitVec 4} (h : s.ahx.eod = true) (hd : s.ahx.hi = some d) :
    ahxFinish s = .ok (s.emit [BitVec.ofNat 8 d.toNat]) := by
  have hbyte : hexPair 0#4 d = BitVec.ofNat 8 d.toNat := by simp [hexPair_eq_ofNat]
  simp only [ahxFinish, h, hd, hbyte, if_true]

section
variable {s : State} (h : UnitRuns .ahx s) (hf : ahxFinished s = true)
include h hf

/-- The finished unit's step raises what the finish rule raises (R138). -/
theorem ahx_step_of_finish_error {k : ErrKind} (hk : ahxFinish s = .error k) : step s = raise k .ahx s := by
  rw [h.step_eq_stageEnd ((unitFinished_ahx h.fid).trans hf)]
  simp only [stageEnd, State.unitFinish, h.fid, hk]

/-- The finished unit's step makes the finish rule's output the next input (R138). -/
theorem ahx_step_of_finish_ok {t : State} (ht : ahxFinish s = .ok t) : step s = .next t.stageDone := by
  rw [h.step_eq_stageEnd ((unitFinished_ahx h.fid).trans hf)]
  simp only [stageEnd, State.unitFinish, h.fid, ht]

end

/-- Settles O29: both clauses are the stage end, with either answer of the finish rule. -/
theorem ahxStageEnd : Obligations.AhxStageEnd := by
  unfold Obligations.AhxStageEnd
  intro s ha hb hp hfid
  have hrun : UnitRuns .ahx s := ⟨hb, ha, hp, hfid⟩
  refine ⟨fun heod hrp => ?_, fun heod => ?_⟩
  · have hf : ahxFinished s = true := by simp [ahxFinished, hrp]
    exact ⟨_, ahx_step_of_finish_error hrun hf (ahxFinish_of_not_eod heod), rfl, rfl⟩
  · have hf : ahxFinished s = true := by simp [ahxFinished, heod]
    cases hhi : s.ahx.hi with
    | none =>
      exact ⟨_, ahx_step_of_finish_ok hrun hf (ahxFinish_of_none heod hhi), rfl, rfl, (List.append_nil _).symm,
        rfl, rfl, rfl⟩
    | some d =>
      exact ⟨_, ahx_step_of_finish_ok hrun hf (ahxFinish_of_held heod hhi), rfl, rfl, rfl, rfl, rfl, rfl⟩

end Sys2Proof.Machine
end

section
/-! PROOFS, ASCIIHex (spec/41_asciihex.md). O50: the instructions of the four streams that store nothing. -/

namespace Sys2Proof.Machine

/-- Every byte of every space is a byte of the host registers, `OUT`, `SRC` or `DST` (R52). -/
theorem readByte_of_buffers {s t : State} (hhost : t.host = s.host) (hout : t.rep.out = s.rep.out)
    (hsrc : t.seq.src = s.seq.src) (hdst : t.seq.dst = s.seq.dst) (sp : Space) (a : Nat) :
    t.readByte sp a = s.readByte sp a := by
  cases sp with
  | src => simp only [State.readByte, hsrc]
  | dst => simp only [State.readByte, hdst]
  | input | output | name => exact readByte_of_host_out hhost hout (by nofun) (by nofun) a

/-- Settles O50: each of the nine leaves the four buffers. -/
theorem instructionsThatStoreNothing : Obligations.InstructionsThatStoreNothing := by
  unfold Obligations.InstructionsThatStoreNothing
  intro s t c v i hi ht
  have hbuffers : t.host = s.host ∧ t.rep.out = s.rep.out ∧ t.seq.src = s.seq.src ∧ t.seq.dst = s.seq.dst := by
    simp only [List.mem_cons, List.not_mem_nil, or_false] at hi
    rcases hi with rfl | rfl | rfl | rfl | rfl | rfl | rfl | rfl | rfl <;> cases ht <;> exact ⟨rfl, rfl, rfl, rfl⟩
  obtain ⟨hhost, hout, hsrc, hdst⟩ := hbuffers
  exact readByte_of_buffers hhost hout hsrc hdst

end Sys2Proof.Machine
end

section
/-! PROOFS, ASCII85 (spec/42_ascii85.md). O31 to O33, O35 and O36: the unit's instructions one by one (R192 to R196), its
stage end (R198), and the function it computes (R199). -/

namespace Sys2Proof.Machine

/-- Settles O36, by the unit's own result. -/
theorem ascii85UnitComputesA85 : Obligations.Ascii85UnitComputesA85 := by
  unfold Obligations.Ascii85UnitComputesA85
  exact fun s data h => a85Unit_yields h

/-! ## The instructions -/

theorem unitFinished_a85 {s : State} (h : s.seq.fid = .a85) : s.unitFinished = a85Finished s := by
  simp only [State.unitFinished, h]

/-- Settles O31: the meanings are `State.advance`, after the flag is set; the finished test reads `A_EOD`. -/
theorem a85WhitespaceTildeAndEnd : Obligations.A85WhitespaceTildeAndEnd := by
  unfold Obligations.A85WhitespaceTildeAndEnd
  refine fun s c => ⟨rfl, rfl, rfl, fun hf t ht => ?_⟩
  cases ht
  exact unitFinished_a85 hf

/-- At position 0 `z` emits four zero bytes (R196). -/
theorem exec_a85Z_of_zero {s : State} (h : s.a85.pos = 0) :
    exec .a85Z s = .next ((s.emit [0#8, 0#8, 0#8, 0#8]).advance 1) := by
  simp only [exec, execA85Z, if_pos h]

/-- Within a group `z` raises (R196). -/
theorem exec_a85Z_of_ne {s : State} (h : s.a85.pos ≠ 0) : exec .a85Z s = raise .invalidEncoding s.seq.fid s := by
  simp only [exec, execA85Z, if_neg h]

/-- Settles O32, by the position. -/
theorem a85ZStandsForFourZeros : Obligations.A85ZStandsForFourZeros := by
  unfold Obligations.A85ZStandsForFourZeros
  exact fun s => ⟨exec_a85Z_of_zero, fun hp => ⟨_, exec_a85Z_of_ne hp, rfl, rfl, rfl, rfl, rfl, rfl⟩⟩

/-! ## The digits as numbers -/

/-- The accumulator after a digit, as a number (R195, R186). -/
theorem a85Add_toNat (t : BitVec 32) (p : Nat) (c : Byte) :
    (a85Add t p c).toNat = (t.toNat + (c.toNat - 33) * 85 ^ (4 - p)) % 2 ^ 32 := by
  rw [a85Add, a85Weight, BitVec.toNat_add, BitVec.toNat_ofNat, Nat.add_mod_mod]

/-- The bytes of a tuple from the number it holds, high byte first (R61). -/
theorem a85Bytes_eq_ofNat (t : BitVec 32) :
    a85Bytes t = [BitVec.ofNat 8 (t.toNat / 2 ^ 24), BitVec.ofNat 8 (t.toNat / 2 ^ 16),
      BitVec.ofNat 8 (t.toNat / 2 ^ 8), BitVec.ofNat 8 t.toNat] := by
  simp only [a85Bytes, BitVec.extractLsb', Nat.shiftRight_eq_div_pow, Nat.pow_zero, Nat.div_one]

/-- Settles O33: below position 4 the digit joins the group, at position 4 the group's bytes are emitted. -/
theorem a85DigitAccumulates : Obligations.A85DigitAccumulates := by
  unfold Obligations.A85DigitAccumulates
  rintro s c - - t rfl
  rw [← a85Add_toNat]
  refine ⟨fun hlt => ?_, fun heq => ?_⟩
  · have hp : s.a85.pos ≠ 4 := fun h => hlt.ne (congrArg Fin.val h)
    exact ⟨_, exec_a85Digit_of_ne hp c, rfl, rfl, pos_succ _ hp, rfl, rfl⟩
  · rw [exec_a85Digit_of_eq (Fin.ext heq), a85Bytes_eq_ofNat, heq]
    rfl

/-! ## The stage end -/

section
variable {f : FilterId} {s : State} (h : UnitRuns f s) (hf : s.unitFinished = true)
include h hf

/-- The finished unit's step raises what its finish rule raises (R138). -/
theorem UnitRuns.step_of_finish_error {k : ErrKind} (hk : s.unitFinish = .error k) : step s = raise k f s := by
  rw [h.step_eq_stageEnd hf, stageEnd, hk, h.fid]

/-- The finished unit's step makes its finish rule's output the next input (R138). -/
theorem UnitRuns.step_of_finish_ok {t : State} (ht : s.unitFinish = .ok t) : step s = .next t.stageDone := by
  rw [h.step_eq_stageEnd hf, stageEnd, ht]

end

theorem unitFinish_a85 {s : State} (h : s.seq.fid = .a85) : s.unitFinish = a85Finish s := by
  simp only [State.unitFinish, h]

/-- A held tilde and a group of one digit make the finish rule raise (R198, R188, R189). -/
theorem a85Finish_error {s : State} (h : (s.a85.tilde = true ∧ s.a85.eod = false) ∨ s.a85.pos = 1) :
    a85Finish s = .error .invalidEncoding := by
  rcases h with ht | hp
  · rw [a85Finish, if_pos ht]
  · rw [a85Finish, if_pos hp, ite_self]

/-- Else the finish rule emits the bytes of the final group, none at position 0 (R198, R189, R190). -/
theorem a85Finish_ok {s : State} (ht : ¬ (s.a85.tilde = true ∧ s.a85.eod = false)) (hp : s.a85.pos ≠ 1) :
    a85Finish s = .ok (s.emit (a85Tail s.a85.tuple s.a85.pos.val)) := by
  rw [a85Finish, if_neg ht, if_neg hp]
  split_ifs with h2
  · rfl
  · have hne : s.a85.pos.val ≠ 1 := fun h => hp (Fin.ext h)
    have hzero : s.a85.pos.val = 0 := by omega
    simp [a85Tail, hzero, State.emit]

/-- The bytes of a final group from the number its tuple holds (R189). -/
theorem a85Tail_eq_ofNat (t : BitVec 32) (p : Fin 5) {v : Nat} (hv : v = (t.toNat + 85 ^ (5 - p.val)) % 2 ^ 32) :
    a85Tail t p.val =
      [BitVec.ofNat 8 (v / 2 ^ 24), BitVec.ofNat 8 (v / 2 ^ 16), BitVec.ofNat 8 (v / 2 ^ 8)].take (p.val - 1) := by
  have htuple : (t + BitVec.ofNat 32 (85 ^ (5 - p.val))).toNat = v := by
    rw [hv, BitVec.toNat_add, BitVec.toNat_ofNat, Nat.add_mod_mod]
  have hlen : p.val - 1 ≤ 3 := by omega
  rw [a85Tail, a85Bytes_eq_ofNat, htuple]
  exact List.take_append_of_le_length (l₁ := [_, _, _]) (l₂ := [_]) hlen

/-- Settles O35: both clauses are the stage end, with either answer of the finish rule. -/
theorem a85StageEnd : Obligations.A85StageEnd := by
  unfold Obligations.A85StageEnd
  intro s ha hb hp hfid hend
  have hrun : UnitRuns .a85 s := ⟨hb, ha, hp, hfid⟩
  have hf : s.unitFinished = true := by simpa [unitFinished_a85 hfid, a85Finished] using hend
  have hfin := unitFinish_a85 hfid
  refine ⟨fun hbad => ?_, fun htilde hpos => ?_⟩
  · exact ⟨_, hrun.step_of_finish_error hf (hfin.trans (a85Finish_error hbad)), rfl, rfl⟩
  · exact ⟨_, hrun.step_of_finish_ok hf (hfin.trans (a85Finish_ok htilde hpos)), rfl, rfl, rfl, rfl, rfl,
      fun v hv => congrArg (s.seq.dst ++ ·) (a85Tail_eq_ofNat s.a85.tuple s.a85.pos hv)⟩

end Sys2Proof.Machine
end

section
/-! PROOFS, LZW (spec/43_lzw.md). O37 to O44: the unit's codes class by class (R213 to R219), the invariants and the
growth of the dictionary (R222, R223), that no step raises (R224), and the loop the unit computes (R210). -/

namespace Sys2Proof.Machine

/-- Settles O44, by the unit's own result. -/
theorem lzwUnitComputesLZW : Obligations.LzwUnitComputesLZW := by
  unfold Obligations.LzwUnitComputesLZW
  exact fun s data h => lzwUnit_yields h

/-! ## The codes that append nothing -/

theorem unitFinished_lzw {s : State} (h : s.seq.fid = .lzw) : s.unitFinished = lzwFinished s := by
  simp only [State.unitFinished, h]

/-- Settles O37: after a clear only the literals are defined; the finished test reads `L_EOD`. -/
theorem lzwControlCodes : Obligations.LzwControlCodes := by
  unfold Obligations.LzwControlCodes
  refine fun s => ⟨⟨_, rfl, rfl, rfl, rfl, rfl, rfl, rfl, fun c hc => ?_⟩, rfl, fun hf t ht => ?_⟩
  · exact entry_undefined _ hc (Nat.lt_or_ge c 258)
  · cases ht
    exact unitFinished_lzw hf

/-- Settles O38: the literal's code is its byte's number. -/
theorem lzwFirstCodes : Obligations.LzwFirstCodes := by
  unfold Obligations.LzwFirstCodes
  intro s b v
  rw [BitVec.ofNat_toNat]
  exact ⟨rfl, rfl⟩

/-! ## The codes that append -/

/-- The width's number after `L_NEXT` has become `n` (R218). -/
theorem widen_bits (w : LzwWidth) (n : Nat) :
    (widen w n).bits = if n = 511 then 10 else if n = 1023 then 11 else if n = 2047 then 12 else w.bits := by
  unfold widen
  split_ifs <;> rfl

/-- `L_NEXT` after `Append` (R218, R220). -/
theorem append_lzw_next (s : State) (e : Bytes) :
    (s.append e).lzw.next = if s.lzw.next < 4096 then s.lzw.next + 1 else s.lzw.next := by
  rcases append_cases s e with ⟨hn, ha⟩ | ⟨hn, ha⟩
  · rw [ha, if_pos hn]
  · rw [ha, if_neg (Nat.not_lt.mpr hn)]

/-- The width's number after `Append` has learned an entry (R218). -/
theorem append_lzw_width_bits {s : State} (hn : s.lzw.next < 4096) (e : Bytes) :
    (s.append e).lzw.width.bits = if s.lzw.next + 1 = 511 then 10 else if s.lzw.next + 1 = 1023 then 11
      else if s.lzw.next + 1 = 2047 then 12 else s.lzw.width.bits := by
  rcases append_cases s e with ⟨-, ha⟩ | ⟨hfull, -⟩
  · rw [ha]
    exact widen_bits _ _
  · omega

/-- The whole state after `Append`, whose change is in the LZW registers alone. -/
theorem append_eq (s : State) (e : Bytes) : s.append e = { s with lzw := (s.append e).lzw } := by
  unfold State.append
  split <;> rfl

/-- The state a code leaves that emits `bs`, learns `e` and makes `c` the previous code (R216, R217). -/
def State.emitLearn (s : State) (bs e : Bytes) (c : Code) : State :=
  ((s.advanceBits.emit bs).append e).setPrev c

section
variable (s : State) (bs e : Bytes) (c : Code)

theorem emitLearn_eq : s.emitLearn bs e c =
    { s with seq := { s.seq with dst := s.seq.dst ++ bs }, lzw := (s.emitLearn bs e c).lzw } := by
  rw [State.emitLearn, append_eq]
  rfl

@[simp] theorem emitLearn_lzw_prev : (s.emitLearn bs e c).lzw.prev = some c := rfl

@[simp] theorem emitLearn_lzw_bp : (s.emitLearn bs e c).lzw.bp = s.lzw.bp + s.lzw.width.bits := by
  simp [State.emitLearn]

@[simp] theorem emitLearn_lzw_eod : (s.emitLearn bs e c).lzw.eod = s.lzw.eod := by
  simp [State.emitLearn]

theorem emitLearn_lzw_next :
    (s.emitLearn bs e c).lzw.next = if s.lzw.next < 4096 then s.lzw.next + 1 else s.lzw.next :=
  append_lzw_next _ e

end

/-- While the dictionary is not full, one more entry is defined and the width follows (R218). -/
theorem emitLearn_of_not_full {s : State} (hwf : Sparse.wf [] s.lzw.dict) (h8 : 258 ≤ s.lzw.next)
    (hn : s.lzw.next < 4096) (bs e : Bytes) (c : Code) :
    (s.emitLearn bs e c).lzw.next = s.lzw.next + 1 ∧
    (s.emitLearn bs e c).lzw.entry s.lzw.next = e ∧
    (∀ d, d < s.lzw.next → (s.emitLearn bs e c).lzw.entry d = s.lzw.entry d) ∧
    (s.emitLearn bs e c).lzw.width.bits = if s.lzw.next + 1 = 511 then 10 else if s.lzw.next + 1 = 1023 then 11
      else if s.lzw.next + 1 = 2047 then 12 else s.lzw.width.bits :=
  ⟨(emitLearn_lzw_next s bs e c).trans (if_pos hn),
    entry_append_new (s := s.advanceBits.emit bs) hwf e h8 hn,
    fun _ hd => entry_append_old (s := s.advanceBits.emit bs) hwf e hd,
    append_lzw_width_bits (s := s.advanceBits.emit bs) hn e⟩

/-- A full dictionary stays as it is, and so does the width (R220). -/
theorem emitLearn_of_full {s : State} (hn : 4096 ≤ s.lzw.next) (bs e : Bytes) (c : Code) :
    (s.emitLearn bs e c).lzw.next = s.lzw.next ∧ (s.emitLearn bs e c).lzw.width = s.lzw.width ∧
    ∀ d, (s.emitLearn bs e c).lzw.entry d = s.lzw.entry d := by
  rcases append_cases (s.advanceBits.emit bs) e with ⟨hlt, -⟩ | ⟨-, ha⟩
  · exact absurd hlt (Nat.not_lt.mpr hn)
  · rw [State.emitLearn, ha]
    exact ⟨rfl, rfl, fun _ => rfl⟩

/-- A known code whose entry and the previous code's are defined (R216). -/
theorem lzwKnown_of_entries {s : State} {c p : Code} {b : Byte} {e : Bytes} (hp : s.lzw.prev = some p)
    (hc : s.lzw.entry c.toNat = b :: e) (hq : s.lzw.entry p.toNat ≠ []) :
    lzwKnown c s = .next (s.emitLearn (b :: e) (s.lzw.entry p.toNat ++ [b]) c) := by
  rcases lzwKnown_cases c s with ⟨p', b', e', hp', hc', -, ht⟩ | ⟨f, -, hnone | hnil | ⟨p', hp', hnil⟩⟩
  · cases hp.symm.trans hp'
    cases hc.symm.trans hc'
    exact ht
  · cases hp.symm.trans hnone
  · cases hc.symm.trans hnil
  · cases hp.symm.trans hp'
    exact absurd hnil hq

/-- An undefined code when the previous code's entry is defined (R217). -/
theorem lzwUndef_of_entry {s : State} {p : Code} {b : Byte} {e : Bytes} (hp : s.lzw.prev = some p)
    (hq : s.lzw.entry p.toNat = b :: e) :
    lzwUndef s = .next (s.emitLearn (b :: e ++ [b]) (b :: e ++ [b]) (BitVec.ofNat 12 s.lzw.next)) := by
  rcases lzwUndef_cases s with ⟨p', b', e', hp', hq', ht⟩ | ⟨f, -, hnone | ⟨p', hp', hnil⟩⟩
  · cases hp.symm.trans hp'
    cases hq.symm.trans hq'
    exact ht
  · cases hp.symm.trans hnone
  · cases hp.symm.trans hp'
    cases hq.symm.trans hnil

/-- Settles O39: LZW.LIT and LZW.REF are the known codes, and what they leave is `State.emitLearn`. -/
theorem lzwKnownCodesEmitAndLearn : Obligations.LzwKnownCodesEmitAndLearn := by
  unfold Obligations.LzwKnownCodesEmitAndLearn
  intro s i code p b e hi hp hc hq hwf h8
  have hexec : exec i s = lzwKnown code s := by
    rcases hi with ⟨l, rfl, hl⟩ | rfl
    · have hcode : l.setWidth 12 = code := by
        rw [← BitVec.ofNat_toNat, ← hl, BitVec.ofNat_toNat, BitVec.setWidth_eq]
      rw [← hcode]
      rfl
    · rfl
  exact ⟨_, hexec.trans (lzwKnown_of_entries hp hc hq), emitLearn_eq .., emitLearn_lzw_prev .., emitLearn_lzw_bp ..,
    emitLearn_lzw_eod .., fun hn => emitLearn_of_not_full hwf h8 hn .., fun hn => emitLearn_of_full hn ..⟩

/-- Settles O40: an undefined code is one of 12 bits not below `L_NEXT`, so the dictionary is not full. -/
theorem lzwUndefinedCodesExtendThePreviousEntry : Obligations.LzwUndefinedCodesExtendThePreviousEntry := by
  unfold Obligations.LzwUndefinedCodesExtendThePreviousEntry
  intro s i v p b e hi hp hq hv hwf h8
  have hexec : exec i s = lzwUndef s := by rcases hi with rfl | rfl <;> rfl
  have hn : s.lzw.next < 4096 := hv.trans_lt v.isLt
  have hcode : (BitVec.ofNat 12 s.lzw.next).toNat = s.lzw.next := by rw [BitVec.toNat_ofNat]; omega
  obtain ⟨hnext, hnew, hold, hwidth⟩ := emitLearn_of_not_full hwf h8 hn (b :: e ++ [b]) (b :: e ++ [b])
    (BitVec.ofNat 12 s.lzw.next)
  exact ⟨_, hexec.trans (lzwUndef_of_entry hp hq), emitLearn_eq .., emitLearn_lzw_bp .., emitLearn_lzw_eod .., hnext,
    ⟨_, emitLearn_lzw_prev .., hcode⟩, hnew, hold, hwidth⟩

/-! ## The invariants and the growth of the dictionary -/

/-- The instruction an unfinished unit decodes answers with a move of the unit (R47, R222). -/
theorem lzwMove_of_decode {s : State} {i : Instr} {bs : Bytes} (hz : s.lzw.Inv s.seq.src.length)
    (hf : lzwFinished s = false)
    (hd : decode (.lzw (s.lzw.bp % 8) s.lzw.width s.lzw.next s.lzw.prev.isSome) bs = .ok i) :
    ∃ t, exec i s = .next t ∧ LzwMove s t := by
  simp only [decode] at hd
  split at hd <;> cases hd
  exact lzw_step hz hf _

/-- Settles O41: initialisation meets R222, and so does what every move of the unit leaves; a code has nine bits at
least. -/
theorem lzwStepKeepsItsInvariants : Obligations.LzwStepKeepsItsInvariants := by
  unfold Obligations.LzwStepKeepsItsInvariants
  refine ⟨fun s t ht => ?_, fun s t i hid hz hf hd ht => ?_⟩
  · cases ht
    exact lzwInv_initLzw s _
  · obtain ⟨u, hu, hm⟩ := lzwMove_of_decode hz ((unitFinished_lzw hid).symm.trans hf) (hd _ _ (window_lzw hid))
    cases ht.symm.trans hu
    have hbits := bits_pos s.lzw.width
    refine ⟨?_, by rw [hm.bp]; omega, hm.dst⟩
    rw [hm.seq]
    exact hm.inv

/-- `L_NEXT` after a known code that answers (R216, R223). -/
theorem lzwKnown_next {c : Code} {s t : State} (h : lzwKnown c s = .next t) :
    t.lzw.next = if s.lzw.next < 4096 then s.lzw.next + 1 else s.lzw.next := by
  rcases lzwKnown_cases c s with ⟨p, b, e, -, -, -, ht⟩ | ⟨f, hfault, -⟩
  · cases ht.symm.trans h
    exact emitLearn_lzw_next ..
  · cases hfault.symm.trans h

/-- `L_NEXT` after an undefined code that answers, which finds the dictionary not full (R217, R223). -/
theorem lzwUndef_next {s t : State} (hn : s.lzw.next < 4096) (h : lzwUndef s = .next t) :
    t.lzw.next = s.lzw.next + 1 := by
  rcases lzwUndef_cases s with ⟨p, b, e, -, -, ht⟩ | ⟨f, hfault, -⟩
  · cases ht.symm.trans h
    exact (emitLearn_lzw_next ..).trans (if_pos hn)
  · cases hfault.symm.trans h

/-- Settles O42, class by class: the codes of an LZW context. -/
theorem lzwDictionaryGrowth : Obligations.LzwDictionaryGrowth := by
  unfold Obligations.LzwDictionaryGrowth
  rintro s t x i - rfl hwf ht
  have hunit : instrUnit i = some .lzw := instrUnit_of_wellFormed hwf
  cases i <;> cases hunit
  case lzwClear | lzwEod | lzwFirst | lzwFirstUndef => cases ht; rfl
  case lzwLit | lzwRef => exact lzwKnown_next ht
  case lzwKwkwk v =>
    obtain ⟨-, -, heq, -⟩ := of_decide_eq_true hwf
    exact lzwUndef_next (heq ▸ v.isLt) ht
  case lzwBeyond v =>
    obtain ⟨-, -, hlt, -⟩ := of_decide_eq_true hwf
    exact lzwUndef_next (hlt.trans v.isLt) ht

/-! ## The step -/

/-- The finished unit's stage end answers and leaves the report: the unit has no finish rule (R221, R138). -/
theorem stageEnd_lzw {s : State} (h : s.seq.fid = .lzw) : stageEnd s = .next s.stageDone := by
  simp only [stageEnd, State.unitFinish, h]

/-- Settles O43: the step is the stage end or a move of the unit, and both leave the report. -/
theorem lzwUnitNeverRaises : Obligations.LzwUnitNeverRaises := by
  unfold Obligations.LzwUnitNeverRaises
  intro s h hm hb hp hid
  have hact := nextAction_engine hm
  have hunit := h.runUnit hb hp
  cases hf : s.unitFinished with
  | true =>
    have hstep := step_of_stageEnd (hact.trans (engineAction_stageEnd hb hp hf))
    exact ⟨_, hstep.trans (stageEnd_lzw (s := s.popTurn) hid), rfl⟩
  | false =>
    have hz : s.lzw.Inv s.seq.src.length := by simpa only [State.unitInv, hid] using hunit
    obtain ⟨x, bs, i, -, hw, hd, -⟩ := unit_answers hunit hf
    rw [step_of_instr (hact.trans (engineAction_unit hb hp hf hw hd))]
    cases (window_lzw hid).symm.trans hw
    obtain ⟨t, ht, hmove⟩ := lzwMove_of_decode (s := s.popTurn) hz ((unitFinished_lzw hid).symm.trans hf) hd
    exact ⟨t, ht, hmove.rep⟩

end Sys2Proof.Machine
end

section
/-! PROOFS, RunLength (spec/44_runlength.md). O45 to O48: the unit's three kinds of run (R253 to R255), and the function it
computes (R250). -/

namespace Sys2Proof.Machine

/-- Settles O48, by the unit's own result. -/
theorem runLengthUnitComputesRL : Obligations.RunLengthUnitComputesRL := by
  unfold Obligations.RunLengthUnitComputesRL
  exact fun s data h => rlUnit_yields h

/-! ## The payload -/

/-- `SRC[a : a + k]` has `k` bytes if it ends within `SRC` (R16). -/
theorem length_memReads {s : State} {a k : Nat} (h : a + k ≤ s.seq.src.length) : (s.memReads a k).length = k := by
  rw [State.memReads, List.length_take, List.length_drop]
  omega

/-- The bytes of `SRC[a : a + k]` are those of `SRC` from `a` on (R16, R52). -/
theorem getElem?_memReads (s : State) (a : Nat) {j k : Nat} (h : j < k) :
    (s.memReads a k)[j]? = s.readByte .src (a + j) := by
  rw [State.memReads, List.getElem?_take_of_lt h, List.getElem?_drop, State.readByte]

/-- What is emitted stands in `DST` from its old length on (R17, R52). -/
theorem readByte_dst_emit (s : State) (bs : Bytes) (j : Nat) :
    (s.emit bs).readByte .dst (s.seq.dst.length + j) = bs[j]? := by
  simp only [State.readByte, emit_seq_dst, List.getElem?_append_right (Nat.le_add_right _ j), Nat.add_sub_cancel_left]

/-! ## The instructions -/

theorem unitFinished_rl {s : State} (h : s.seq.fid = .rl) : s.unitFinished = rlFinished s := by
  simp only [State.unitFinished, h]

/-- A literal run whose payload is whole copies it (R254). -/
theorem exec_rlLit_of_le {s : State} {n : BitVec 7} (h : s.seq.rp + 1 + rlLitLen n ≤ s.seq.src.length) :
    exec (.rlLit n) s = .next ((s.emit (s.memReads (s.seq.rp + 1) (rlLitLen n))).advance (1 + rlLitLen n)) := by
  simp only [exec, execRlLit, if_neg h.not_gt]

/-- A literal run whose payload is cut short raises (R254). -/
theorem exec_rlLit_of_gt {s : State} {n : BitVec 7} (h : s.seq.src.length < s.seq.rp + 1 + rlLitLen n) :
    exec (.rlLit n) s = raise .invalidEncoding s.seq.fid s := by
  simp only [exec, execRlLit, if_pos h]

/-- A repeat run emits the byte after its control byte (R255). -/
theorem exec_rlRep_of_some {s : State} {b : Byte} (h : s.memRead (s.seq.rp + 1) = some b) (n : BitVec 7) :
    exec (.rlRep n) s = .next ((s.emit (List.replicate (rlRepCount n) b)).advance 2) := by
  simp only [exec, execRlRep, h]

/-- A repeat run without a byte after its control byte raises (R255). -/
theorem exec_rlRep_of_none {s : State} (h : s.memRead (s.seq.rp + 1) = none) (n : BitVec 7) :
    exec (.rlRep n) s = raise .invalidEncoding s.seq.fid s := by
  simp only [exec, execRlRep, h]

/-- Settles O45: what is emitted is the payload, byte for byte. -/
theorem rlLiteralRunCopiesItsPayload : Obligations.RlLiteralRunCopiesItsPayload := by
  unfold Obligations.RlLiteralRunCopiesItsPayload
  refine fun s n => ⟨fun hle => ?_, fun hgt => ⟨_, exec_rlLit_of_gt hgt, rfl, rfl, rfl, rfl, rfl, rfl⟩⟩
  have hlen := length_memReads hle
  refine ⟨_, exec_rlLit_of_le hle, ?_, ?_, fun a ha => ?_, fun j hj => ?_⟩
  · rw [Nat.add_assoc]
    rfl
  · rw [advance_seq_dst, emit_seq_dst, List.length_append, rlLitLen, hlen]
  · exact ((UnitMove.emit .rl s _).trans (.advance .rl _ _)).readByte_dst ha
  · exact (readByte_dst_emit s _ j).trans (getElem?_memReads s _ hj)

/-- Settles O46: the meaning is `State.advance`, after `RL_EOD` is set, which the finished test reads. -/
theorem rlEndOfData : Obligations.RlEndOfData := by
  unfold Obligations.RlEndOfData
  refine fun s => ⟨rfl, fun hf t ht => ?_⟩
  cases ht
  exact unitFinished_rl hf

/-- Settles O47: of the three classes of a control byte, a byte above 128 is in the third, with `257 - c` copies. -/
theorem rlRepeatRunRepeatsItsByte : Obligations.RlRepeatRunRepeatsItsByte := by
  unfold Obligations.RlRepeatRunRepeatsItsByte
  intro s c hc
  rcases decodeRl_cases c with ⟨hl, -⟩ | ⟨he, -⟩ | ⟨-, n, hd, hn⟩
  · omega
  · omega
  · refine ⟨n, congrArg Except.ok hd, fun b hb => ?_, fun hend => ?_⟩
    · rw [exec_rlRep_of_some hb, hn]
      rfl
    · have hnone : s.memRead (s.seq.rp + 1) = none := List.getElem?_eq_none (Nat.le_of_lt_succ hend)
      exact ⟨_, exec_rlRep_of_none hnone n, rfl, rfl, rfl, rfl, rfl, rfl⟩

end Sys2Proof.Machine
end

section
/-! PROOFS, Flate (spec/45_flate_unsupported.md). O21: the two answers of the inflate port (R270). -/

namespace Sys2Proof.Machine

/-- `INFLATE` has an answer: it replaces `SRC` and the stage is over (R270, R137). -/
theorem exec_nameFlate_of_some {s : State} {b : Bytes} (h : Config.inflate s.seq.src = some b) :
    exec .nameFlate s = .next (s.passStage .flate b) := by
  simp only [exec, execNameFlate, h]

/-- `INFLATE` fails: the name raises (R270). -/
theorem exec_nameFlate_of_none {s : State} (h : Config.inflate s.seq.src = none) :
    exec .nameFlate s = raise .underlyingCodecError .flate s := by
  simp only [exec, execNameFlate, h]

/-- Settles O21, by the answer of `INFLATE`: the meaning is `State.passStage`, or the raise of UnderlyingCodecError. -/
theorem flatePassesTheWholeInputToInflate : Obligations.FlatePassesTheWholeInputToInflate := by
  unfold Obligations.FlatePassesTheWholeInputToInflate
  intro s
  cases hi : Config.inflate s.seq.src with
  | some b => exact ⟨_, exec_nameFlate_of_some hi, rfl⟩
  | none => exact ⟨_, exec_nameFlate_of_none hi, rfl, rfl, rfl, rfl, rfl, rfl⟩

end Sys2Proof.Machine
end

section
/-! PROOFS, exceptions (spec/60_exceptions.md). O9, O22, O23, O25, O58: the states in which the engine rests (R301), the
names that raise (R272, R282), what every abort records (R290, R281), and that no run leaves anything to the next (R294). -/

namespace Sys2Proof.Machine

/-! ## The quiescent states -/

/-- Outside `BUSY` the engine has no move (R301). -/
theorem engineAction_quiet {s : State} (hb : s.rep.status ≠ .busy) : engineAction s = .quiet := by
  unfold engineAction
  split
  next h => exact absurd h hb
  next => rfl

/-- Settles O9: the engine's move is none, which takes off its turn. -/
theorem quiescentEngineTakesNoStep : Obligations.QuiescentEngineTakesNoStep := by
  unfold Obligations.QuiescentEngineTakesNoStep
  intro s hm hb
  exact step_of_quiet ((nextAction_engine hm).trans (engineAction_quiet hb))

/-! ## The names that raise -/

/-- Settles O22: each of the five is the raise of NotImplemented with its own id. -/
theorem stubNamesRaiseNotImplemented : Obligations.StubNamesRaiseNotImplemented := by
  unfold Obligations.StubNamesRaiseNotImplemented
  intro s p hp
  have hraise : ∃ f : FilterId, exec p.1 s = raise .notImplemented f s ∧ f.code = p.2 := by
    simp only [List.mem_cons, List.not_mem_nil, or_false] at hp
    rcases hp with rfl | rfl | rfl | rfl | rfl <;> exact ⟨_, rfl, rfl⟩
  obtain ⟨f, hexec, hcode⟩ := hraise
  exact ⟨_, hexec, rfl, rfl, rfl, hcode, rfl, rfl⟩

/-- Settles O23: a name that is none of the spellings is looked up as `unknown`, and the abort leaves the names. -/
theorem unrecognisedNamesRaiseUnknownFilter : Obligations.UnrecognisedNamesRaiseUnknownFilter := by
  unfold Obligations.UnrecognisedNamesRaiseUnknownFilter
  intro s h
  have hu : lookup (s.name s.seq.stage) = .unknown := (lookup_eq_unknown_iff _).mpr h
  refine ⟨?_, s.aborted .unknownFilter .unknown, rfl, rfl, rfl, rfl, rfl, rfl, rfl, rfl⟩
  simp only [decode, decodeName, hu]

/-! ## What an abort records -/

/-- A name whose dispatch changes the report is aborted with the name's own id (R137, R290). -/
theorem aborted_of_decodeName {n : Bytes} {s t : State} (h : exec (decodeName n) s = .next t) (hr : t.rep ≠ s.rep) :
    ∃ k, t = s.aborted k (lookup n) := by
  unfold decodeName at h
  cases hn : lookup n <;> rw [hn] at h
  case identity | ahx | a85 | lzw | rl => cases h; exact absurd rfl hr
  case flate =>
    cases hi : Config.inflate s.seq.src with
    | none => exact ⟨_, raise_eq_next.mp ((exec_nameFlate_of_none hi).symm.trans h)⟩
    | some b =>
      cases (exec_nameFlate_of_some hi).symm.trans h
      exact absurd rfl hr
  case ccf | jbig2 | dct | jpx | crypt | unknown => exact ⟨_, raise_eq_next.mp h⟩

/-- A stage end that changes the report is aborted with the id in `FID` (R138, R290). -/
theorem aborted_of_stageEnd {s t : State} (h : stageEnd s = .next t) (hr : t.rep ≠ s.rep) :
    ∃ k, t = s.aborted k s.seq.fid := by
  rcases stageEnd_cases s with ⟨k, -, ht⟩ | ⟨u, hu, ht⟩ <;> cases ht.symm.trans h
  · exact ⟨k, rfl⟩
  · obtain ⟨bs, rfl⟩ := unitFinish_ok hu
    exact absurd rfl hr

/-- A unit's step that changes the report is aborted with the id in `FID` (R290). -/
theorem UnitStep.aborted_of_rep_ne {f : FilterId} {s t : State} (h : UnitStep f s t) (hr : t.rep ≠ s.rep) :
    ∃ k, t = s.aborted k s.seq.fid := by
  cases h with
  | moved n hm => exact absurd hm.working.rep hr
  | raised _ ht => exact ⟨_, ht⟩

/-- A host write while `BUSY` takes its turn and does nothing else (R330, R331). -/
theorem step_of_write_of_busy {s : State} {w : HostWrite} (hb : s.rep.status = .busy)
    (ha : nextAction s = hostAction w) : step s = .next s.popTurn := by
  have lock (t : State) : s.popTurn.unlessBusy t = s.popTurn := unlessBusy_of_busy t hb
  cases w
  case cmd v =>
    rcases bit_cases v with rfl | rfl
    · exact step_of_quiet ha
    · rw [step_of_instr (i := .start) ha, exec, execStart, lock]
  case op v =>
    rcases bit_cases v with rfl | rfl
    · rw [step_of_instr (i := .decode) ha, exec, execDecode, writeOp, lock]
    · rw [step_of_instr (i := .decodeAll) ha, exec, execDecodeAll, writeOp, lock]
  all_goals rw [step_of_store ha, hostStore_of_busy _ (s := s.popTurn) hb]

section
variable {s t : State} (hb : s.rep.status = .busy) (h : step s = .next t) (he : t.rep.status = .error)
include hb h he

/-- The engine's step into `ERROR` is the abort with the id of the stage's name, which a running unit has in `FID`
(R290, R31). -/
theorem aborted_of_engine (hi : s.Inv) (ha : nextAction s = engineAction s) :
    ∃ k, t = s.popTurn.aborted k (lookup (s.name s.seq.stage)) := by
  have hr : t.rep ≠ s.popTurn.rep := fun e => by
    rw [e] at he
    cases hb.symm.trans he
  rcases engineAction_cases s with ⟨hq, -⟩ | ⟨-, -, -, e⟩ | ⟨-, -, -, e⟩ | ⟨-, -, -, e⟩ | ⟨-, -, -, e⟩ |
    ⟨-, hp, -, e⟩ | ⟨x, bs, i, -, hp, -, hw, hd, e⟩ | ⟨x, bs, er, -, -, -, -, -, e⟩
  · exact absurd hb hq
  · exact aborted_of_decodeName ((step_of_instr (ha.trans e)).symm.trans h) hr
  · cases (step_of_finish (ha.trans e)).symm.trans h
    cases he
  · cases (step_of_stuck (ha.trans e)).symm.trans h
  · cases (step_of_stuck (ha.trans e)).symm.trans h
  · rw [← (hi.runStage hb hp).2]
    exact aborted_of_stageEnd ((step_of_stageEnd (ha.trans e)).symm.trans h) hr
  · rw [← (hi.runStage hb hp).2]
    have hunit := instrUnit_of_decode (ctxUnit_of_window hw) hd
    exact (unitStep_of_exec hunit ((step_of_instr (ha.trans e)).symm.trans h)).aborted_of_rep_ne hr
  · cases (step_of_stuck (ha.trans e)).symm.trans h

/-- Only the engine's step leads from `BUSY` into `ERROR`: the host's writes are ignored, its reads change no register and
a reset leads to `IDLE`. -/
theorem engine_of_busy_of_error : nextAction s = engineAction s := by
  cases hq : s.agenda with
  | nil => exact nextAction_engine (.inl hq)
  | cons turn rest =>
    cases turn with
    | engine => exact nextAction_engine (.inr (by rw [hq]; rfl))
    | write w =>
      cases (step_of_write_of_busy (w := w) hb (by simp only [nextAction, hq])).symm.trans h
      cases hb.symm.trans he
    | read r =>
      cases (step_of_load (r := r) (by simp only [nextAction, hq])).symm.trans h
      rw [hostLoad_rep] at he
      cases hb.symm.trans he
    | reset =>
      cases (step_of_reset (s := s) (by simp only [nextAction, hq])).symm.trans h
      cases he

end

/-- Settles O25: the step is the engine's abort, and the invariant of the state it leaves (O15) has the cause of R281. -/
theorem abortRecordsKindStageAndId : Obligations.AbortRecordsKindStageAndId := by
  unfold Obligations.AbortRecordsKindStageAndId
  intro s t hi hb h he
  have hcause := (stepKeepsTheInvariant s t hi h).errorOf he
  obtain ⟨k, rfl⟩ := aborted_of_engine hb h he hi (engine_of_busy_of_error hb h he)
  exact ⟨hcause, rfl, rfl, rfl, rfl⟩

/-! ## Runs one after the other -/

/-- A run that is over stays as it is (R301). -/
theorem runSteps_of_quiescent {s : State} (ha : s.agenda = []) (hb : s.rep.status ≠ .busy) (k : Nat) :
    runSteps k s = .next s := by
  induction k with
  | zero => rfl
  | succ k ih =>
    have hstep : step s = .next s.popTurn := quiescentEngineTakesNoStep s (.inl ha) hb
    exact runSteps_succ.mpr ⟨s, by rw [hstep, popTurn_of_nil ha], ih⟩

/-- The engine alone leads a run to one end: both ends are reached after the steps of both runs together. -/
theorem EndsIn.unique {s t u : State} (ha : s.agenda = []) (ht : EndsIn s t) (hu : EndsIn s u) : t = u := by
  obtain ⟨k, hk, hbt⟩ := ht
  obtain ⟨m, hm, hbu⟩ := hu
  have agenda_nil {n : Nat} {v : State} (hn : runSteps n s = .next v) : v.agenda = [] :=
    runSteps_keeps (fun _ _ => agenda_nil_of_step) hn ha
  have htk : runSteps (m + k) s = .next t := runSteps_add hk (runSteps_of_quiescent (agenda_nil hk) hbt m)
  have hum : runSteps (k + m) s = .next u := runSteps_add hm (runSteps_of_quiescent (agenda_nil hm) hbu k)
  rw [Nat.add_comm, htk] at hum
  cases hum
  rfl

/-- Wherever a run that `START` begins ends, it leaves the value of `decodeAll` of its operands (R141). -/
theorem observe_of_start {s s' t : State} (hi : s.Inv) (hb : s.rep.status ≠ .busy) (ha : s.agenda = [])
    (hs : exec .start s = .next s') (ht : EndsIn s' t) :
    t.observe = observationOf s.pipeline (fnDecodeAll s.ws s.pipeline s.input) := by
  obtain ⟨u, hu, ho⟩ := runComputesDecodeAll s s' hi hb ha hs
  rw [exec, execStart, unlessBusy_of_ne _ hb] at hs
  cases hs
  rw [ht.unique (s := s.started) ha hu, ho]

/-- Settles O58: both runs leave the value of `decodeAll` of the operands they share (O57). -/
theorem noStateCarriesFromRunToRun : Obligations.NoStateCarriesFromRunToRun := by
  unfold Obligations.NoStateCarriesFromRunToRun
  intro s₁ s₂ s₁' s₂' t₁ t₂ hi₁ hi₂ hb₁ hb₂ ha₁ ha₂ hws hpipeline hinput hs₁ hs₂ ht₁ ht₂
  rw [observe_of_start hi₁ hb₁ ha₁ hs₁ ht₁, observe_of_start hi₂ hb₂ ha₂ hs₂ ht₂, hws, hpipeline, hinput]

end Sys2Proof.Machine
end

section
/-! PROOFS, reset and hazards (spec/70_reset_and_hazards.md). O10, O11, O13, O14, O51, O55, O56: the host's writes under the
`BUSY` lock and outside it (R323, R330), the state after reset (R320), and that the engine comes to an end (R340). -/

namespace Sys2Proof.Machine

/-! ## Every run ends -/

/-- What is left of the running unit's input, in its own measure (R340): bytes, or for the LZW unit the nines of its bits,
since no code is narrower. -/
def State.unitsLeft (s : State) : Nat :=
  if s.seq.fid = .lzw then (8 * s.seq.src.length - s.lzw.bp) / 9 else s.seq.src.length - s.seq.rp

/-- An instruction of a byte stream raises or takes a byte at least (R166, R191, R252). -/
theorem error_or_rp_lt_of_exec {i : Instr} {f : FilterId} {s t : State} (hi : instrUnit i = some f) (hf : f ≠ .lzw)
    (h : exec i s = .next t) : t.rep.status = .error ∨ s.seq.rp < t.seq.rp := by
  have raised {k : ErrKind} {g : FilterId} (hr : raise k g s = .next t) : t.rep.status = .error := by
    rw [raise_eq_next.mp hr, aborted_rep_status]
  cases i <;> cases hi
  case ahxWs | ahxEod | a85Ws | a85Eod | a85Tilde | rlEod => cases h; exact .inr (Nat.lt_succ_self _)
  case ahxInvalid | a85Invalid => exact .inl (raised h)
  case ahxDigit =>
    simp only [exec, execAhxDigit] at h
    split at h <;> cases h <;> exact .inr (Nat.lt_succ_self _)
  case a85Z =>
    simp only [exec, execA85Z] at h
    split at h
    · cases h; exact .inr (Nat.lt_succ_self _)
    · exact .inl (raised h)
  case a85Digit =>
    simp only [exec, execA85Digit] at h
    split at h <;> cases h <;> exact .inr (Nat.lt_succ_self _)
  case rlLit n =>
    simp only [exec, execRlLit] at h
    split at h
    · exact .inl (raised h)
    · cases h; exact .inr (Nat.lt_add_of_pos_right (by omega))
  case rlRep n =>
    simp only [exec, execRlRep] at h
    split at h
    · exact .inl (raised h)
    · cases h; exact .inr (Nat.lt_add_of_pos_right (by omega))
  all_goals exact absurd rfl hf

/-- A code takes nine bits at least (R38, R211). -/
theorem lzw_unitsLeft_lt {s t : State} (hid : s.seq.fid = .lzw) (hm : LzwMove s t) : t.unitsLeft < s.unitsLeft := by
  have hbits := bits_pos s.lzw.width
  have hcursor := hm.inv.cursor
  have hbp := hm.bp
  have hsrc : t.seq.src = s.seq.src := by rw [hm.seq]
  have hfid : t.seq.fid = .lzw := by rw [hm.seq]; exact hid
  simp only [State.unitsLeft, hid, hfid, if_true, hsrc]
  omega

/-- A byte unit's cursor is not beyond `SRC_LEN` (R34). -/
theorem rp_le_of_unitInv {s : State} (h : s.unitInv) (hid : s.seq.fid ≠ .lzw) : s.seq.rp ≤ s.seq.src.length := by
  rcases unitInv_cases h with ⟨-, hr⟩ | ⟨-, hr, -⟩ | ⟨-, hr⟩ | ⟨hl, -⟩
  · exact hr
  · exact hr
  · exact hr
  · exact absurd hl hid

/-- A move of a byte unit that takes a byte leaves fewer. -/
theorem byte_unitsLeft_lt {f : FilterId} {n : Nat} {s t : State} (hid : s.seq.fid ≠ .lzw) (hm : UnitMove f n s t)
    (ht : t.unitInv) (hlt : s.seq.rp < t.seq.rp) : t.unitsLeft < s.unitsLeft := by
  have hle : t.seq.rp ≤ s.seq.src.length := hm.src ▸ rp_le_of_unitInv ht (hm.fid ▸ hid)
  simp only [State.unitsLeft, hm.fid, if_neg hid, hm.src]
  omega

/-- The step of an unfinished unit raises or leaves less to do. -/
theorem UnitRuns.step_raises_or_shrinks {f : FilterId} {s : State} (h : UnitRuns f s) (hu : s.unitInv)
    (hf : s.unitFinished = false) :
    ∃ t, step s = .next t ∧ (t.rep.status = .error ∨ UnitRuns f t ∧ t.unitInv ∧ t.unitsLeft < s.unitsLeft) := by
  obtain ⟨x, bs, i, t, hw, hd, ht⟩ := unit_answers hu hf
  have hi := instrUnit_of_decode (ctxUnit_of_window hw) hd
  refine ⟨t, (h.step_eq_exec hf hw hd).trans ht, or_iff_not_imp_left.mpr fun he => ?_⟩
  cases unitStep_of_exec hi ht with
  | raised _ e => exact absurd (by rw [e, aborted_rep_status]) he
  | moved n hm _ hr =>
    have hut := unitInv_of_unitMove hu hf hw hd ht hm hr
    refine ⟨h.move (h.fid ▸ hm), hut, ?_⟩
    by_cases hid : s.seq.fid = .lzw
    · have hz : s.lzw.Inv s.seq.src.length := by simpa only [State.unitInv, hid] using hu
      have hfin := (unitFinished_lzw hid).symm.trans hf
      cases (window_lzw hid).symm.trans hw
      obtain ⟨u, hu', hmove⟩ := lzwMove_of_decode hz hfin hd
      cases ht.symm.trans hu'
      exact lzw_unitsLeft_lt hid hmove
    · exact byte_unitsLeft_lt hid hm hut ((error_or_rp_lt_of_exec hi hid ht).resolve_left he)

/-- The stage end raises or goes on to the next dispatch (R138). -/
theorem UnitRuns.stageEnd_raises_or_dispatches {f : FilterId} {s : State} (h : UnitRuns f s)
    (hf : s.unitFinished = true) : ∃ t, step s = .next t ∧ (t.rep.status = .error ∨ Dispatching t) := by
  have hs := h.step_eq_stageEnd hf
  rcases stageEnd_cases s with ⟨k, -, ht⟩ | ⟨t, hk, ht⟩
  · exact ⟨_, hs.trans ht, .inl rfl⟩
  · obtain ⟨bs, rfl⟩ := unitFinish_ok hk
    exact ⟨_, hs.trans ht, .inr ⟨h.status, h.agenda, rfl⟩⟩

/-- A running unit's stage ends within one step for each unit of input left, and one for the stage end (R340). -/
theorem UnitRuns.stage_ends {f : FilterId} {s : State} (h : UnitRuns f s) (hu : s.unitInv) :
    ∃ k t, runSteps k s = .next t ∧ (t.rep.status = .error ∨ Dispatching t) ∧ k ≤ s.unitsLeft + 1 := by
  induction hn : s.unitsLeft using Nat.strong_induction_on generalizing s with
  | _ n ih =>
    subst hn
    cases hf : s.unitFinished with
    | true =>
      obtain ⟨t, hs, ht⟩ := h.stageEnd_raises_or_dispatches hf
      exact ⟨1, t, runSteps_one hs, ht, by omega⟩
    | false =>
      obtain ⟨u, hs, he | ⟨hru, huu, hlt⟩⟩ := h.step_raises_or_shrinks hu hf
      · exact ⟨1, u, runSteps_one hs, .inl he, by omega⟩
      · obtain ⟨k, t, hk, ht, hle⟩ := ih _ hlt hru huu rfl
        exact ⟨k + 1, t, runSteps_succ.mpr ⟨u, hs, hk⟩, ht, by omega⟩

/-- A state that shows a value of `decodeAll` is one in `DONE` or in `ERROR`. -/
theorem done_or_error_of_observe {t : State} {names : List Bytes} {r : Except (ErrKind × Nat) Bytes}
    (h : t.observe = observationOf names r) : t.rep.status = .done ∨ t.rep.status = .error := by
  have hstatus : t.rep.status = (observationOf names r).status := congrArg Observation.status h
  cases r with
  | ok b => exact .inl hstatus
  | error e => exact .inr hstatus

/-- From the dispatch of any stage the run goes through the names that are left, and ends (R141). -/
theorem Dispatching.ends_done_or_error {s : State} (h : Dispatching s) (hi : s.Inv) :
    ∃ k t, runSteps k s = .next t ∧ (t.rep.status = .done ∨ t.rep.status = .error) := by
  obtain ⟨t, ⟨k, hk, -⟩, ho⟩ := h.ends (names := (List.range s.seq.nStages).map s.name) hi (by simp)
    (fun i _ => by simp) rfl
  exact ⟨k, t, hk, done_or_error_of_observe ho⟩

/-- Settles O55: a running unit's stage ends, by the measure of the input left, and from the next dispatch on the stages
are those of `decodeAll`. -/
theorem everyRunEnds : Obligations.EveryRunEnds := by
  unfold Obligations.EveryRunEnds
  intro s hi hb ha
  cases hp : s.seq.phase with
  | dispatch => exact Dispatching.ends_done_or_error ⟨hb, ha, hp⟩ hi
  | run =>
    have hrun : UnitRuns s.seq.fid s := ⟨hb, ha, hp, rfl⟩
    obtain ⟨k, t, hk, he | hd, -⟩ := hrun.stage_ends (hi.runUnit hb hp)
    · exact ⟨k, t, hk, .inr he⟩
    · obtain ⟨m, u, hm, hu⟩ := hd.ends_done_or_error (runSteps_keeps stepKeepsTheInvariant hk hi)
      exact ⟨m + k, u, runSteps_add hk hm, hu⟩

/-- A unit just started meets its part of the invariant, and has all of its input left (R53). -/
theorem unitInv_and_unitsLeft_of_unitStart {s : State} {f : FilterId} {data : Bytes} (h : s.unitStart f data) :
    s.unitInv ∧ s.unitsLeft = if f = .lzw then 8 * data.length / 9 else data.length := by
  obtain ⟨-, -, -, rfl, rfl, -, hunit⟩ := h
  cases hid : s.seq.fid <;> simp only [hid] at hunit <;> simp only [State.unitInv, State.unitsLeft, hid]
  case ahx | rl => simp [hunit.1]
  case a85 => exact ⟨⟨by omega, by simp [hunit.2], by simp [hunit.2]⟩, by simp [hunit.1]⟩
  case lzw => rw [hunit]; exact ⟨lzwInv_initLzw s _, rfl⟩

/-- Settles O56: the whole of the input is left at the start. -/
theorem unitStageStepBound : Obligations.UnitStageStepBound := by
  unfold Obligations.UnitStageStepBound
  intro s f data h
  obtain ⟨hu, hleft⟩ := unitInv_and_unitsLeft_of_unitStart h
  obtain ⟨hb, ha, hp, hf, -⟩ := h
  have hrun : UnitRuns f s := ⟨hb, ha, hp, hf⟩
  obtain ⟨k, t, hk, ht, hle⟩ := hrun.stage_ends hu
  exact ⟨k, t, hk, ht.imp_right Dispatching.phase, hleft ▸ hle⟩

/-! ## Host writes -/

/-- A host write other than a command is a store (R323). -/
theorem step_of_write {s : State} {w : HostWrite} {rest : List Turn} (hq : s.agenda = .write w :: rest)
    (hw : ∀ v, w ≠ .cmd v) : step s = .next (hostStore w s.popTurn) := by
  have ha : nextAction s = hostAction w := by simp only [nextAction, hq]
  cases w
  case cmd v => exact absurd rfl (hw v)
  case op v => rcases bit_cases v with rfl | rfl <;> exact step_of_instr ha
  all_goals exact step_of_store ha

/-- A byte of a buffer after a write (R16). -/
theorem Memory.read_write {m : Memory} (h : m.wf) (a : Nat) (b : Byte) (c : Nat) :
    (m.write a b).read c = if c = a then b else m.read c := by
  split_ifs with hc
  · rw [hc, Memory.read_write_same h]
  · exact Memory.read_write_other h hc b

/-- A name register after one is replaced (R22). -/
theorem nameReg_setName {s : State} (h : Sparse.wf NameReg.unwritten s.host.names) (i : Nat) (r : NameReg) (j : Nat) :
    (s.setName i r).nameReg j = if j = i then r else s.nameReg j := by
  simp only [State.nameReg, setName_host_names]
  split_ifs with hj
  · rw [hj, Sparse.get_set_same h]
  · exact Sparse.get_set_other h hj r

/-- Settles O11, write by write: each is the update of one register, or of one entry of a table. -/
theorem hostWritesReachTheirRegisterOnly : Obligations.HostWritesReachTheirRegisterOnly := by
  unfold Obligations.HostWritesReachTheirRegisterOnly
  intro s w rest hi hb hq hw
  refine ⟨_, step_of_write hq hw, ?_, ?_⟩
  · rw [hostStore_eq]
    simp only [State.popTurn, hq, List.tail_cons]
  have hn : Sparse.wf NameReg.unwritten s.popTurn.host.names := hi.namesWf
  have store (t : State) : s.popTurn.unlessBusy t = t := unlessBusy_of_ne t hb
  cases w
  case cmd v => exact absurd rfl (hw v)
  all_goals
    dsimp only [hostStore, writeOp]
    rw [store]
  case op | plen | inLen => exact ⟨rfl, rfl, rfl, fun _ => rfl, fun _ _ => rfl, fun _ => rfl⟩
  case inByte a b =>
    refine ⟨rfl, rfl, rfl, fun c => ?_, fun _ _ => rfl, fun _ => rfl⟩
    simp only [State.readByte, popTurn_host, Memory.read_write hi.inWf]
    split_ifs <;> rfl
  case nameByte i j b =>
    refine ⟨rfl, rfl, rfl, fun _ => rfl, fun i' j' => ?_, fun i' => ?_⟩
    · simp only [State.readByte, nameReg_setName hn]
      by_cases h : i' = i
      · subst h
        simp only [if_true, true_and, Memory.read_write (nameReg_wf (inv_popTurn hi) _)]
        split_ifs <;> rfl
      · simp only [h, if_false, false_and]; rfl
    · rw [nameReg_setName hn]
      split_ifs with h
      · rw [h]; rfl
      · rfl
  case nameLen i n =>
    refine ⟨rfl, rfl, rfl, fun _ => rfl, fun i' j => ?_, fun i' => ?_⟩
    · simp only [State.readByte, nameReg_setName hn]
      split_ifs with h
      · rw [h]; rfl
      · rfl
    · rw [nameReg_setName hn]
      split_ifs <;> rfl

/-- Settles O10: the lock leaves of the step its turn alone. -/
theorem hostWritesWhileBusyAreIgnored : Obligations.HostWritesWhileBusyAreIgnored := by
  unfold Obligations.HostWritesWhileBusyAreIgnored
  intro s w rest hb hq
  rw [step_of_write_of_busy (w := w) hb (by simp only [nextAction, hq]), State.popTurn, hq, List.tail_cons]

/-- Settles O51, move by move: the host's writes are ignored, and the engine's moves change the working state and the
report alone. -/
theorem operandsCannotChangeDuringARun : Obligations.OperandsCannotChangeDuringARun := by
  unfold Obligations.OperandsCannotChangeDuringARun
  intro s t hb hr hstep
  cases stepMove_of_step hstep with
  | quiet | finish | abort => exact ⟨rfl, rfl⟩
  | start => rw [unlessBusy_of_busy (s := s.popTurn) _ hb]; exact ⟨rfl, rfl⟩
  | store w => rw [hostStore_of_busy (s := s.popTurn) w hb]; exact ⟨rfl, rfl⟩
  | load r => rw [hostLoad_eq]; exact ⟨rfl, rfl⟩
  | reset ha => exact absurd ha hr
  | nextStage _ _ hm => exact ⟨hm.working.host, hm.working.ws⟩
  | enter _ _ hm => exact ⟨hm.working.host, hm.working.ws⟩
  | unit _ _ _ _ _ _ hm => exact ⟨hm.working.host, hm.working.ws⟩

/-! ## Reset -/

/-- The reset input's turn (R320). -/
theorem step_of_reset_turn {s : State} {rest : List Turn} (hq : s.agenda = .reset :: rest) :
    step s = .next s.popTurn.resetInput :=
  step_of_reset (by simp only [nextAction, hq])

/-- Settles O13: `State.reset` and what the reset input leaves are alike in every register, and `IDLE` is quiescent. -/
theorem resetLeavesTheSpecsValues : Obligations.ResetLeavesTheSpecsValues := by
  unfold Obligations.ResetLeavesTheSpecsValues
  refine ⟨fun s rest hs => ?_, fun u rest hq => ⟨_, step_of_reset_turn hq⟩⟩
  have hreset : ∃ u : State, s = u.resetInput := by
    rcases hs with rfl | ⟨u, hq, hstep⟩
    · exact ⟨State.reset, rfl⟩
    · cases (step_of_reset_turn hq).symm.trans hstep
      exact ⟨u.popTurn, rfl⟩
  obtain ⟨u, rfl⟩ := hreset
  exact ⟨rfl, rfl, rfl, rfl, rfl, rfl, rfl, rfl, fun c hc => entry_literal _ hc,
    fun hm => quiescentEngineTakesNoStep _ hm nofun⟩

/-- Settles O14: `State.reset` is what the reset input makes of itself. -/
theorem resetMeetsTheInvariant : Obligations.ResetMeetsTheInvariant := by
  unfold Obligations.ResetMeetsTheInvariant
  exact inv_reset State.reset

end Sys2Proof.Machine
end
